-- ==== Sys2Proof/Word.lean ====
section
/-! DEFINITION. The word types of the block (00_scope.md R7): unsigned integers of 8 and 16 bits, the 24-bit packed
firmware version of the host (10_state.md R27) and its 32-bit flags field (44_host_sequences.md R162). -/

namespace Sys2Proof

/-- `u8` of R7: every byte of a stream, the checksum accumulator. -/
abbrev Byte := BitVec 8

/-- `u16` of R7: lengths, command ids, the payload counter. -/
abbrev U16 := BitVec 16

/-- The host's packed firmware version, R27. -/
abbrev U24 := BitVec 24

/-- The arm-disable flags of the host's StatusSnapshot, R162. -/
abbrev U32 := BitVec 32

end Sys2Proof
end

