-- ==== Sys2Proof/Config.lean ====
section
/-! DEFINITION. The implementation parameters of 00_scope.md R5, the fixed header bytes of 30_encoding.md R63 and R64,
the open parameters (constants without a body: nothing is known of their values) and the free values. -/

namespace Sys2Proof

/-- Which of the three status queries the host selects, R161, R162. -/
inductive StatusVariant where
  | legacy | extended | inav
  deriving DecidableEq, Repr

end Sys2Proof

namespace Sys2Proof.Config

/-! Limits of the two formats (R5). -/

abbrev v1CmdMax : Nat := 255
abbrev v1LenMax : Nat := 255
abbrev v2CmdMax : Nat := 65535
abbrev v2LenMax : Nat := 65535

/-- `PAYLOAD_BUF_BYTES`, R5: the indices of the payload buffer are 0 to 65534. -/
abbrev payloadBufBytes : Nat := 65535

/-! Header bytes (R63, R64). -/

/-- `'$'` -/
abbrev startByte : Byte := 0x24
/-- `'M'` -/
abbrev typeV1Byte : Byte := 0x4D
/-- `'X'` -/
abbrev typeV2Byte : Byte := 0x58
/-- `'<'`, `ENC_DIR`: the direction byte the encoder writes. -/
abbrev dirTx : Byte := 0x3C
/-- `'>'`: received, `is_response = true`. -/
abbrev dirResponse : Byte := 0x3E
/-- `'!'`: received, `is_response = false`. -/
abbrev dirRequest : Byte := 0x21
/-- `ENC_FLAGS`: the flags byte the encoder writes. -/
abbrev encFlags : Byte := 0x00

/-! Checksum parameters (R5, R82, R83). -/

abbrev crcPoly : Byte := 0xD5
abbrev crcInit : Byte := 0x00

/-! Parameters of the documented host (R5). -/

abbrev nTxChannels : Nat := 18
abbrev defaultPulse : U16 := 1759
abbrev rcDecodeCap : Nat := 16
/-- Thresholds of the status selection, R161. -/
abbrev apiThreshold : U16 := 0x0200
abbrev firmwareThreshold : U24 := 0x010801

/-- The least the open parameter `EXIT_STATUS` can be is 1: `EXIT_STATUS = exitStatusLessOne + 1` (R5: "OPEN, any
non-zero value"). Free value, log 13. -/
opaque exitStatusLessOne : Nat

/-- `EXIT_STATUS` (R5, R179): some non-zero number, log 13. -/
def exitStatus : Nat := exitStatusLessOne + 1

/-- What an index of the payload buffer that nothing has written holds (10_state.md R18, R31, I9: "any value").
Free value, log 9. -/
opaque staleByte : Nat → Byte

/-- What the host finds when it reads a response's payload at or beyond its end (95_test_vectors.md P-9 names the case,
no rule gives a value). Free value, log 22. -/
opaque beyondPayload : List Byte → Nat → Byte

/-- `API_MAJOR_OFS`, `API_MINOR_OFS`, `FCV_MAJOR_OFS`, `FCV_MINOR_OFS`, `FCV_PATCH_OFS` (R152, R154, D24). -/
structure HostOffsets where
  apiMajor : Nat
  apiMinor : Nat
  fcvMajor : Nat
  fcvMinor : Nat
  fcvPatch : Nat
  deriving DecidableEq, Repr, Inhabited

/-- The open offsets, log 22. -/
opaque hostOffsets : HostOffsets

/-- Where a status response carries its fields (R162, N28): the offset, the width ("32-or-64-bit") and the byte order of
the status word; the offset and the byte order of the 32-bit arm-disable flags. -/
structure StatusLayout where
  wordOfs : Nat
  wordIs64 : Bool
  wordBigEndian : Bool
  flagsOfs : Nat
  flagsBigEndian : Bool
  deriving DecidableEq, Repr, Inhabited

/-- The layout of each status response: not given (R162, N28), log 23. -/
opaque statusLayout : StatusVariant → StatusLayout

/-- "report armed/unarmed plus flags when non-trivial" (R162): which flags are non-trivial is open, log 23. -/
opaque flagsNonTrivial : U32 → Bool

end Sys2Proof.Config
end

