-- ==== Sys2Proof/Syntax.lean ====
section
/-! DEFINITION. The instructions: one constructor for each of the 49 rows of spec/opcode_table.json, in the table's
order; the parser states (10_state.md R11) in which the receive rows hold; and the coded forms of the rows that
have an encoding. -/

namespace Sys2Proof

/-- `ProtocolVariant`: which of the two frame formats (00_scope.md R1). -/
inductive Variant where
  | v1 | v2
  deriving DecidableEq, Repr

/-- `P.state`, 10_state.md R11: the thirteen states of the source, `HOLD_DELIVER` and `HALTED`. No numeric encoding (D19). -/
inductive PState where
  | waitStart | waitType
  | waitDirection | waitLen | waitCmd
  | waitXDirection | waitFlags | waitCmdLo | waitCmdHi | waitLenLo | waitLenHi
  | collectPayload | waitChecksum
  | holdDeliver | halted
  deriving DecidableEq, Repr

/-- The rows of the opcode table. -/
inductive Instr where
  -- frame formats: R61, R62, R90, R91
  | frameV1Tx (cmd : Byte) (payload : List Byte)
  | frameV2Tx (cmd : U16) (payload : List Byte)
  | frameV1RxResponse (cmd : Byte) (payload : List Byte)
  | frameV1RxRequest (cmd : Byte) (payload : List Byte)
  | frameV2RxResponse (flags : Byte) (cmd : U16) (payload : List Byte)
  | frameV2RxRequest (flags : Byte) (cmd : U16) (payload : List Byte)
  -- receive byte classes: R68, R101 to R113
  | rxStart
  | rxIgnore (b : Byte)
  | rxTypeV1
  | rxTypeV2
  | rxTypeAbort (b : Byte)
  | rxDirV1Response
  | rxDirV1Request
  | rxDirV1Abort (b : Byte)
  | rxV1Len (l : Byte)
  | rxV1Cmd (c : Byte)
  | rxDirV2Response
  | rxDirV2Request
  | rxDirV2Abort (b : Byte)
  | rxV2Flags (f : Byte)
  | rxV2CmdLo (c : Byte)
  | rxV2CmdHi (c : Byte)
  | rxV2LenLo (l : Byte)
  | rxV2LenHi (l : Byte)
  | rxPayload (d : Byte)
  | rxChecksumGood (k : Byte)
  | rxChecksumBad (k : Byte)
  -- command ids: R71
  | apiVersion
  | fcVariant
  | fcVersion
  | boardInfo
  | buildInfo
  | name
  | status
  | rc
  | statusEx
  | setRawRc
  | inavStatus2
  -- events and pure functions: R73
  | reset
  | rxByte (b : Byte)
  | deliver
  | rxFail
  | issue (cmd : U16) (payload : List Byte)
  | take
  | cfgSetV2 (v : Bool)
  | txDrain (n : Nat)
  | encodeV1 (cmd : Nat) (payload : List Byte)
  | encodeV2 (cmd : Nat) (payload : List Byte)
  | encode (usesV2 : Bool) (cmd : Nat) (payload : List Byte)
  deriving DecidableEq, Repr

/-- The coded form of a row: the bytes of a whole frame on the wire, one byte received in a parser state, or a 16-bit
command id. The eleven event rows have none (R73: "None has a bit encoding in the source and the spec invents none"). -/
inductive Code where
  | frame (bytes : List Byte)
  | rxByte (state : PState) (b : Byte)
  | commandId (id : U16)
  deriving DecidableEq, Repr

/-- The agents of 60_exceptions.md R184. `pure` marks the three pure functions, which "may be called on their own" (R73). -/
inductive Agent where
  | reader | consumer | transport | environment | pure
  deriving DecidableEq, Repr

/-- Which agent performs an event (R73, R184). A receive row is part of `RX_BYTE`; a transmitted frame and a command id
are requests of the consumer. -/
def Instr.agent : Instr → Agent
  | .frameV1Tx _ _ | .frameV2Tx _ _ => .consumer
  | .frameV1RxResponse _ _ | .frameV1RxRequest _ _ => .reader
  | .frameV2RxResponse _ _ _ | .frameV2RxRequest _ _ _ => .reader
  | .rxStart | .rxIgnore _ | .rxTypeV1 | .rxTypeV2 | .rxTypeAbort _ => .reader
  | .rxDirV1Response | .rxDirV1Request | .rxDirV1Abort _ | .rxV1Len _ | .rxV1Cmd _ => .reader
  | .rxDirV2Response | .rxDirV2Request | .rxDirV2Abort _ | .rxV2Flags _ => .reader
  | .rxV2CmdLo _ | .rxV2CmdHi _ | .rxV2LenLo _ | .rxV2LenHi _ => .reader
  | .rxPayload _ | .rxChecksumGood _ | .rxChecksumBad _ => .reader
  | .apiVersion | .fcVariant | .fcVersion | .boardInfo | .buildInfo | .name => .consumer
  | .status | .rc | .statusEx | .setRawRc | .inavStatus2 => .consumer
  | .reset => .environment
  | .rxByte _ | .deliver | .rxFail => .reader
  | .issue _ _ | .take | .cfgSetV2 _ => .consumer
  | .txDrain _ => .transport
  | .encodeV1 _ _ | .encodeV2 _ _ | .encode _ _ _ => .pure

/-- May the consumer make this call? Its own events, and the pure functions. -/
def Instr.consumerMay (i : Instr) : Bool :=
  i.agent == .consumer || i.agent == .pure

end Sys2Proof
end

