-- ==== Sys2Proof/Machine/Operands.lean ====
section
/-! DEFINITION. Operand forms: how the multi-byte fields of a frame are taken apart and put together
(20_memory.md R46, R47; 30_encoding.md R65; 40_checksum.md R85 (c), (d)) and the 16-bit command ids (R71). -/

namespace Sys2Proof.Machine

/-- `zext_16` of a byte (R7). -/
def zext16 (b : Byte) : U16 := b.setWidth 16

/-- `v[7:0]`, the byte that comes first on the wire (R46). -/
def lo8 (v : U16) : Byte := v.setWidth 8

/-- `v[15:8]`. -/
def hi8 (v : U16) : Byte := (v >>> 8).setWidth 8

/-- `v | zext_16(b) << 8` (R109, R111). -/
def orHigh (v : U16) (b : Byte) : U16 := v ||| (zext16 b <<< 8)

/-- `lo | hi << 8` (R65, R85 (c)). -/
def joinLE (lo hi : Byte) : U16 := orHigh (zext16 lo) hi

/-- The length of a byte sequence narrowed to the V1 length field (R65, R90). -/
def len8 (p : List Byte) : Byte := BitVec.ofNat 8 p.length

/-- The length of a byte sequence narrowed to 16 bits (R65, R91). -/
def len16 (p : List Byte) : U16 := BitVec.ofNat 16 p.length

/-- The 16-bit command id of a command-id row (R71); the other rows have none. -/
def commandIdOf : Instr → Option U16
  | .apiVersion => some 1
  | .fcVariant => some 2
  | .fcVersion => some 3
  | .boardInfo => some 4
  | .buildInfo => some 5
  | .name => some 10
  | .status => some 101
  | .rc => some 105
  | .statusEx => some 150
  | .setRawRc => some 200
  | .inavStatus2 => some 0x2000
  | .frameV1Tx _ _ | .frameV2Tx _ _ | .frameV1RxResponse _ _ | .frameV1RxRequest _ _ => none
  | .frameV2RxResponse _ _ _ | .frameV2RxRequest _ _ _ => none
  | .rxStart | .rxIgnore _ | .rxTypeV1 | .rxTypeV2 | .rxTypeAbort _ => none
  | .rxDirV1Response | .rxDirV1Request | .rxDirV1Abort _ | .rxV1Len _ | .rxV1Cmd _ => none
  | .rxDirV2Response | .rxDirV2Request | .rxDirV2Abort _ | .rxV2Flags _ => none
  | .rxV2CmdLo _ | .rxV2CmdHi _ | .rxV2LenLo _ | .rxV2LenHi _ | .rxPayload _ => none
  | .rxChecksumGood _ | .rxChecksumBad _ => none
  | .reset | .rxByte _ | .deliver | .rxFail | .issue _ _ | .take | .cfgSetV2 _ | .txDrain _ => none
  | .encodeV1 _ _ | .encodeV2 _ _ | .encode _ _ _ => none

end Sys2Proof.Machine
end

