-- ==== Sys2Proof/Machine/Checksum.lean ====
section
/-! DEFINITION. The two checksums (40_checksum.md R80 to R84) and the frames they close (30_encoding.md R61, R62). -/

namespace Sys2Proof.Machine

/-- `xor8_step`, R80. -/
def xor8Step (acc b : Byte) : Byte := acc ^^^ b

/-- `xor8_frame`, R81: `len ^ cmd ^ p[0] ^ ...`. -/
def xor8Frame (len cmd : Byte) (p : List Byte) : Byte :=
  p.foldl xor8Step (xor8Step len cmd)

/-- One round of the loop of R82: shift toward bit 7, and XOR in the polynomial when bit 7 was 1. -/
def crcRound (c : Byte) : Byte :=
  if c.getLsbD 7 then (c <<< 1) ^^^ Config.crcPoly else c <<< 1

/-- `n` rounds. -/
def crcRounds : Nat → Byte → Byte
  | 0, c => c
  | n + 1, c => crcRounds n (crcRound c)

/-- `crc8_step`, R82. -/
def crc8Step (acc b : Byte) : Byte := crcRounds 8 (acc ^^^ b)

/-- `crc8`, R83, R84: seed 0x00, no final XOR. -/
def crc8 (s : List Byte) : Byte := s.foldl crc8Step Config.crcInit

/-- The bytes a V2 checksum covers (R62, R67). -/
def v2Covered (flags : Byte) (cmd : U16) (p : List Byte) : List Byte :=
  [flags, lo8 cmd, hi8 cmd, lo8 (len16 p), hi8 (len16 p)] ++ p

/-- A whole V1 frame with a given direction byte (R61). -/
def v1Frame (dir cmd : Byte) (p : List Byte) : List Byte :=
  [Config.startByte, Config.typeV1Byte, dir, len8 p, cmd] ++ p ++ [xor8Frame (len8 p) cmd p]

/-- A whole V2 frame with given direction and flags bytes (R62). -/
def v2Frame (dir flags : Byte) (cmd : U16) (p : List Byte) : List Byte :=
  [Config.startByte, Config.typeV2Byte, dir] ++ v2Covered flags cmd p ++ [crc8 (v2Covered flags cmd p)]

end Sys2Proof.Machine
end

