-- ==== Sys2Proof/WellFormed.lean ====
section
/-! DEFINITION. Which terms of `Instr` are instances of their row: the operand ranges and byte classes of the table. -/

namespace Sys2Proof

/-- The operand checks, one row a line.
Frame rows: the payload fits the length field (R61, R62). Default classes: the byte fits none of the specific rows of
its state (R68). `ISSUE`: at most 65535 payload bytes (R131). `TX_DRAIN`: at least one byte (R135). -/
def Instr.wellFormed : Instr → Bool
  | .frameV1Tx _ p => p.length ≤ Config.v1LenMax
  | .frameV2Tx _ p => p.length ≤ Config.v2LenMax
  | .frameV1RxResponse _ p => p.length ≤ Config.v1LenMax
  | .frameV1RxRequest _ p => p.length ≤ Config.v1LenMax
  | .frameV2RxResponse _ _ p => p.length ≤ Config.v2LenMax
  | .frameV2RxRequest _ _ p => p.length ≤ Config.v2LenMax
  | .rxStart => true
  | .rxIgnore b => b != Config.startByte
  | .rxTypeV1 => true
  | .rxTypeV2 => true
  | .rxTypeAbort b => b != Config.typeV1Byte && b != Config.typeV2Byte
  | .rxDirV1Response => true
  | .rxDirV1Request => true
  | .rxDirV1Abort b => b != Config.dirResponse && b != Config.dirRequest
  | .rxV1Len _ => true
  | .rxV1Cmd _ => true
  | .rxDirV2Response => true
  | .rxDirV2Request => true
  | .rxDirV2Abort b => b != Config.dirResponse && b != Config.dirRequest
  | .rxV2Flags _ => true
  | .rxV2CmdLo _ => true
  | .rxV2CmdHi _ => true
  | .rxV2LenLo _ => true
  | .rxV2LenHi _ => true
  | .rxPayload _ => true
  | .rxChecksumGood _ => true
  | .rxChecksumBad _ => true
  | .apiVersion | .fcVariant | .fcVersion | .boardInfo | .buildInfo | .name => true
  | .status | .rc | .statusEx | .setRawRc | .inavStatus2 => true
  | .reset => true
  | .rxByte _ => true
  | .deliver => true
  | .rxFail => true
  | .issue _ p => p.length ≤ Config.v2LenMax
  | .take => true
  | .cfgSetV2 _ => true
  | .txDrain n => 1 ≤ n
  | .encodeV1 _ _ => true
  | .encodeV2 _ _ => true
  | .encode _ _ _ => true

/-- The condition two receive rows put on `P.acc` (R113): a good checksum byte equals it, a bad one does not. -/
def Instr.fitsAcc (acc : Byte) : Instr → Bool
  | .rxChecksumGood k => k == acc
  | .rxChecksumBad k => k != acc
  | .frameV1Tx _ _ | .frameV2Tx _ _ | .frameV1RxResponse _ _ | .frameV1RxRequest _ _ => true
  | .frameV2RxResponse _ _ _ | .frameV2RxRequest _ _ _ => true
  | .rxStart | .rxIgnore _ | .rxTypeV1 | .rxTypeV2 | .rxTypeAbort _ => true
  | .rxDirV1Response | .rxDirV1Request | .rxDirV1Abort _ | .rxV1Len _ | .rxV1Cmd _ => true
  | .rxDirV2Response | .rxDirV2Request | .rxDirV2Abort _ | .rxV2Flags _ => true
  | .rxV2CmdLo _ | .rxV2CmdHi _ | .rxV2LenLo _ | .rxV2LenHi _ | .rxPayload _ => true
  | .apiVersion | .fcVariant | .fcVersion | .boardInfo | .buildInfo | .name => true
  | .status | .rc | .statusEx | .setRawRc | .inavStatus2 => true
  | .reset | .rxByte _ | .deliver | .rxFail | .issue _ _ | .take | .cfgSetV2 _ | .txDrain _ => true
  | .encodeV1 _ _ | .encodeV2 _ _ | .encode _ _ _ => true

end Sys2Proof
end

