-- ==== Sys2Proof/Decode.lean ====
section
/-! DEFINITION. From coded forms to instructions, total and rejecting by name, and after it the encoder.
Three decoders, as the table has three kinds of coded row: a whole frame (30_encoding.md R60 to R67), a byte received
in a parser state (the receive opcode map R68), a command id (R71). -/

namespace Sys2Proof

open Sys2Proof.Machine

/-- Why a coded form is none of the table's. -/
inductive DecodeError where
  /-- the bytes end before the frame does -/
  | truncated
  /-- byte 0 is not `'$'` -/
  | badStart
  /-- byte 1 is neither `'M'` nor `'X'` -/
  | badType
  /-- byte 2 is none of `'<'`, `'>'`, `'!'` (R64) -/
  | badDirection
  /-- a V2 frame with direction `'<'` whose flags byte is not 0x00 (R70: the block transmits 0 only) -/
  | badFlags
  /-- the last byte is not the checksum of the covered bytes (R61, R62) -/
  | badChecksum
  /-- bytes stand after the frame's checksum -/
  | trailingBytes
  /-- the id is none of R71's (such a command is sent by `ISSUE`; no id is reserved, R69) -/
  | commandIdNotInTable
  /-- in `HOLD_DELIVER` and `HALTED` no byte is taken (R68) -/
  | noByteTaken
  deriving DecidableEq, Repr

/-- The row of a V1 frame with this direction byte (R64). -/
def v1Row (dir cmd : Byte) (p : List Byte) : Except DecodeError Instr :=
  if dir = Config.dirTx then .ok (.frameV1Tx cmd p)
  else if dir = Config.dirResponse then .ok (.frameV1RxResponse cmd p)
  else if dir = Config.dirRequest then .ok (.frameV1RxRequest cmd p)
  else .error .badDirection

/-- The row of a V2 frame with these direction and flags bytes (R64, R70). -/
def v2Row (dir flags : Byte) (cmd : U16) (p : List Byte) : Except DecodeError Instr :=
  if dir = Config.dirTx then
    if flags = Config.encFlags then .ok (.frameV2Tx cmd p) else .error .badFlags
  else if dir = Config.dirResponse then .ok (.frameV2RxResponse flags cmd p)
  else if dir = Config.dirRequest then .ok (.frameV2RxRequest flags cmd p)
  else .error .badDirection

/-- `n` payload bytes, the checksum byte, and what stands after it. -/
def splitBody (n : Nat) (bs : List Byte) : Option (List Byte × Byte × List Byte) :=
  match bs.drop n with
  | [] => none
  | k :: rest => some (bs.take n, k, rest)

/-- The bytes of a V1 frame after its type byte. -/
def decodeV1 : List Byte → Except DecodeError (Instr × List Byte)
  | dir :: l :: c :: body =>
    match splitBody l.toNat body with
    | none => .error .truncated
    | some (p, k, rest) =>
      if k = xor8Frame l c p then (v1Row dir c p).map (fun i => (i, rest)) else .error .badChecksum
  | _ => .error .truncated

/-- The bytes of a V2 frame after its type byte. -/
def decodeV2 : List Byte → Except DecodeError (Instr × List Byte)
  | dir :: f :: c0 :: c1 :: l0 :: l1 :: body =>
    match splitBody (joinLE l0 l1).toNat body with
    | none => .error .truncated
    | some (p, k, rest) =>
      if k = crc8 ([f, c0, c1, l0, l1] ++ p) then
        (v2Row dir f (joinLE c0 c1) p).map (fun i => (i, rest))
      else .error .badChecksum
  | _ => .error .truncated

/-- One frame at the front of a byte sequence, and the rest (R60: the second byte tells the format). -/
def decodeFrame : List Byte → Except DecodeError (Instr × List Byte)
  | s :: t :: bs =>
    if s ≠ Config.startByte then .error .badStart
    else if t = Config.typeV1Byte then decodeV1 bs
    else if t = Config.typeV2Byte then decodeV2 bs
    else .error .badType
  | _ => .error .truncated

/-- The receive opcode map, R68: the class of a byte in a parser state. `acc` is `P.acc`, which tells the two checksum
classes apart. -/
def decodeRx (st : PState) (acc b : Byte) : Except DecodeError Instr :=
  match st with
  | .waitStart => if b = Config.startByte then .ok .rxStart else .ok (.rxIgnore b)
  | .waitType =>
    if b = Config.typeV1Byte then .ok .rxTypeV1
    else if b = Config.typeV2Byte then .ok .rxTypeV2
    else .ok (.rxTypeAbort b)
  | .waitDirection =>
    if b = Config.dirResponse then .ok .rxDirV1Response
    else if b = Config.dirRequest then .ok .rxDirV1Request
    else .ok (.rxDirV1Abort b)
  | .waitLen => .ok (.rxV1Len b)
  | .waitCmd => .ok (.rxV1Cmd b)
  | .waitXDirection =>
    if b = Config.dirResponse then .ok .rxDirV2Response
    else if b = Config.dirRequest then .ok .rxDirV2Request
    else .ok (.rxDirV2Abort b)
  | .waitFlags => .ok (.rxV2Flags b)
  | .waitCmdLo => .ok (.rxV2CmdLo b)
  | .waitCmdHi => .ok (.rxV2CmdHi b)
  | .waitLenLo => .ok (.rxV2LenLo b)
  | .waitLenHi => .ok (.rxV2LenHi b)
  | .collectPayload => .ok (.rxPayload b)
  | .waitChecksum => if b = acc then .ok (.rxChecksumGood b) else .ok (.rxChecksumBad b)
  | .holdDeliver => .error .noByteTaken
  | .halted => .error .noByteTaken

/-- The command ids of R71. -/
def decodeCommandId (id : U16) : Except DecodeError Instr :=
  if id = 1 then .ok .apiVersion
  else if id = 2 then .ok .fcVariant
  else if id = 3 then .ok .fcVersion
  else if id = 4 then .ok .boardInfo
  else if id = 5 then .ok .buildInfo
  else if id = 10 then .ok .name
  else if id = 101 then .ok .status
  else if id = 105 then .ok .rc
  else if id = 150 then .ok .statusEx
  else if id = 200 then .ok .setRawRc
  else if id = 0x2000 then .ok .inavStatus2
  else .error .commandIdNotInTable

/-- The decoder: the instruction of a coded form, or a named rejection. -/
def decode (acc : Byte) : Code → Except DecodeError Instr
  | .frame bs =>
    match decodeFrame bs with
    | .ok (i, []) => .ok i
    | .ok (_, _ :: _) => .error .trailingBytes
    | .error e => .error e
  | .rxByte st b => decodeRx st acc b
  | .commandId id => decodeCommandId id

/-- The encoder: the coded form of an instruction; `none` for the eleven rows that have no encoding (R73). -/
def encode : Instr → Option Code
  | .frameV1Tx c p => some (.frame (v1Frame Config.dirTx c p))
  | .frameV2Tx c p => some (.frame (v2Frame Config.dirTx Config.encFlags c p))
  | .frameV1RxResponse c p => some (.frame (v1Frame Config.dirResponse c p))
  | .frameV1RxRequest c p => some (.frame (v1Frame Config.dirRequest c p))
  | .frameV2RxResponse f c p => some (.frame (v2Frame Config.dirResponse f c p))
  | .frameV2RxRequest f c p => some (.frame (v2Frame Config.dirRequest f c p))
  | .rxStart => some (.rxByte .waitStart Config.startByte)
  | .rxIgnore b => some (.rxByte .waitStart b)
  | .rxTypeV1 => some (.rxByte .waitType Config.typeV1Byte)
  | .rxTypeV2 => some (.rxByte .waitType Config.typeV2Byte)
  | .rxTypeAbort b => some (.rxByte .waitType b)
  | .rxDirV1Response => some (.rxByte .waitDirection Config.dirResponse)
  | .rxDirV1Request => some (.rxByte .waitDirection Config.dirRequest)
  | .rxDirV1Abort b => some (.rxByte .waitDirection b)
  | .rxV1Len l => some (.rxByte .waitLen l)
  | .rxV1Cmd c => some (.rxByte .waitCmd c)
  | .rxDirV2Response => some (.rxByte .waitXDirection Config.dirResponse)
  | .rxDirV2Request => some (.rxByte .waitXDirection Config.dirRequest)
  | .rxDirV2Abort b => some (.rxByte .waitXDirection b)
  | .rxV2Flags f => some (.rxByte .waitFlags f)
  | .rxV2CmdLo c => some (.rxByte .waitCmdLo c)
  | .rxV2CmdHi c => some (.rxByte .waitCmdHi c)
  | .rxV2LenLo l => some (.rxByte .waitLenLo l)
  | .rxV2LenHi l => some (.rxByte .waitLenHi l)
  | .rxPayload d => some (.rxByte .collectPayload d)
  | .rxChecksumGood k => some (.rxByte .waitChecksum k)
  | .rxChecksumBad k => some (.rxByte .waitChecksum k)
  | .apiVersion => some (.commandId 0x0001)
  | .fcVariant => some (.commandId 0x0002)
  | .fcVersion => some (.commandId 0x0003)
  | .boardInfo => some (.commandId 0x0004)
  | .buildInfo => some (.commandId 0x0005)
  | .name => some (.commandId 0x000A)
  | .status => some (.commandId 0x0065)
  | .rc => some (.commandId 0x0069)
  | .statusEx => some (.commandId 0x0096)
  | .setRawRc => some (.commandId 0x00C8)
  | .inavStatus2 => some (.commandId 0x2000)
  | .reset | .rxByte _ | .deliver | .rxFail => none
  | .issue _ _ | .take | .cfgSetV2 _ | .txDrain _ => none
  | .encodeV1 _ _ | .encodeV2 _ _ | .encode _ _ _ => none

/-! The table's words (INDEX.md, "Conventions of opcode_table.json"): a frame row's word is its first three or four bytes
with byte 0 in the most significant place; a receive row's word is the byte; a command row's word is the id. Log 19. -/

/-- The parser state in which the table has a specific row for a byte: `'M'`, `'X'` in `WAIT_TYPE`, `'>'`, `'!'` in
`WAIT_DIRECTION` (the same words stand for `WAIT_X_DIRECTION`, log 19), else `WAIT_START`. -/
def tableState (b : Byte) : PState :=
  if b = Config.typeV1Byte ∨ b = Config.typeV2Byte then .waitType
  else if b = Config.dirResponse ∨ b = Config.dirRequest then .waitDirection
  else .waitStart

/-- A frame that begins with these header bytes, every later byte zero: six bytes for `'$M'`, nine for `'$X'`. -/
def padFrame : List Byte → List Byte
  | s :: t :: bs =>
    let whole := if t = Config.typeV1Byte then 6 else 9
    (s :: t :: bs) ++ List.replicate (whole - (bs.length + 2)) 0
  | bs => bs

/-- The bytes of `n` bits of `w`, most significant byte first. -/
def bytesMSB : Nat → Nat → List Byte
  | 0, _ => []
  | k + 1, w => BitVec.ofNat 8 (w / 2 ^ (8 * k)) :: bytesMSB k w

/-- The coded form of a table word of `nbits` bits. -/
def tableCode (nbits w : Nat) : Option Code :=
  if nbits = 8 then
    let b : Byte := BitVec.ofNat 8 w
    some (.rxByte (tableState b) b)
  else if nbits = 16 then some (.commandId (BitVec.ofNat 16 w))
  else if nbits = 24 then some (.frame (padFrame (bytesMSB 3 w)))
  else if nbits = 32 then some (.frame (padFrame (bytesMSB 4 w)))
  else none

/-- The instruction the decoder reads from a word of the opcode table. -/
def decodeTableWord (nbits w : Nat) : Option Instr :=
  match tableCode nbits w with
  | none => none
  | some c =>
    match decode Config.crcInit c with
    | .ok i => some i
    | .error _ => none

end Sys2Proof
end

