-- ==== Sys2Proof/Machine/State.lean ====
section
/-! DEFINITION. The state of the block (10_state.md R10: "exactly this tuple"), the registers the documented host keeps
(R27, R28), and the model's own fields: the result of the last event and the inputs still to come. Plain data. -/

namespace Sys2Proof.Machine

/-- The payload buffer as index and byte pairs, indices strictly rising; an index that is not listed has no value
(10_state.md R18: "After reset the contents are unspecified"; log 9). -/
abbrev Memory := List Host.Cell

/-- The parser registers, 10_state.md R11 to R18. -/
structure Parser where
  /-- `P.state`, which plays the part of a program counter (R30) -/
  state : PState
  /-- `P.variant` -/
  variant : Variant
  /-- `P.is_response` -/
  isResponse : Bool
  /-- `P.len` -/
  len : U16
  /-- `P.cmd` -/
  cmd : U16
  /-- `P.count` -/
  count : U16
  /-- `P.acc` -/
  acc : Byte
  /-- `P.buf` -/
  buf : Memory
  deriving DecidableEq, Repr

/-- The Frame record, R20. -/
structure Frame where
  isResponse : Bool
  length : U16
  cmd : U16
  payload : List Byte
  deriving DecidableEq, Repr

/-- The hand-off slot, R19. `frame` is meaningful only while `full`. -/
structure Slot where
  full : Bool
  frame : Frame
  deriving DecidableEq, Repr

/-- The multiplexer registers, R21 to R23. -/
structure Mux where
  usesV2 : Bool
  awaiting : Bool
  lastCmd : U16
  deriving DecidableEq, Repr

/-- The conditions of 60_exceptions.md R170, with what each records (10_state.md R26). -/
inductive Condition where
  | framingAbort
  | checksumMismatch (variant : Variant) (cmd len : U16) (computed received : Byte)
  | unsolicited (expected got : U16) (awaiting : Bool)
  | transportLost
  | refusedBusy
  | refusedRange
  | refusedHalted
  deriving DecidableEq, Repr

/-- What the last event returned to the agent that performed it (00_scope.md R6, R8; 30_encoding.md R73). The model's
own field (log 1): a refused event returns its code and changes nothing else; a held event is not enabled. -/
inductive Result where
  /-- the event has no result (`RESET`, `RX_BYTE`, `DELIVER`) -/
  | silent
  /-- `OK` -/
  | ok
  /-- the Frame and `solicited`, of `TAKE` -/
  | taken (f : Frame) (solicited : Bool)
  /-- the bytes of `TX_DRAIN` and of the encode functions -/
  | bytes (bs : List Byte)
  /-- a refusal code -/
  | refused (code : Condition)
  /-- not enabled in this state; the agent waits -/
  | held
  /-- `RX_FAIL`: the transport is closed and this `EXIT_STATUS` is reported to the supervisor (R179) -/
  | lost (exitStatus : Nat)
  deriving DecidableEq, Repr

/-- The StatusSnapshot of R162. -/
structure StatusSnapshot where
  armed : Bool
  armDisableFlags : U32
  variant : StatusVariant
  deriving DecidableEq, Repr

/-- What the documented host reports in its loop (R157, R159, R162; log 31). -/
inductive Report where
  | sent (values : List U16)
  | channels (values : List Int)
  | status (snapshot : StatusSnapshot) (flagsShown : Bool)
  deriving DecidableEq, Repr

/-- The documented host's data: its two session registers (R27), the ChannelOverrideMap (R28, R158) and its reports. -/
structure HostRegs where
  apiVersionRaw : U16
  firmwareVersion : U24
  overrides : List (Nat × U16)
  reports : List Report
  deriving DecidableEq, Repr

/-- The point the documented host program has reached (R152 to R163): before a request (`…Ask`), before the `TAKE` of
its response (`…Take`), before `CFG_SET_V2`, at the top of the loop, in the sleep, or ended after transport loss. -/
inductive HostPhase where
  | apiAsk | apiTake | apiCfg (v : Bool)
  | variantAsk | variantTake
  | versionAsk | versionTake
  | buildAsk | buildTake
  | boardAsk | boardTake
  | nameAsk | nameTake
  | loopTop | overrideTake
  | rcAsk | rcTake
  | statusAsk | statusTake (v : StatusVariant)
  | sleep
  | ended
  deriving DecidableEq, Repr

/-- The one consumer (20_memory.md R55): any host, as the calls it still has to make in order, or the documented one. -/
inductive Consumer where
  | calls (rest : List Instr)
  | host (phase : HostPhase)
  deriving DecidableEq, Repr

/-- What one item of the transport's reads brings (20_memory.md R43): a byte, or a failure or end of stream, with the
bytes that came with it, which "are not consumed". -/
inductive RxItem where
  | byte (b : Byte)
  | fail (withBytes : List Byte)
  deriving DecidableEq, Repr

/-- Who moves next (20_memory.md R51; log 3). -/
inductive Turn where
  /-- the reader's next read of the RX stream -/
  | rx
  /-- the consumer's next call -/
  | consumer
  /-- an event of the reader, the transport or the environment, or a single event of any agent (the consumer's: log 32) -/
  | offer (i : Instr)
  /-- a coded row of the opcode table, to be decoded and run -/
  | word (c : Code)
  deriving DecidableEq, Repr

/-- The inputs still to come (R28: inputs, not state of the block; the model holds them as data, log 3). -/
structure Inputs where
  schedule : List Turn
  rx : List RxItem
  consumer : Consumer
  /-- the consumer is suspended in a call that is held (R132, R139) -/
  waiting : Bool
  deriving DecidableEq, Repr

/-- The whole state: R10's tuple in its first six fields, then the host's data and the model's own fields. -/
structure State where
  p : Parser
  slot : Slot
  mux : Mux
  fifo : List Byte
  halted : Bool
  obs : List Condition
  host : HostRegs
  io : Inputs
  result : Result
  deriving DecidableEq, Repr

/-- Faults: the machine stops. -/
inductive Fault where
  /-- Raised by the payload row (and `RX_BYTE` and a received frame, which run it) when `P.count` is 65535: the buffer
  has no such index (20_memory.md R40). No run from reset reaches it (R16). Safe: the model stops. Log 10. -/
  | bufferIndex
  deriving DecidableEq, Repr

/-- Refusals: the model gives no meaning. -/
inductive Refusal where
  /-- Raised by a rejected arm of exec only. Safe. -/
  | notModelled (mnemonic : String)
  /-- Raised by a step whose consumer list holds an event of another agent: "An event performed by the wrong agent is
  outside the spec" (60_exceptions.md R184). Safe. Log 18. -/
  | wrongAgent
  /-- Raised by a step whose word is none of the table's coded rows. Safe. Log 28. -/
  | undecodable
  deriving DecidableEq, Repr

/-- The outcomes of an event. -/
abbrev Out := Host.Outcome State Fault Refusal

/-- The parser after reset, 10_state.md R31; the buffer unspecified. -/
def Parser.atReset : Parser :=
  { state := .waitStart, variant := .v1, isResponse := false, len := 0, cmd := 0, count := 0, acc := 0x00, buf := [] }

/-- The slot after reset: not full; the frame is unspecified in R31 (DESIGN CHOICE, log 11). -/
def Slot.atReset : Slot :=
  { full := false, frame := { isResponse := false, length := 0, cmd := 0, payload := [] } }

/-- The multiplexer after reset, R31. -/
def Mux.atReset : Mux := { usesV2 := false, awaiting := false, lastCmd := 0 }

/-- The host's data before the handshake: not given by the spec (R27, R31; DESIGN CHOICE, log 12). -/
def HostRegs.atReset : HostRegs :=
  { apiVersionRaw := 0, firmwareVersion := 0, overrides := [], reports := [] }

/-- The machine right after reset (10_state.md R31, 70_reset_and_hazards.md R190), with no input placed (log 3, log 30). -/
def State.reset : State :=
  { p := Parser.atReset
    slot := Slot.atReset
    mux := Mux.atReset
    fifo := []
    halted := false
    obs := []
    host := HostRegs.atReset
    io := { schedule := [], rx := [], consumer := .host .apiAsk, waiting := false }
    result := .silent }

end Sys2Proof.Machine
end

