-- ==== Sys2Proof/Machine/Ops.lean ====
section
/-! DEFINITION. The shared operations: the payload buffer (20_memory.md R45, R49), the writers of the state's fields,
the ways an event ends (00_scope.md R8: a result, `refuse`, `hold`, `raise`), the entry to the fatal halt
(60_exceptions.md R179) and the way out of it, the reset (70_reset_and_hazards.md R190). -/

namespace Sys2Proof.Machine

/-! The payload buffer. -/

namespace Memory

/-- `MemRead(i, 1)`: what index `i` holds, if anything has written it. -/
def read : Memory → Nat → Option Byte
  | [], _ => none
  | (a, b) :: rest, i => if a = i then some b else read rest i

/-- `MemWrite(i, 1, b)`, keeping the indices strictly rising. -/
def write : Memory → Nat → Byte → Memory
  | [], i, b => [(i, b)]
  | (a, c) :: rest, i, b =>
    if i < a then (i, b) :: (a, c) :: rest
    else if i = a then (i, b) :: rest
    else (a, c) :: write rest i b

/-- Every index is above `lo` (when there is a bound), the indices rise strictly, and all exist (R40: 0 to 65534). -/
def wfFrom : Option Nat → Memory → Bool
  | _, [] => true
  | lo, (a, _) :: rest =>
    (match lo with | none => true | some l => l < a) && a < Config.payloadBufBytes && wfFrom (some a) rest

/-- The canonical form: strictly rising indices of the buffer. (An unlisted index has no value, so no entry can equal
what an unlisted index reads as.) -/
def wf (m : Memory) : Bool := wfFrom none m

/-- The first `n` bytes, as `DELIVER` copies them (R114). An index that nothing has written supplies a free value
(R18, I9: "any value"; log 9). -/
def prefixBytes (m : Memory) (n : Nat) : List Byte :=
  (List.range n).map (fun i => (m.read i).getD (Config.staleByte i))

/-- Indices 0 to `n - 1` have all been written. -/
def written (m : Memory) (n : Nat) : Bool :=
  (List.range n).all (fun i => (m.read i).isSome)

end Memory

/-! Writers. -/

namespace State

def setP (s : State) (v : Parser) : State := { s with p := v }
def setSlot (s : State) (v : Slot) : State := { s with slot := v }
def setMux (s : State) (v : Mux) : State := { s with mux := v }
def setFifo (s : State) (v : List Byte) : State := { s with fifo := v }
def setHalted (s : State) (v : Bool) : State := { s with halted := v }
def setObs (s : State) (v : List Condition) : State := { s with obs := v }
def setHost (s : State) (v : HostRegs) : State := { s with host := v }
def setIo (s : State) (v : Inputs) : State := { s with io := v }
def setResult (s : State) (v : Result) : State := { s with result := v }

/-- Writers of one input list. -/
def setSchedule (s : State) (v : List Turn) : State := s.setIo { s.io with schedule := v }
def setRx (s : State) (v : List RxItem) : State := s.setIo { s.io with rx := v }
def setConsumer (s : State) (v : Consumer) : State := s.setIo { s.io with consumer := v }
def setWaiting (s : State) (v : Bool) : State := s.setIo { s.io with waiting := v }

end State

/-- `P.state <- st`. -/
def Parser.goto (p : Parser) (st : PState) : Parser := { p with state := st }

/-- `TxAppend(bytes)`, R8. -/
def txAppend (s : State) (bs : List Byte) : State := s.setFifo (s.fifo ++ bs)

/-! Conditions. -/

/-- Does the condition append a record to `OBS`? (60_exceptions.md R170, column "recorded in OBS".) -/
def Condition.recorded : Condition → Bool
  | .framingAbort => false
  | .checksumMismatch _ _ _ _ _ => true
  | .unsolicited _ _ _ => true
  | .transportLost => true
  | .refusedBusy => false
  | .refusedRange => false
  | .refusedHalted => false

/-- Is the condition one of the three refusal codes? (R170, column "class"; R175.) -/
def Condition.isRefusal : Condition → Bool
  | .framingAbort => false
  | .checksumMismatch _ _ _ _ _ => false
  | .unsolicited _ _ _ => false
  | .transportLost => false
  | .refusedBusy => true
  | .refusedRange => true
  | .refusedHalted => true

/-- `raise c` (R8): append the record of a recorded condition; a silent one leaves no trace (R171). -/
def raise (s : State) (c : Condition) : State :=
  if c.recorded then s.setObs (s.obs ++ [c]) else s

/-! How an event ends. -/

/-- The event completes with result `r`. -/
def finish (s : State) (r : Result) : Out := .next (s.setResult r)

/-- `refuse CODE`: "ends the event with no state change and returns CODE" (R8, R175). -/
def refuse (s : State) (code : Condition) : Out := .next (s.setResult (.refused code))

/-- `hold`: "the event is not enabled in this state" (R8): nothing changes (log 2). -/
def hold (s : State) : Out := .next (s.setResult .held)

/-- `if F.halted then refuse REFUSED_HALTED`, the first line of every event but `RESET` and `DELIVER` (R180). -/
def unlessHalted (s : State) (body : Out) : Out :=
  if s.halted then refuse s .refusedHalted else body

/-! The fatal halt and the way out of it. -/

/-- Entry to the fatal halt, 60_exceptions.md R179: record `TRANSPORT_LOST`, set the sticky flag, `P.state <- HALTED`;
the transport is closed and `EXIT_STATUS` reported as the event's result. Nothing is saved. -/
def enterHalt (s : State) : Out :=
  let s1 := raise s .transportLost
  finish ((s1.setHalted true).setP (s1.p.goto .halted)) (.lost Config.exitStatus)

/-- `RESET`, 70_reset_and_hazards.md R190, on the block's tuple; it is also the only way out of the halt (R182). -/
def resetBlock (s : State) : State :=
  { s with
    p := Parser.atReset
    slot := Slot.atReset
    mux := Mux.atReset
    fifo := []
    halted := false
    obs := [] }

/-- What a reset does to the consumer: it releases a call that was held (43_mux.md R139), and the documented host, which
is part of the process whose start a reset stands for (R190), begins again at its first exchange (log 17). -/
def restartConsumer (io : Inputs) : Inputs :=
  match io.consumer with
  | .host _ => { io with consumer := .host .apiAsk, waiting := false }
  | .calls cs => { io with consumer := .calls (if io.waiting then cs.tail else cs), waiting := false }

/-- The host's registers are unspecified after a reset (R27, R31); its override map is user input and stays (R194). -/
def restartHost (h : HostRegs) : HostRegs :=
  { HostRegs.atReset with overrides := h.overrides }

end Sys2Proof.Machine
end

