-- ==== Sys2Proof/Machine/HostData.lean ====
section
/-! DEFINITION. The documented host's data (44_host_sequences.md): the transmit buffer (R158), the `RC` decode (R159),
the packed versions (R152, R154), the status selection (R161) and the status decode (R162). -/

namespace Sys2Proof.Machine

/-- The pulse of a 1-based channel: the map's, or 1759 (R158; a map has one value a channel, the first listed, log 27). -/
def channelPulse (m : List (Nat × U16)) (ch : Nat) : U16 :=
  match m.lookup ch with
  | some v => v
  | none => Config.defaultPulse

/-- The 18 slots of the TransmitBuffer (R158); an entry for a channel outside 1 to 18 has no slot. -/
def txSlots (m : List (Nat × U16)) : List U16 :=
  (List.range Config.nTxChannels).map (fun i => channelPulse m (i + 1))

/-- The 36 payload bytes of `SET_RAW_RC`, each slot low byte first (R158). -/
def txBuffer (m : List (Nat × U16)) : List Byte :=
  (txSlots m).flatMap (fun v => [lo8 v, hi8 v])

/-- `sint16` of the byte pairs in order, an odd last byte ignored (R159; little-endian, D25). -/
def sint16s : List Byte → List Int
  | a :: b :: rest => (joinLE a b).toInt :: sint16s rest
  | _ => []

/-- The `RC` decode, R159: at most sixteen values. -/
def rcDecode (payload : List Byte) : List Int := (sint16s payload).take Config.rcDecodeCap

/-- Byte `i` of a payload as the host reads it; beyond the end a free value (log 22). -/
def payloadAt (payload : List Byte) (i : Nat) : Byte :=
  (payload[i]?).getD (Config.beyondPayload payload i)

/-- `major << 8 | minor` (R152). -/
def apiVersionOf (o : Config.HostOffsets) (payload : List Byte) : U16 :=
  joinLE (payloadAt payload o.apiMinor) (payloadAt payload o.apiMajor)

/-- "true when the received major version equals 2" (R152). -/
def apiSaysV2 (o : Config.HostOffsets) (payload : List Byte) : Bool :=
  payloadAt payload o.apiMajor == 2

/-- `major << 16 | minor << 8 | patch` (R154). -/
def firmwareVersionOf (o : Config.HostOffsets) (payload : List Byte) : U24 :=
  payloadAt payload o.fcvMajor ++ payloadAt payload o.fcvMinor ++ payloadAt payload o.fcvPatch

/-- The status selection, R161. -/
def selectStatus (api : U16) (fw : U24) : StatusVariant :=
  if Config.apiThreshold < api ∧ Config.firmwareThreshold ≤ fw then .inav
  else if Config.apiThreshold < api then .extended
  else .legacy

/-- The command-id row of a selected status query. -/
def statusInstr : StatusVariant → Instr
  | .legacy => .status
  | .extended => .statusEx
  | .inav => .inavStatus2

/-- Four bytes at an offset, in either order. -/
def u32At (bigEndian : Bool) (payload : List Byte) (ofs : Nat) : U32 :=
  let b0 := payloadAt payload ofs
  let b1 := payloadAt payload (ofs + 1)
  let b2 := payloadAt payload (ofs + 2)
  let b3 := payloadAt payload (ofs + 3)
  if bigEndian then b0 ++ b1 ++ b2 ++ b3 else b3 ++ b2 ++ b1 ++ b0

/-- The byte that holds bit 0 of the status word (R162: "bit 0 = armed"). -/
def armedByteOfs (l : Config.StatusLayout) : Nat :=
  if l.wordBigEndian then l.wordOfs + (if l.wordIs64 then 7 else 3) else l.wordOfs

/-- The StatusSnapshot of a response, R162, for a given layout. -/
def snapshotOf (l : Config.StatusLayout) (v : StatusVariant) (payload : List Byte) : StatusSnapshot :=
  { armed := (payloadAt payload (armedByteOfs l)).getLsbD 0
    armDisableFlags := u32At l.flagsBigEndian payload l.flagsOfs
    variant := v }

end Sys2Proof.Machine
end

