-- ==== Sys2Proof/Machine/Flags.lean ====
section
/-! DEFINITION. The one-bit results the rules compute: which format is selected (41_encoder.md R92), whether a frame is
solicited (43_mux.md R133), whether a payload is empty or complete (42_parser.md R105, R111, R112), when an internal
step is enabled (R114, R135). -/

namespace Sys2Proof.Machine

/-- The selection rule, R92: "use V2 encoding if the negotiated protocol is V2 or commandId > 255; otherwise V1." -/
def selectsV2 (usesV2 : Bool) (cmd : Nat) : Bool := usesV2 || decide (Config.v1CmdMax < cmd)

/-- `solicited <- M.awaiting and (f.cmd = M.last_cmd)`, R132, R133. -/
def solicited (m : Mux) (f : Frame) : Bool := m.awaiting && f.cmd == m.lastCmd

/-- The state after the last header byte: "When payload length is 0, skip payload collection and go directly to
checksum" (R66, R105, R111). -/
def afterHeader (len : U16) : PState := if len = 0 then .waitChecksum else .collectPayload

/-- The state after a payload byte: `P.count = P.len` after the increment (R112). -/
def afterPayload (count len : U16) : PState := if count = len then .waitChecksum else .collectPayload

/-- `DELIVER` is "enabled iff P.state = HOLD_DELIVER and S.full = false and F.halted = false" (R114). -/
def deliverEnabled (s : State) : Bool :=
  decide (s.p.state = .holdDeliver) && !s.slot.full && !s.halted

/-- A byte is taken: not halted, and not waiting with a validated frame (R100, R68). -/
def byteEnabled (s : State) : Bool :=
  !s.halted && decide (s.p.state ≠ .holdDeliver) && decide (s.p.state ≠ .halted)

/-- `TX_DRAIN(n)`: `1 <= n <= len(T.fifo)` (R135, log 15). -/
def drainEnabled (s : State) (n : Nat) : Bool := decide (1 ≤ n) && decide (n ≤ s.fifo.length)

end Sys2Proof.Machine
end

