-- ==== Sys2Proof/Machine/Encoder.lean ====
section
/-! DEFINITION. The frame encoder (41_encoder.md R90 to R94): three pure functions, and the three rows that call them.
`none` is the refusal `REFUSED_RANGE`. -/

namespace Sys2Proof.Machine

/-- `ENCODE_V1`, R90. -/
def encV1 (cmd : Nat) (p : List Byte) : Option (List Byte) :=
  if Config.v1CmdMax < cmd ∨ Config.v1LenMax < p.length then none
  else some (v1Frame Config.dirTx (BitVec.ofNat 8 cmd) p)

/-- `ENCODE_V2`, R91. -/
def encV2 (cmd : Nat) (p : List Byte) : Option (List Byte) :=
  if Config.v2CmdMax < cmd ∨ Config.v2LenMax < p.length then none
  else some (v2Frame Config.dirTx Config.encFlags (BitVec.ofNat 16 cmd) p)

/-- `ENCODE`, R92. -/
def enc (usesV2 : Bool) (cmd : Nat) (p : List Byte) : Option (List Byte) :=
  if selectsV2 usesV2 cmd then encV2 cmd p else encV1 cmd p

/-- A pure function returns its bytes or `REFUSED_RANGE` and touches nothing (R93, R94; also while halted, log 8). -/
def returnBytes (s : State) : Option (List Byte) → Out
  | none => refuse s .refusedRange
  | some bs => finish s (.bytes bs)

def execEncodeV1 (cmd : Nat) (p : List Byte) (s : State) : Out := returnBytes s (encV1 cmd p)

def execEncodeV2 (cmd : Nat) (p : List Byte) (s : State) : Out := returnBytes s (encV2 cmd p)

def execEncode (usesV2 : Bool) (cmd : Nat) (p : List Byte) (s : State) : Out := returnBytes s (enc usesV2 cmd p)

end Sys2Proof.Machine
end

