-- ==== Sys2Proof/Machine/Mux.lean ====
section
/-! DEFINITION. The command-response multiplexer (43_mux.md): `ISSUE` (R131), `TAKE` (R132, R133), `CFG_SET_V2` (R134),
`TX_DRAIN` (R135). -/

namespace Sys2Proof.Machine

/-- `ISSUE(cmd, payload)`, R131; the tests in the order halted, busy, range (R175). -/
def issue (cmd : U16) (p : List Byte) (s : State) : Out :=
  unlessHalted s
    (if s.mux.awaiting then refuse s .refusedBusy
     else match enc s.mux.usesV2 cmd.toNat p with
       | none => refuse s .refusedRange
       | some bs =>
         let s1 := txAppend s bs
         finish (s1.setMux { s1.mux with lastCmd := cmd, awaiting := true }) .ok)

def execIssue (cmd : U16) (p : List Byte) (s : State) : Out := issue cmd p s

/-- `TAKE` with a frame in the slot, R132: the frame and `solicited` are returned, an unsolicited frame is recorded, the
slot and the outstanding-request flag are cleared. -/
def takeFrame (s : State) : Out :=
  let f := s.slot.frame
  let sol := solicited s.mux f
  let s1 := if sol then s else raise s (.unsolicited s.mux.lastCmd f.cmd s.mux.awaiting)
  finish ((s1.setSlot { s1.slot with full := false }).setMux { s1.mux with awaiting := false }) (.taken f sol)

/-- `TAKE`, R132: held while the slot is empty, with no timeout. -/
def execTake (s : State) : Out :=
  unlessHalted s (if s.slot.full then takeFrame s else hold s)

/-- `CFG_SET_V2(v)`, R134. -/
def execCfgSetV2 (v : Bool) (s : State) : Out :=
  unlessHalted s (finish (s.setMux { s.mux with usesV2 := v }) .ok)

/-- `TX_DRAIN(n)`, R135. -/
def execTxDrain (n : Nat) (s : State) : Out :=
  unlessHalted s
    (if drainEnabled s n then finish (s.setFifo (s.fifo.drop n)) (.bytes (s.fifo.take n)) else hold s)

end Sys2Proof.Machine
end

