-- ==== Sys2Proof/Machine/Commands.lean ====
section
/-! DEFINITION. The eleven command-id rows (30_encoding.md R71): the requests of the documented host. Each is the
pseudo-operation `QUERY` of R75, `ISSUE <id> []`; `SET_RAW_RC` carries the transmit buffer of the override map
(44_host_sequences.md R157, R158). What the host does with the response is in HostProgram.lean (log 7). -/

namespace Sys2Proof.Machine

/-- `QUERY`: "ISSUE <id> [], a request with an empty payload" (R75, R151). -/
def query (id : U16) (s : State) : Out := issue id [] s

def execApiVersion (s : State) : Out := query 1 s

def execFcVariant (s : State) : Out := query 2 s

def execFcVersion (s : State) : Out := query 3 s

def execBoardInfo (s : State) : Out := query 4 s

def execBuildInfo (s : State) : Out := query 5 s

def execName (s : State) : Out := query 10 s

def execStatus (s : State) : Out := query 101 s

def execRc (s : State) : Out := query 105 s

def execStatusEx (s : State) : Out := query 150 s

/-- `ISSUE(200, buffer_bytes)` with the 36-byte payload (R157). -/
def execSetRawRc (s : State) : Out := issue 200 (txBuffer s.host.overrides) s

def execInavStatus2 (s : State) : Out := query 0x2000 s

end Sys2Proof.Machine
end

