-- ==== Sys2Proof/Machine/Control.lean ====
section
/-! DEFINITION. `RESET` (70_reset_and_hazards.md R190, R191). -/

namespace Sys2Proof.Machine

/-- `RESET`: "enabled in every state, HALTED included, and is never refused" (R190). It discards what R191 lists and does
not re-align the RX stream: `io.rx` stays as it is. -/
def execReset (s : State) : Out :=
  let s1 := resetBlock s
  finish ((s1.setHost (restartHost s1.host)).setIo (restartConsumer s1.io)) .silent

end Sys2Proof.Machine
end

