-- ==== Sys2Proof/Machine/ParserRows.lean ====
section
/-! DEFINITION. The frame parser (42_parser.md): the effect of each receive byte class, one definition a row of R68, and
the 21 rows of the opcode table that are these classes. A row holds in one parser state; in another state the event it
names is not enabled there (log 4). -/

namespace Sys2Proof.Machine

/-! Effects of the classes on the parser registers (R101 to R112). -/

/-- R101, `'$'`. -/
def effStart (p : Parser) : Parser := p.goto .waitType

/-- R101, any other byte: "no change at all". -/
def effIgnore (p : Parser) : Parser := p.goto .waitStart

/-- R102, `'M'`. -/
def effTypeV1 (p : Parser) : Parser := { p with variant := .v1, state := .waitDirection }

/-- R102, `'X'`. -/
def effTypeV2 (p : Parser) : Parser := { p with variant := .v2, state := .waitXDirection }

/-- R103. -/
def effDirV1 (isResponse : Bool) (p : Parser) : Parser := { p with isResponse := isResponse, state := .waitLen }

/-- R106. -/
def effDirV2 (isResponse : Bool) (p : Parser) : Parser := { p with isResponse := isResponse, state := .waitFlags }

/-- R115, R171: an abort writes nothing but `P.state`; the byte is consumed. -/
def effAbort (p : Parser) : Parser := p.goto .waitStart

/-- R104. -/
def effV1Len (b : Byte) (p : Parser) : Parser := { p with len := zext16 b, acc := b, state := .waitCmd }

/-- R105. -/
def effV1Cmd (b : Byte) (p : Parser) : Parser :=
  { p with cmd := zext16 b, acc := xor8Step p.acc b, count := 0, state := afterHeader p.len }

/-- R107. -/
def effV2Flags (b : Byte) (p : Parser) : Parser := { p with acc := crc8Step Config.crcInit b, state := .waitCmdLo }

/-- R108. -/
def effV2CmdLo (b : Byte) (p : Parser) : Parser :=
  { p with cmd := zext16 b, acc := crc8Step p.acc b, state := .waitCmdHi }

/-- R109. -/
def effV2CmdHi (b : Byte) (p : Parser) : Parser :=
  { p with cmd := orHigh p.cmd b, acc := crc8Step p.acc b, state := .waitLenLo }

/-- R110. -/
def effV2LenLo (b : Byte) (p : Parser) : Parser :=
  { p with len := zext16 b, acc := crc8Step p.acc b, state := .waitLenHi }

/-- R111: the test is on the full 16-bit value. -/
def effV2LenHi (b : Byte) (p : Parser) : Parser :=
  { p with len := orHigh p.len b, acc := crc8Step p.acc b, count := 0, state := afterHeader (orHigh p.len b) }

/-- The running checksum of the frame's variant (R112). -/
def accStep (v : Variant) (acc b : Byte) : Byte :=
  match v with
  | .v1 => xor8Step acc b
  | .v2 => crc8Step acc b

/-- R112, with the write at index `P.count`. -/
def effPayload (b : Byte) (p : Parser) : Parser :=
  { p with
    buf := p.buf.write p.count.toNat b
    acc := accStep p.variant p.acc b
    count := p.count + 1
    state := afterPayload (p.count + 1) p.len }

/-! The same on the whole state. -/

/-- A class that writes parser registers only. -/
def parserOnly (f : Parser → Parser) (s : State) : Out := finish (s.setP (f s.p)) .silent

/-- An abort: the condition `FRAMING_ABORT` is raised, which records nothing (R171). -/
def abort (s : State) : Out :=
  let s1 := raise s .framingAbort
  finish (s1.setP (effAbort s1.p)) .silent

/-- R112: an index the buffer does not have is a fault (log 10). -/
def collect (b : Byte) (s : State) : Out :=
  if s.p.count.toNat < Config.payloadBufBytes then parserOnly (effPayload b) s else .fault .bufferIndex

/-- R113, match. -/
def checksumGood (s : State) : Out := parserOnly (fun p => p.goto .holdDeliver) s

/-- R113, mismatch: the record, and back to `WAIT_START`. -/
def checksumBad (b : Byte) (s : State) : Out :=
  let s1 := raise s (.checksumMismatch s.p.variant s.p.cmd s.p.len s.p.acc b)
  finish (s1.setP (s1.p.goto .waitStart)) .silent

/-! The rows. -/

/-- A receive row: the class's effect when the parser is in the row's state and the byte is in the class. -/
def rxRow (st : PState) (fits : Bool) (body : State → Out) (s : State) : Out :=
  unlessHalted s (if s.p.state = st ∧ fits = true then body s else hold s)

def execRxStart (s : State) : Out := rxRow .waitStart true (parserOnly effStart) s

def execRxIgnore (b : Byte) (s : State) : Out :=
  rxRow .waitStart (b != Config.startByte) (parserOnly effIgnore) s

def execRxTypeV1 (s : State) : Out := rxRow .waitType true (parserOnly effTypeV1) s

def execRxTypeV2 (s : State) : Out := rxRow .waitType true (parserOnly effTypeV2) s

def execRxTypeAbort (b : Byte) (s : State) : Out :=
  rxRow .waitType (b != Config.typeV1Byte && b != Config.typeV2Byte) abort s

def execRxDirV1Response (s : State) : Out := rxRow .waitDirection true (parserOnly (effDirV1 true)) s

def execRxDirV1Request (s : State) : Out := rxRow .waitDirection true (parserOnly (effDirV1 false)) s

def execRxDirV1Abort (b : Byte) (s : State) : Out :=
  rxRow .waitDirection (b != Config.dirResponse && b != Config.dirRequest) abort s

def execRxV1Len (l : Byte) (s : State) : Out := rxRow .waitLen true (parserOnly (effV1Len l)) s

def execRxV1Cmd (c : Byte) (s : State) : Out := rxRow .waitCmd true (parserOnly (effV1Cmd c)) s

def execRxDirV2Response (s : State) : Out := rxRow .waitXDirection true (parserOnly (effDirV2 true)) s

def execRxDirV2Request (s : State) : Out := rxRow .waitXDirection true (parserOnly (effDirV2 false)) s

def execRxDirV2Abort (b : Byte) (s : State) : Out :=
  rxRow .waitXDirection (b != Config.dirResponse && b != Config.dirRequest) abort s

def execRxV2Flags (f : Byte) (s : State) : Out := rxRow .waitFlags true (parserOnly (effV2Flags f)) s

def execRxV2CmdLo (c : Byte) (s : State) : Out := rxRow .waitCmdLo true (parserOnly (effV2CmdLo c)) s

def execRxV2CmdHi (c : Byte) (s : State) : Out := rxRow .waitCmdHi true (parserOnly (effV2CmdHi c)) s

def execRxV2LenLo (l : Byte) (s : State) : Out := rxRow .waitLenLo true (parserOnly (effV2LenLo l)) s

def execRxV2LenHi (l : Byte) (s : State) : Out := rxRow .waitLenHi true (parserOnly (effV2LenHi l)) s

def execRxPayload (d : Byte) (s : State) : Out := rxRow .collectPayload true (collect d) s

def execRxChecksumGood (k : Byte) (s : State) : Out := rxRow .waitChecksum (k == s.p.acc) checksumGood s

def execRxChecksumBad (k : Byte) (s : State) : Out := rxRow .waitChecksum (k != s.p.acc) (checksumBad k) s

end Sys2Proof.Machine
end

