-- ==== Sys2Proof/Machine/Reader.lean ====
section
/-! DEFINITION. The reader's events: `RX_BYTE` (42_parser.md R100, dispatched on `P.state` to the rules R101 to R113),
the internal `DELIVER` (R114) and `RX_FAIL` (60_exceptions.md R179); and the pseudo-operation `RX` on a byte sequence
(30_encoding.md R75). -/

namespace Sys2Proof.Machine

/-- "execute the rule of P.state below" (R100). In `HOLD_DELIVER` and `HALTED` no byte is taken (R68). -/
def rxRule (b : Byte) (s : State) : Out :=
  match s.p.state with
  | .waitStart =>
    if b = Config.startByte then parserOnly effStart s else parserOnly effIgnore s
  | .waitType =>
    if b = Config.typeV1Byte then parserOnly effTypeV1 s
    else if b = Config.typeV2Byte then parserOnly effTypeV2 s
    else abort s
  | .waitDirection =>
    if b = Config.dirResponse then parserOnly (effDirV1 true) s
    else if b = Config.dirRequest then parserOnly (effDirV1 false) s
    else abort s
  | .waitLen => parserOnly (effV1Len b) s
  | .waitCmd => parserOnly (effV1Cmd b) s
  | .waitXDirection =>
    if b = Config.dirResponse then parserOnly (effDirV2 true) s
    else if b = Config.dirRequest then parserOnly (effDirV2 false) s
    else abort s
  | .waitFlags => parserOnly (effV2Flags b) s
  | .waitCmdLo => parserOnly (effV2CmdLo b) s
  | .waitCmdHi => parserOnly (effV2CmdHi b) s
  | .waitLenLo => parserOnly (effV2LenLo b) s
  | .waitLenHi => parserOnly (effV2LenHi b) s
  | .collectPayload => collect b s
  | .waitChecksum => if b = s.p.acc then checksumGood s else checksumBad b s
  | .holdDeliver => hold s
  | .halted => refuse s .refusedHalted

/-- `RX_BYTE(b)`, R100. -/
def execRxByte (b : Byte) (s : State) : Out := unlessHalted s (rxRule b s)

/-- The Frame that `DELIVER` builds, R114. -/
def receivedFrame (p : Parser) : Frame :=
  { isResponse := p.isResponse, length := p.len, cmd := p.cmd, payload := p.buf.prefixBytes p.len.toNat }

/-- The deposit of R114. -/
def deposit (s : State) : State :=
  (s.setSlot { full := true, frame := receivedFrame s.p }).setP (s.p.goto .waitStart)

/-- `DELIVER`, R114; not enabled while halted (R180). -/
def execDeliver (s : State) : Out := if deliverEnabled s then finish (deposit s) .silent else hold s

/-- `RX_FAIL`, R179, enabled in every parser state (R173, R201). -/
def execRxFail (s : State) : Out := unlessHalted s (enterHalt s)

/-- "with a DELIVER taken as soon as it is enabled" (R75). -/
def deliverIfEnabled (s : State) : State := if deliverEnabled s then deposit s else s

/-- `RX b0 b1 ... bk` (R75) as far as it goes: the state it reaches and the bytes not taken, which are those from the
first byte that is held on. -/
def rxBytes : List Byte → State → Host.Outcome (State × List Byte) Fault Refusal
  | [], s => .next (deliverIfEnabled s, [])
  | b :: bs, s =>
    let s1 := deliverIfEnabled s
    if byteEnabled s1 then
      match rxRule b s1 with
      | .next s2 => rxBytes bs s2
      | .fault r => .fault r
      | .refused r => .refused r
    else .next (s1, b :: bs)

end Sys2Proof.Machine
end

