-- ==== Sys2Proof/Machine/Frames.lean ====
section
/-! DEFINITION. The six frame rows. A received frame is the pseudo-operation `RX` (30_encoding.md R75) on its bytes
(log 5); a transmitted frame is the `ISSUE` that queues it (41_encoder.md R90, R91; 43_mux.md R131; log 6). -/

namespace Sys2Proof.Machine

/-- `RX` on a frame's bytes. Refused while halted, held when not even the first byte can be taken; bytes after the first
held one stay in the transport, at the front of the RX stream (20_memory.md R41). -/
def receive (bs : List Byte) (s : State) : Out :=
  unlessHalted s
    (match rxBytes bs s with
     | .next (t, rest) =>
       if rest.length = bs.length then hold s
       else finish (t.setRx (rest.map RxItem.byte ++ t.io.rx)) .silent
     | .fault r => .fault r
     | .refused r => .refused r)

/-- The request whose frame has the format `v2`: not enabled when the selection rule (R92) gives the other format (log 6).
The spec gives such a row no meaning; that as a call it leaves the consumer suspended is a DESIGN CHOICE, log 34. -/
def transmit (v2 : Bool) (cmd : U16) (p : List Byte) (s : State) : Out :=
  unlessHalted s (if selectsV2 s.mux.usesV2 cmd.toNat = v2 then issue cmd p s else hold s)

def execFrameV1Tx (cmd : Byte) (p : List Byte) (s : State) : Out := transmit false (zext16 cmd) p s

def execFrameV2Tx (cmd : U16) (p : List Byte) (s : State) : Out := transmit true cmd p s

def execFrameV1RxResponse (cmd : Byte) (p : List Byte) (s : State) : Out :=
  receive (v1Frame Config.dirResponse cmd p) s

def execFrameV1RxRequest (cmd : Byte) (p : List Byte) (s : State) : Out :=
  receive (v1Frame Config.dirRequest cmd p) s

def execFrameV2RxResponse (flags : Byte) (cmd : U16) (p : List Byte) (s : State) : Out :=
  receive (v2Frame Config.dirResponse flags cmd p) s

def execFrameV2RxRequest (flags : Byte) (cmd : U16) (p : List Byte) (s : State) : Out :=
  receive (v2Frame Config.dirRequest flags cmd p) s

end Sys2Proof.Machine
end

