-- ==== Sys2Proof/Machine/Dispatch.lean ====
section
/-! DEFINITION. One arm for each row of spec/opcode_table.json. -/

namespace Sys2Proof.Machine

def exec (i : Instr) (s : State) : Host.Outcome State Fault Refusal :=
  match i with
  | .frameV1Tx cmd p => Sys2Proof.Machine.execFrameV1Tx cmd p s
  | .frameV2Tx cmd p => Sys2Proof.Machine.execFrameV2Tx cmd p s
  | .frameV1RxResponse cmd p => Sys2Proof.Machine.execFrameV1RxResponse cmd p s
  | .frameV1RxRequest cmd p => Sys2Proof.Machine.execFrameV1RxRequest cmd p s
  | .frameV2RxResponse flags cmd p => Sys2Proof.Machine.execFrameV2RxResponse flags cmd p s
  | .frameV2RxRequest flags cmd p => Sys2Proof.Machine.execFrameV2RxRequest flags cmd p s
  | .rxStart => Sys2Proof.Machine.execRxStart s
  | .rxIgnore b => Sys2Proof.Machine.execRxIgnore b s
  | .rxTypeV1 => Sys2Proof.Machine.execRxTypeV1 s
  | .rxTypeV2 => Sys2Proof.Machine.execRxTypeV2 s
  | .rxTypeAbort b => Sys2Proof.Machine.execRxTypeAbort b s
  | .rxDirV1Response => Sys2Proof.Machine.execRxDirV1Response s
  | .rxDirV1Request => Sys2Proof.Machine.execRxDirV1Request s
  | .rxDirV1Abort b => Sys2Proof.Machine.execRxDirV1Abort b s
  | .rxV1Len l => Sys2Proof.Machine.execRxV1Len l s
  | .rxV1Cmd c => Sys2Proof.Machine.execRxV1Cmd c s
  | .rxDirV2Response => Sys2Proof.Machine.execRxDirV2Response s
  | .rxDirV2Request => Sys2Proof.Machine.execRxDirV2Request s
  | .rxDirV2Abort b => Sys2Proof.Machine.execRxDirV2Abort b s
  | .rxV2Flags f => Sys2Proof.Machine.execRxV2Flags f s
  | .rxV2CmdLo c => Sys2Proof.Machine.execRxV2CmdLo c s
  | .rxV2CmdHi c => Sys2Proof.Machine.execRxV2CmdHi c s
  | .rxV2LenLo l => Sys2Proof.Machine.execRxV2LenLo l s
  | .rxV2LenHi l => Sys2Proof.Machine.execRxV2LenHi l s
  | .rxPayload d => Sys2Proof.Machine.execRxPayload d s
  | .rxChecksumGood k => Sys2Proof.Machine.execRxChecksumGood k s
  | .rxChecksumBad k => Sys2Proof.Machine.execRxChecksumBad k s
  | .apiVersion => Sys2Proof.Machine.execApiVersion s
  | .fcVariant => Sys2Proof.Machine.execFcVariant s
  | .fcVersion => Sys2Proof.Machine.execFcVersion s
  | .boardInfo => Sys2Proof.Machine.execBoardInfo s
  | .buildInfo => Sys2Proof.Machine.execBuildInfo s
  | .name => Sys2Proof.Machine.execName s
  | .status => Sys2Proof.Machine.execStatus s
  | .rc => Sys2Proof.Machine.execRc s
  | .statusEx => Sys2Proof.Machine.execStatusEx s
  | .setRawRc => Sys2Proof.Machine.execSetRawRc s
  | .inavStatus2 => Sys2Proof.Machine.execInavStatus2 s
  | .reset => Sys2Proof.Machine.execReset s
  | .rxByte b => Sys2Proof.Machine.execRxByte b s
  | .deliver => Sys2Proof.Machine.execDeliver s
  | .rxFail => Sys2Proof.Machine.execRxFail s
  | .issue cmd p => Sys2Proof.Machine.execIssue cmd p s
  | .take => Sys2Proof.Machine.execTake s
  | .cfgSetV2 v => Sys2Proof.Machine.execCfgSetV2 v s
  | .txDrain n => Sys2Proof.Machine.execTxDrain n s
  | .encodeV1 cmd p => Sys2Proof.Machine.execEncodeV1 cmd p s
  | .encodeV2 cmd p => Sys2Proof.Machine.execEncodeV2 cmd p s
  | .encode usesV2 cmd p => Sys2Proof.Machine.execEncode usesV2 cmd p s

end Sys2Proof.Machine
end

