-- ==== Sys2Proof/Machine/HostProgram.lean ====
section
/-! DEFINITION. The documented host program (44_host_sequences.md R150 to R163): the handshake and the override/poll loop,
as a consumer that performs one event of the block at a time. Which event it performs at each point, and what it does
with the event's result. -/

namespace Sys2Proof.Machine

/-- The event the host performs at a point of its program; `none` where it only goes on (the override step with an empty
map, R157; the sleep, R163; after its end). -/
def hostEvent (h : HostRegs) : HostPhase → Option Instr
  | .apiAsk => some .apiVersion
  | .apiTake => some .take
  | .apiCfg v => some (.cfgSetV2 v)
  | .variantAsk => some .fcVariant
  | .variantTake => some .take
  | .versionAsk => some .fcVersion
  | .versionTake => some .take
  | .buildAsk => some .buildInfo
  | .buildTake => some .take
  | .boardAsk => some .boardInfo
  | .boardTake => some .take
  | .nameAsk => some .name
  | .nameTake => some .take
  | .loopTop => if h.overrides.isEmpty then none else some .setRawRc
  | .overrideTake => some .take
  | .rcAsk => some .rc
  | .rcTake => some .take
  | .statusAsk => some (statusInstr (selectStatus h.apiVersionRaw h.firmwareVersion))
  | .statusTake _ => some .take
  | .sleep => none
  | .ended => none

/-- Where the host stands after a point at which it performed no event. -/
def hostQuiet : HostPhase → HostPhase
  | .loopTop => .rcAsk
  | .sleep => .loopTop
  | .ended => .ended
  | .apiAsk => .apiAsk
  | .apiTake => .apiTake
  | .apiCfg v => .apiCfg v
  | .variantAsk => .variantAsk
  | .variantTake => .variantTake
  | .versionAsk => .versionAsk
  | .versionTake => .versionTake
  | .buildAsk => .buildAsk
  | .buildTake => .buildTake
  | .boardAsk => .boardAsk
  | .boardTake => .boardTake
  | .nameAsk => .nameAsk
  | .nameTake => .nameTake
  | .overrideTake => .overrideTake
  | .rcAsk => .rcAsk
  | .rcTake => .rcTake
  | .statusAsk => .statusAsk
  | .statusTake v => .statusTake v

/-- After `OK`: a request waits for its response, the configuration goes on to step 2. -/
def hostAfterOk (h : HostRegs) : HostPhase → HostPhase
  | .apiAsk => .apiTake
  | .apiCfg _ => .variantAsk
  | .variantAsk => .variantTake
  | .versionAsk => .versionTake
  | .buildAsk => .buildTake
  | .boardAsk => .boardTake
  | .nameAsk => .nameTake
  | .loopTop => .overrideTake
  | .rcAsk => .rcTake
  | .statusAsk => .statusTake (selectStatus h.apiVersionRaw h.firmwareVersion)
  | .apiTake => .apiTake
  | .variantTake => .variantTake
  | .versionTake => .versionTake
  | .buildTake => .buildTake
  | .boardTake => .boardTake
  | .nameTake => .nameTake
  | .overrideTake => .overrideTake
  | .rcTake => .rcTake
  | .statusTake v => .statusTake v
  | .sleep => .sleep
  | .ended => .ended

/-- After a `TAKE` that returned a frame: what is recorded or reported, and the next point. In the handshake no field is
extracted from an unsolicited frame and the sequence goes on (R156; log 21); the loop compares no ids (R157 to R162), so
it reports from an unsolicited frame too (beside 60_exceptions.md R174; log 21).
From the responses to `FC_VARIANT` (R153), `BUILD_INFO`, `BOARD_INFO` and `NAME` (R155) nothing is extracted or reported:
the spec names no field (N27; DESIGN CHOICE, log 33). -/
def hostAfterTake (f : Frame) (sol : Bool) (h : HostRegs) : HostPhase → HostRegs × HostPhase
  | .apiTake =>
    if sol then
      ({ h with apiVersionRaw := apiVersionOf Config.hostOffsets f.payload },
        .apiCfg (apiSaysV2 Config.hostOffsets f.payload))
    else (h, .variantAsk)
  | .variantTake => (h, .versionAsk)
  | .versionTake =>
    if sol then ({ h with firmwareVersion := firmwareVersionOf Config.hostOffsets f.payload }, .buildAsk)
    else (h, .buildAsk)
  | .buildTake => (h, .boardAsk)
  | .boardTake => (h, .nameAsk)
  | .nameTake => (h, .loopTop)
  | .overrideTake => ({ h with reports := h.reports ++ [.sent (txSlots h.overrides)] }, .rcAsk)
  | .rcTake => ({ h with reports := h.reports ++ [.channels (rcDecode f.payload)] }, .statusAsk)
  | .statusTake v =>
    let snap := snapshotOf (Config.statusLayout v) v f.payload
    ({ h with reports := h.reports ++ [.status snap (Config.flagsNonTrivial snap.armDisableFlags)] }, .sleep)
  | .apiAsk => (h, .apiAsk)
  | .apiCfg v => (h, .apiCfg v)
  | .variantAsk => (h, .variantAsk)
  | .versionAsk => (h, .versionAsk)
  | .buildAsk => (h, .buildAsk)
  | .boardAsk => (h, .boardAsk)
  | .nameAsk => (h, .nameAsk)
  | .loopTop => (h, .loopTop)
  | .rcAsk => (h, .rcAsk)
  | .statusAsk => (h, .statusAsk)
  | .sleep => (h, .sleep)
  | .ended => (h, .ended)

/-- The host after its event, by the event's result. A held `TAKE` is waited for (R151); after `REFUSED_HALTED` the
process has ended (60_exceptions.md R180); another refusal, which the documented host never meets (R164), leaves it where
it is (log 24). -/
def hostAfter (ph : HostPhase) (t : State) : State :=
  match t.result with
  | .held => t.setWaiting true
  | .refused .refusedHalted => (t.setConsumer (.host .ended)).setWaiting false
  | .refused _ => t.setWaiting false
  | .taken f sol =>
    let r := hostAfterTake f sol t.host ph
    ((t.setHost r.1).setConsumer (.host r.2)).setWaiting false
  | .ok => (t.setConsumer (.host (hostAfterOk t.host ph))).setWaiting false
  | .silent | .bytes _ | .lost _ => t.setWaiting false

end Sys2Proof.Machine
end

