-- ==== Sys2Proof/Machine/Fetch.lean ====
section
/-! DEFINITION. Fetching: what a turn of the schedule runs. The block has no instruction fetch (20_memory.md R53); what
stands in its place is the next item of the RX stream, decoded by the receive opcode map in the current parser state
(R30: `P.state` "selects which transition rule the next RX_BYTE executes"), the consumer's next call, an event offered
from outside, or a coded row of the opcode table. -/

namespace Sys2Proof.Machine

/-- The event did not take place: it was held, or refused. -/
def notPerformed : Result → Bool
  | .held => true
  | .refused _ => true
  | .silent | .ok | .taken _ _ | .bytes _ | .lost _ => false

/-- The instruction a received byte is: its class in the current state, or, where no byte is taken, `RX_BYTE` itself,
which is then held or refused (R100). -/
def rxInstr (s : State) (b : Byte) : Instr :=
  match decode s.p.acc (.rxByte s.p.state b) with
  | .ok i => i
  | .error _ => .rxByte b

/-- An item the reader did not take is still in the transport (95_test_vectors.md G-2: "The held RX 24 byte is still in
the transport and is the next byte consumed"; log 16). -/
def keepRx (rx : List RxItem) : Out → Out
  | .next t => if notPerformed t.result then .next (t.setRx rx) else .next t
  | .fault r => .fault r
  | .refused r => .refused r

/-- The reader's turn. An empty list is a read that does not return: no event (20_memory.md R43). The bytes that come
with a failure are not consumed (R43, D10; log 29). -/
def runRx (s : State) : Out :=
  match s.io.rx with
  | [] => .next s
  | .byte b :: rest => keepRx s.io.rx (exec (rxInstr s b) (s.setRx rest))
  | .fail _ :: rest => keepRx s.io.rx (exec .rxFail (s.setRx rest))

/-- A held call stays the consumer's next call, and the consumer is suspended in it: a `TAKE` with the slot empty (R132).
The only other calls that can be held are the transmitted frame rows in the format not selected; that the consumer is
suspended in one too, until the selection changes, is a DESIGN CHOICE, log 34 (R52 suspends it only in the receive). -/
def keepCall (consumer : Consumer) : Out → Out
  | .next t =>
    if t.result = .held then .next ((t.setConsumer consumer).setWaiting true) else .next (t.setWaiting false)
  | .fault r => .fault r
  | .refused r => .refused r

/-- The documented host goes on by the result of its event. -/
def hostGoesOn (ph : HostPhase) : Out → Out
  | .next t => .next (hostAfter ph t)
  | .fault r => .fault r
  | .refused r => .refused r

/-- The consumer's turn. -/
def runConsumer (s : State) : Out :=
  match s.io.consumer with
  | .calls [] => .next s
  | .calls (i :: rest) =>
    if i.consumerMay then keepCall s.io.consumer (exec i (s.setConsumer (.calls rest)))
    else .refused .wrongAgent
  | .host ph =>
    match hostEvent s.host ph with
    | none => .next (s.setConsumer (.host (hostQuiet ph)))
    | some i => hostGoesOn ph (exec i s)

/-- The event the consumer is suspended in, if it is (R132). -/
def heldCall (s : State) : Option Instr :=
  if s.io.waiting then
    match s.io.consumer with
    | .calls [] => none
    | .calls (i :: _) => some i
    | .host ph => hostEvent s.host ph
  else none

/-- A single event that is offered. There is one consumer (R55), so an event of the consumer is its next call when it has
no other left, and is then kept as a call if it is held (00_scope.md R6: "the agent that would perform it is held"); and
it is the call the consumer is suspended in when it is offered again. Any other event of the consumer is run beside
`io.consumer`, also while `io.waiting` holds the consumer in a call: in effect a second consumer, which the spec puts
outside itself (R55, R184). DESIGN CHOICE, log 32. -/
def runOffered (i : Instr) (s : State) : Out :=
  if i.consumerMay then
    if s.io.consumer = .calls [] then runConsumer (s.setConsumer (.calls [i]))
    else if heldCall s = some i then runConsumer s
    else exec i s
  else exec i s

/-- A coded row: decoded and run as an offered event, or refused by name. -/
def runWord (c : Code) (s : State) : Out :=
  match decode s.p.acc c with
  | .ok i => runOffered i s
  | .error _ => .refused .undecodable

/-- One turn. -/
def runTurn (t : Turn) (s : State) : Out :=
  match t with
  | .rx => runRx s
  | .consumer => runConsumer s
  | .offer i => runOffered i s
  | .word c => runWord c s

/-- The selection a transmitted frame needs: `M.uses_v2` chooses the format (R92); other words need none (log 20). -/
def selectFor (c : Code) (m : Mux) : Mux :=
  match decode Config.crcInit c with
  | .ok (.frameV1Tx _ _) => { m with usesV2 := false }
  | .ok (.frameV2Tx _ _) => { m with usesV2 := true }
  | _ => m

/-- A table word placed so that the very next step runs it (log 20): a received byte at the front of the RX stream with
`P.state` at the state in which the table has it, and the reader's turn; a frame or a command id as a coded row. -/
def placeWord (s : State) (nbits w : Nat) : State :=
  match tableCode nbits w with
  | none => s
  | some (.rxByte st b) =>
    ((s.setP (s.p.goto st)).setRx (.byte b :: s.io.rx)).setSchedule (.rx :: s.io.schedule)
  | some (.frame bs) => (s.setMux (selectFor (.frame bs) s.mux)).setSchedule (.word (.frame bs) :: s.io.schedule)
  | some (.commandId id) => s.setSchedule (.word (.commandId id) :: s.io.schedule)

end Sys2Proof.Machine
end

