-- ==== Sys2Proof/Machine/Step.lean ====
section
/-! DEFINITION. One step: the next turn of the schedule (20_memory.md R51: one total order of events). With nothing
scheduled no event occurs and nothing changes (70_reset_and_hazards.md R206). -/

namespace Sys2Proof.Machine

/-- One step. -/
def step (s : State) : Host.Outcome State Fault Refusal :=
  match s.io.schedule with
  | [] => .next s
  | t :: rest => runTurn t (s.setSchedule rest)

/-- `s` with a word of the opcode table placed where the next step runs it (log 20). -/
def State.withFetchWord (s : State) (nbits w : Nat) : State := placeWord s nbits w

end Sys2Proof.Machine
end

