-- ==== Sys2Proof/Laws/Operands.lean ====
section
/-! SUPPORT. Taking 16-bit fields apart and putting them together, and the steps of the two checksums. -/

namespace Sys2Proof.Machine

@[simp] theorem joinLE_lo_hi (v : U16) : joinLE (lo8 v) (hi8 v) = v := by
  apply BitVec.eq_of_getLsbD_eq
  intro i hi
  simp only [joinLE, orHigh, zext16, lo8, hi8, BitVec.getLsbD_or, BitVec.getLsbD_setWidth, BitVec.getLsbD_shiftLeft,
    BitVec.getLsbD_ushiftRight]
  by_cases h : i < 8
  · simp [h, hi]
  · have h1 : i - 8 < 8 := by omega
    have h2 : 8 + (i - 8) = i := by omega
    have h3 : i - 8 < 16 := by omega
    simp [h, hi, h1, h2, h3]

@[simp] theorem lo8_joinLE (a b : Byte) : lo8 (joinLE a b) = a := by
  apply BitVec.eq_of_getLsbD_eq
  intro i hi
  simp only [joinLE, orHigh, zext16, lo8, BitVec.getLsbD_or, BitVec.getLsbD_setWidth, BitVec.getLsbD_shiftLeft]
  have : i < 16 := by omega
  simp [hi, this]

@[simp] theorem hi8_joinLE (a b : Byte) : hi8 (joinLE a b) = b := by
  apply BitVec.eq_of_getLsbD_eq
  intro i hi
  simp only [joinLE, orHigh, zext16, hi8, BitVec.getLsbD_or, BitVec.getLsbD_setWidth, BitVec.getLsbD_shiftLeft,
    BitVec.getLsbD_ushiftRight]
  have h1 : 8 + i < 16 := by omega
  have h2 : i < 16 := by omega
  simp [hi, h1, h2]

@[simp] theorem lo8_zext16 (b : Byte) : lo8 (zext16 b) = b := by
  apply BitVec.eq_of_getLsbD_eq
  intro i hi
  simp [lo8, zext16, hi]

@[simp] theorem hi8_zext16 (b : Byte) : hi8 (zext16 b) = 0 := by
  apply BitVec.eq_of_getLsbD_eq
  intro i hi
  simp only [hi8, zext16, BitVec.getLsbD_setWidth, BitVec.getLsbD_ushiftRight]
  simp

/-- The high byte ORed into a field whose high byte is zero (R109, R111). -/
theorem orHigh_eq_joinLE {v : U16} (b : Byte) (h : hi8 v = 0) : orHigh v b = joinLE (lo8 v) b := by
  have hv : v = joinLE (lo8 v) 0 := by rw [← h, joinLE_lo_hi]
  have : orHigh v 0 = v := by simp [orHigh, zext16]
  unfold joinLE
  congr 1
  conv_lhs => rw [hv]
  simp [joinLE, orHigh, zext16]

@[simp] theorem toNat_zext16 (b : Byte) : (zext16 b).toNat = b.toNat := by
  have := b.isLt
  simp [zext16, BitVec.toNat_setWidth]
  omega

theorem toNat_len8 {p : List Byte} (h : p.length ≤ Config.v1LenMax) : (len8 p).toNat = p.length := by
  simp only [Config.v1LenMax] at h
  simp [len8, BitVec.toNat_ofNat]
  omega

theorem toNat_len16 {p : List Byte} (h : p.length ≤ Config.v2LenMax) : (len16 p).toNat = p.length := by
  simp only [Config.v2LenMax] at h
  simp [len16, BitVec.toNat_ofNat]
  omega

theorem zext16_len8 {p : List Byte} (h : p.length ≤ Config.v1LenMax) : zext16 (len8 p) = len16 p := by
  apply BitVec.eq_of_toNat_eq
  rw [toNat_zext16, toNat_len8 h, toNat_len16 (by simp only [Config.v1LenMax, Config.v2LenMax] at *; omega)]

/-! The checksums. -/

/-- `crc8_step(acc, b)` depends only on `acc ^ b` (R82). -/
theorem crc8Step_eq (acc b : Byte) : crc8Step acc b = crcRounds 8 (acc ^^^ b) := rfl

theorem crcRound_eq (c : Byte) :
    crcRound c = (c <<< 1) ^^^ (if c.getLsbD 7 then Config.crcPoly else 0) := by
  unfold crcRound
  split <;> simp

/-- One round is linear over XOR (R86 (b)). -/
theorem crcRound_xor (a b : Byte) : crcRound (a ^^^ b) = crcRound a ^^^ crcRound b := by
  simp only [crcRound_eq, BitVec.getLsbD_xor, BitVec.shiftLeft_xor_distrib]
  cases a.getLsbD 7 <;> cases b.getLsbD 7 <;> simp [BitVec.xor_assoc]
  exact BitVec.xor_comm _ _

theorem crc8_append (a b : List Byte) : crc8 (a ++ b) = b.foldl crc8Step (crc8 a) := by
  simp [crc8, List.foldl_append]

theorem crc8_snoc (a : List Byte) (b : Byte) : crc8 (a ++ [b]) = crc8Step (crc8 a) b := by
  simp [crc8_append]

theorem xor8Frame_snoc (l c : Byte) (p : List Byte) (b : Byte) :
    xor8Frame l c (p ++ [b]) = xor8Step (xor8Frame l c p) b := by
  simp [xor8Frame, List.foldl_append]

end Sys2Proof.Machine
end

