-- ==== Sys2Proof/Laws/Decode.lean ====
section
/-! SUPPORT. What the frame decoder reads from a frame written from the tables R61 and R62. -/

namespace Sys2Proof

open Sys2Proof.Machine

theorem splitBody_append (p : List Byte) (k : Byte) (rest : List Byte) :
    splitBody p.length (p ++ k :: rest) = some (p, k, rest) := by
  simp [splitBody]

/-- Reading back a V1 frame whose payload fits its length byte. -/
theorem decodeFrame_v1Frame {p : List Byte} (hp : p.length ≤ Config.v1LenMax) (dir c : Byte) :
    decodeFrame (v1Frame dir c p) = (v1Row dir c p).map (fun i => (i, [])) := by
  have h : v1Frame dir c p =
      Config.startByte :: Config.typeV1Byte :: dir :: len8 p :: c :: (p ++ [xor8Frame (len8 p) c p]) := by
    simp [v1Frame]
  simp only [h, decodeFrame, decodeV1, ne_eq, not_true_eq_false, ↓reduceIte, toNat_len8 hp, splitBody_append]

/-- Reading back a V2 frame whose payload fits its length field. -/
theorem decodeFrame_v2Frame {p : List Byte} (hp : p.length ≤ Config.v2LenMax) (dir f : Byte) (c : U16) :
    decodeFrame (v2Frame dir f c p) = (v2Row dir f c p).map (fun i => (i, [])) := by
  have h : v2Frame dir f c p =
      Config.startByte :: Config.typeV2Byte :: dir :: f :: lo8 c :: hi8 c :: lo8 (len16 p) :: hi8 (len16 p) ::
        (p ++ [crc8 ([f, lo8 c, hi8 c, lo8 (len16 p), hi8 (len16 p)] ++ p)]) := by
    simp [v2Frame, v2Covered]
  have hne : ¬ Config.typeV2Byte = Config.typeV1Byte := by decide
  simp only [h, decodeFrame, decodeV2, ne_eq, not_true_eq_false, ↓reduceIte, hne, joinLE_lo_hi, toNat_len16 hp,
    splitBody_append]

/-- A frame decodes to its row. -/
theorem decode_frame_of_row {bs : List Byte} {i : Instr} {r : Except DecodeError Instr} (acc : Byte)
    (h : decodeFrame bs = r.map (fun i => (i, []))) (hr : r = .ok i) : decode acc (.frame bs) = .ok i := by
  subst hr
  simp [decode, h, Except.map]

end Sys2Proof
end

