-- ==== Sys2Proof/Laws/PerInstr.lean ====
section
/-! SUPPORT. Statements about every instruction as syntax, one lemma a constructor. -/

namespace Sys2Proof.Laws.RoundTrip

open Sys2Proof.Machine

/-- Decoding the coded form of a well-formed instruction gives it back, with every operand. -/
def Statement (i : Instr) : Prop :=
  i.wellFormed = true → ∀ acc : Byte, i.fitsAcc acc = true → ∀ c : Code, encode i = some c → decode acc c = .ok i

theorem frameV1Tx (c : Byte) (p : List Byte) : Statement (.frameV1Tx c p) := by
  intro hw acc _ c hc
  cases hc
  exact decode_frame_of_row acc (decodeFrame_v1Frame (by simpa [Instr.wellFormed] using hw) _ _) rfl

theorem frameV1RxResponse (c : Byte) (p : List Byte) : Statement (.frameV1RxResponse c p) := by
  intro hw acc _ c hc
  cases hc
  exact decode_frame_of_row acc (decodeFrame_v1Frame (by simpa [Instr.wellFormed] using hw) _ _) rfl

theorem frameV1RxRequest (c : Byte) (p : List Byte) : Statement (.frameV1RxRequest c p) := by
  intro hw acc _ c hc
  cases hc
  exact decode_frame_of_row acc (decodeFrame_v1Frame (by simpa [Instr.wellFormed] using hw) _ _) rfl

theorem frameV2Tx (c : U16) (p : List Byte) : Statement (.frameV2Tx c p) := by
  intro hw acc _ c hc
  cases hc
  exact decode_frame_of_row acc (decodeFrame_v2Frame (by simpa [Instr.wellFormed] using hw) _ _ _) rfl

theorem frameV2RxResponse (f : Byte) (c : U16) (p : List Byte) : Statement (.frameV2RxResponse f c p) := by
  intro hw acc _ c hc
  cases hc
  exact decode_frame_of_row acc (decodeFrame_v2Frame (by simpa [Instr.wellFormed] using hw) _ _ _) rfl

theorem frameV2RxRequest (f : Byte) (c : U16) (p : List Byte) : Statement (.frameV2RxRequest f c p) := by
  intro hw acc _ c hc
  cases hc
  exact decode_frame_of_row acc (decodeFrame_v2Frame (by simpa [Instr.wellFormed] using hw) _ _ _) rfl

theorem rxStart : Statement .rxStart := by
  intro _ acc _ c hc
  cases hc
  rfl

theorem rxTypeV1 : Statement .rxTypeV1 := by
  intro _ acc _ c hc
  cases hc
  rfl

theorem rxTypeV2 : Statement .rxTypeV2 := by
  intro _ acc _ c hc
  cases hc
  rfl

theorem rxDirV1Response : Statement .rxDirV1Response := by
  intro _ acc _ c hc
  cases hc
  rfl

theorem rxDirV1Request : Statement .rxDirV1Request := by
  intro _ acc _ c hc
  cases hc
  rfl

theorem rxDirV2Response : Statement .rxDirV2Response := by
  intro _ acc _ c hc
  cases hc
  rfl

theorem rxDirV2Request : Statement .rxDirV2Request := by
  intro _ acc _ c hc
  cases hc
  rfl

theorem apiVersion : Statement .apiVersion := by
  intro _ acc _ c hc
  cases hc
  rfl

theorem fcVariant : Statement .fcVariant := by
  intro _ acc _ c hc
  cases hc
  rfl

theorem fcVersion : Statement .fcVersion := by
  intro _ acc _ c hc
  cases hc
  rfl

theorem boardInfo : Statement .boardInfo := by
  intro _ acc _ c hc
  cases hc
  rfl

theorem buildInfo : Statement .buildInfo := by
  intro _ acc _ c hc
  cases hc
  rfl

theorem name : Statement .name := by
  intro _ acc _ c hc
  cases hc
  rfl

theorem status : Statement .status := by
  intro _ acc _ c hc
  cases hc
  rfl

theorem rc : Statement .rc := by
  intro _ acc _ c hc
  cases hc
  rfl

theorem statusEx : Statement .statusEx := by
  intro _ acc _ c hc
  cases hc
  rfl

theorem setRawRc : Statement .setRawRc := by
  intro _ acc _ c hc
  cases hc
  rfl

theorem inavStatus2 : Statement .inavStatus2 := by
  intro _ acc _ c hc
  cases hc
  rfl

theorem rxV1Len (b : Byte) : Statement (.rxV1Len b) := by
  intro _ acc _ c hc
  cases hc
  rfl

theorem rxV1Cmd (b : Byte) : Statement (.rxV1Cmd b) := by
  intro _ acc _ c hc
  cases hc
  rfl

theorem rxV2Flags (b : Byte) : Statement (.rxV2Flags b) := by
  intro _ acc _ c hc
  cases hc
  rfl

theorem rxV2CmdLo (b : Byte) : Statement (.rxV2CmdLo b) := by
  intro _ acc _ c hc
  cases hc
  rfl

theorem rxV2CmdHi (b : Byte) : Statement (.rxV2CmdHi b) := by
  intro _ acc _ c hc
  cases hc
  rfl

theorem rxV2LenLo (b : Byte) : Statement (.rxV2LenLo b) := by
  intro _ acc _ c hc
  cases hc
  rfl

theorem rxV2LenHi (b : Byte) : Statement (.rxV2LenHi b) := by
  intro _ acc _ c hc
  cases hc
  rfl

theorem rxPayload (b : Byte) : Statement (.rxPayload b) := by
  intro _ acc _ c hc
  cases hc
  rfl

theorem rxIgnore (b : Byte) : Statement (.rxIgnore b) := by
  intro hw acc _ c hc
  cases hc
  simp [Instr.wellFormed] at hw
  simp [decode, decodeRx, hw]

theorem rxTypeAbort (b : Byte) : Statement (.rxTypeAbort b) := by
  intro hw acc _ c hc
  cases hc
  simp [Instr.wellFormed] at hw
  simp [decode, decodeRx, hw]

theorem rxDirV1Abort (b : Byte) : Statement (.rxDirV1Abort b) := by
  intro hw acc _ c hc
  cases hc
  simp [Instr.wellFormed] at hw
  simp [decode, decodeRx, hw]

theorem rxDirV2Abort (b : Byte) : Statement (.rxDirV2Abort b) := by
  intro hw acc _ c hc
  cases hc
  simp [Instr.wellFormed] at hw
  simp [decode, decodeRx, hw]

theorem rxChecksumGood (k : Byte) : Statement (.rxChecksumGood k) := by
  intro _ acc ha c hc
  cases hc
  simp [Instr.fitsAcc] at ha
  simp [decode, decodeRx, ha]

theorem rxChecksumBad (k : Byte) : Statement (.rxChecksumBad k) := by
  intro _ acc ha c hc
  cases hc
  simp [Instr.fitsAcc] at ha
  simp [decode, decodeRx, ha]

theorem reset : Statement .reset := by
  intro _ _ _ c hc
  cases hc

theorem rxByte (b : Byte) : Statement (.rxByte b) := by
  intro _ _ _ c hc
  cases hc

theorem deliver : Statement .deliver := by
  intro _ _ _ c hc
  cases hc

theorem rxFail : Statement .rxFail := by
  intro _ _ _ c hc
  cases hc

theorem issue (c : U16) (p : List Byte) : Statement (.issue c p) := by
  intro _ _ _ c hc
  cases hc

theorem take : Statement .take := by
  intro _ _ _ c hc
  cases hc

theorem cfgSetV2 (v : Bool) : Statement (.cfgSetV2 v) := by
  intro _ _ _ c hc
  cases hc

theorem txDrain (n : Nat) : Statement (.txDrain n) := by
  intro _ _ _ c hc
  cases hc

theorem encodeV1 (c : Nat) (p : List Byte) : Statement (.encodeV1 c p) := by
  intro _ _ _ c hc
  cases hc

theorem encodeV2 (c : Nat) (p : List Byte) : Statement (.encodeV2 c p) := by
  intro _ _ _ c hc
  cases hc

theorem encode (v : Bool) (c : Nat) (p : List Byte) : Statement (.encode v c p) := by
  intro _ _ _ c hc
  cases hc

end Sys2Proof.Laws.RoundTrip
end

