-- ==== Sys2Proof/Machine/Parse.lean ====
section
/-! DEFINITION. The parser as a function (42_parser.md R119): the frames handed to a consumer that performs `TAKE`
whenever the slot is full, when a byte sequence is fed by `RX_BYTE`; and the byte-by-byte reading of the
pseudo-operation `RX` (30_encoding.md R75) in terms of the reader's own events. -/

namespace Sys2Proof.Machine

/-- The state after an event, or the old one where the event stops. -/
def after (s : State) : Out → State
  | .next t => t
  | .fault _ => s
  | .refused _ => s

/-- `DELIVER`, taken if it is enabled (R75). -/
def settle (s : State) : State := if deliverEnabled s then after s (exec .deliver s) else s

/-- `RX_BYTE(b)` after a `DELIVER` if one is enabled (R75). -/
def takeByte (s : State) (b : Byte) : State := after (settle s) (exec (.rxByte b) (settle s))

/-- The frame a `TAKE` handed out, if its result is one. -/
def takenFrames : Result → List Frame
  | .taken f _ => [f]
  | .silent | .ok | .bytes _ | .refused _ | .held | .lost _ => []

/-- `RX_BYTE(b)`, `DELIVER` if it is enabled, `TAKE` if the slot is full. -/
def pump (b : Byte) (s : State) : State × List Frame :=
  let s2 := settle (after s (exec (.rxByte b) s))
  if s2.slot.full then
    let s3 := after s2 (exec .take s2)
    (s3, takenFrames s3.result)
  else (s2, [])

/-- The same for a byte sequence: the state reached and the frames handed out, in order. -/
def parseFrom : List Byte → State → State × List Frame
  | [], s => (s, [])
  | b :: bs, s =>
    let r := pump b s
    let q := parseFrom bs r.1
    (q.1, r.2 ++ q.2)

/-- `parse(s)`, R119: from the reset state. -/
def parse (bs : List Byte) : List Frame := (parseFrom bs State.reset).2

end Sys2Proof.Machine
end

