-- ==== Sys2Proof/Safety.lean ====
section
/-! DEFINITION. What the claims call a good state: the invariants of the rules, and a quiescent run
(70_reset_and_hazards.md R206). -/

namespace Sys2Proof.Machine

/-- A frame is being collected or has been collected: the three states in which `P.count` bytes of the current frame
stand in the buffer. -/
def inPayload (st : PState) : Bool :=
  st == .collectPayload || st == .waitChecksum || st == .holdDeliver

/-- The invariants of the block's registers. -/
structure BlockInv (s : State) : Prop where
  /-- the payload buffer keeps its canonical form -/
  bufWf : s.p.buf.wf = true
  /-- "While it is set every event except RESET is refused with REFUSED_HALTED and P.state = HALTED" (R25) -/
  haltedIff : s.halted = true ↔ s.p.state = .halted
  /-- "payload.length == length" (R20) -/
  slotLength : s.slot.full = true → s.slot.frame.payload.length = s.slot.frame.length.toNat
  /-- in `COLLECT_PAYLOAD` the payload is not complete (R16, R112; log 25) -/
  countBelow : s.p.state = .collectPayload → s.p.count.toNat < s.p.len.toNat
  /-- after it, it is (R112) -/
  countDone : s.p.state = .waitChecksum ∨ s.p.state = .holdDeliver → s.p.count = s.p.len
  /-- the bytes `DELIVER` will copy have been written by the current frame (R18) -/
  bytesWritten : inPayload s.p.state = true → s.p.buf.written s.p.count.toNat = true
  /-- only the three recorded conditions stand in `OBS` (R26, R170) -/
  obsRecorded : ∀ c ∈ s.obs, c.recorded = true

/-- The header bytes a V2 checksum has covered when the whole header is in (R62, R67). -/
def v2Header (flags : Byte) (p : Parser) : List Byte := [flags, lo8 p.cmd, hi8 p.cmd, lo8 p.len, hi8 p.len]

/-- `P.acc` is the checksum of the covered bytes received so far, in every state in which it is read (R17, R81, R83), and
`P.variant` is the branch the frame took (R12). `flags` is the flags byte of the V2 frame under reception, which the
block does not keep (R70). -/
def AccTracksWith (flags : Byte) (p : Parser) : Prop :=
  match p.state with
  | .waitDirection | .waitLen => p.variant = .v1
  | .waitCmd => p.variant = .v1 ∧ p.len = zext16 p.acc
  | .waitXDirection | .waitFlags => p.variant = .v2
  | .waitCmdLo => p.variant = .v2 ∧ p.acc = crc8 [flags]
  | .waitCmdHi => p.variant = .v2 ∧ hi8 p.cmd = 0 ∧ p.acc = crc8 [flags, lo8 p.cmd]
  | .waitLenLo => p.variant = .v2 ∧ p.acc = crc8 [flags, lo8 p.cmd, hi8 p.cmd]
  | .waitLenHi =>
    p.variant = .v2 ∧ hi8 p.len = 0 ∧ p.acc = crc8 [flags, lo8 p.cmd, hi8 p.cmd, lo8 p.len]
  | .collectPayload | .waitChecksum | .holdDeliver =>
    match p.variant with
    | .v1 =>
      hi8 p.len = 0 ∧ hi8 p.cmd = 0 ∧
        p.acc = xor8Frame (lo8 p.len) (lo8 p.cmd) (p.buf.prefixBytes p.count.toNat)
    | .v2 => p.acc = crc8 (v2Header flags p ++ p.buf.prefixBytes p.count.toNat)
  | .waitStart | .waitType | .halted => True

/-- The bytes an event of the reader takes from the wire, if it gets to take them. -/
def receivedBytes (i : Instr) : List Byte :=
  if i.agent == .reader then
    match encode i with
    | some (.frame bs) => bs
    | some (.rxByte _ b) => [b]
    | some (.commandId _) => []
    | none => if let .rxByte b := i then [b] else []
  else []

/-- The bytes the next turn may take. -/
def turnBytes (s : State) : List Byte :=
  match s.io.schedule with
  | .rx :: _ =>
    match s.io.rx with
    | .byte b :: _ => [b]
    | .fail _ :: _ | [] => []
  | .offer i :: _ => receivedBytes i
  | .word c :: _ =>
    match decode s.p.acc c with
    | .ok i => receivedBytes i
    | .error _ => []
  | .consumer :: _ | [] => []

/-- The flags byte of the V2 frame under reception after the bytes `bs`, where it was `flags` before them: the byte taken
in `WAIT_FLAGS` (R107), and no other. -/
def flagsAfter : List Byte → State → Byte → Byte
  | [], _, flags => flags
  | b :: bs, s, flags => flagsAfter bs (takeByte s b) (if s.p.state = .waitFlags then b else flags)

/-- "A run is quiescent when in addition ..." (R206): it has ended (nothing more is scheduled), the block is at rest, and
the consumer is not held in a call, of its list or offered (log 32): "A run that ends with the consumer held in TAKE ... is
not quiescent". Nothing is said of the bytes still in the transport. -/
def Quiescent (s : State) : Prop :=
  s.io.schedule = [] ∧ s.p.state = .waitStart ∧ s.slot.full = false ∧ s.mux.awaiting = false ∧ s.fifo = [] ∧
    s.halted = false ∧ s.io.waiting = false

/-- A run fails when it ends in `HALTED` (R206) or stops. -/
def FailedRun : Out → Prop
  | .next t => t.halted = true
  | .fault _ => True
  | .refused _ => True

end Sys2Proof.Machine
end

