-- ==== Sys2Proof/Certificates/Slice0/Obligations.lean ====
section
/-! DEFINITION. The statements for the provers. Each is about every state and every operand that meets its hypotheses;
where the conclusion is an equation `exec i s = .next ...`, it is the result, the completion and the frame at once:
every field the right side does not name is unchanged. -/

open Sys2Proof Sys2Proof.Machine

/-! ### Reset -/

/-- R190: `RESET` is enabled in every state and puts every element R31 gives a value at that value. (`P.buf` and
`S.frame` are unspecified there and not named here.) -/
def Obligations.ResetSetsEveryElement : Prop :=
  ∀ s : State, ∃ t, exec .reset s = .next t ∧
    t.p.state = .waitStart ∧ t.p.variant = .v1 ∧ t.p.isResponse = false ∧
    t.p.len = 0 ∧ t.p.cmd = 0 ∧ t.p.count = 0 ∧ t.p.acc = 0x00 ∧
    t.slot.full = false ∧
    t.mux.usesV2 = false ∧ t.mux.awaiting = false ∧ t.mux.lastCmd = 0 ∧
    t.fifo = [] ∧ t.halted = false ∧ t.obs = [] ∧ t.result = .silent

/-- R191, R139: a reset leaves the RX stream where it is and releases a held call. That the call is dropped, and that the
documented host begins again and keeps its override map, is the model's choice (log 17). -/
def Obligations.ResetKeepsRxStreamAndReleasesConsumer : Prop :=
  ∀ s t : State, exec .reset s = .next t →
    t.io.rx = s.io.rx ∧ t.io.schedule = s.io.schedule ∧ t.io.waiting = false ∧
    (∀ i rest, s.io.consumer = .calls (i :: rest) → s.io.waiting = true → t.io.consumer = .calls rest) ∧
    (∀ cs, s.io.consumer = .calls cs → s.io.waiting = false → t.io.consumer = .calls cs) ∧
    (∀ ph, s.io.consumer = .host ph → t.io.consumer = .host .apiAsk) ∧
    t.host.overrides = s.host.overrides

/-! ### The receive rows -/

/-- R101: in `WAIT_START` the byte 0x24 advances, any other byte changes nothing at all. -/
def Obligations.WaitStartAdvancesOrIgnores : Prop :=
  ∀ s : State, s.halted = false → s.p.state = .waitStart →
    exec .rxStart s = .next ((s.setP { s.p with state := .waitType }).setResult .silent) ∧
    ∀ b : Byte, b ≠ 0x24 → exec (.rxIgnore b) s = .next (s.setResult .silent)

/-- R102: in `WAIT_TYPE` the bytes 0x4D and 0x58 select the branch, any other byte, 0x24 included, aborts. -/
def Obligations.WaitTypeSelectsBranchOrAborts : Prop :=
  ∀ s : State, s.halted = false → s.p.state = .waitType →
    exec .rxTypeV1 s = .next ((s.setP { s.p with variant := .v1, state := .waitDirection }).setResult .silent) ∧
    exec .rxTypeV2 s = .next ((s.setP { s.p with variant := .v2, state := .waitXDirection }).setResult .silent) ∧
    ∀ b : Byte, b ≠ 0x4D → b ≠ 0x58 →
      exec (.rxTypeAbort b) s = .next ((s.setP { s.p with state := .waitStart }).setResult .silent)

/-- R103: the V1 direction byte. -/
def Obligations.V1DirectionSetsIsResponseOrAborts : Prop :=
  ∀ s : State, s.halted = false → s.p.state = .waitDirection →
    exec .rxDirV1Response s = .next ((s.setP { s.p with isResponse := true, state := .waitLen }).setResult .silent) ∧
    exec .rxDirV1Request s = .next ((s.setP { s.p with isResponse := false, state := .waitLen }).setResult .silent) ∧
    ∀ b : Byte, b ≠ 0x3E → b ≠ 0x21 →
      exec (.rxDirV1Abort b) s = .next ((s.setP { s.p with state := .waitStart }).setResult .silent)

/-- R106: the V2 direction byte, same test, other successor. -/
def Obligations.V2DirectionSetsIsResponseOrAborts : Prop :=
  ∀ s : State, s.halted = false → s.p.state = .waitXDirection →
    exec .rxDirV2Response s = .next ((s.setP { s.p with isResponse := true, state := .waitFlags }).setResult .silent) ∧
    exec .rxDirV2Request s = .next ((s.setP { s.p with isResponse := false, state := .waitFlags }).setResult .silent) ∧
    ∀ b : Byte, b ≠ 0x3E → b ≠ 0x21 →
      exec (.rxDirV2Abort b) s = .next ((s.setP { s.p with state := .waitStart }).setResult .silent)

/-- R104, R105: the V1 length byte seeds the checksum; the command byte enters it, clears the counter, and an empty
payload goes straight to the checksum. -/
def Obligations.V1HeaderBytesSetLenCmdAcc : Prop :=
  ∀ s : State, s.halted = false →
    (s.p.state = .waitLen → ∀ l : Byte,
      exec (.rxV1Len l) s =
        .next ((s.setP { s.p with len := l.setWidth 16, acc := l, state := .waitCmd }).setResult .silent)) ∧
    (s.p.state = .waitCmd → ∀ c : Byte,
      exec (.rxV1Cmd c) s =
        .next ((s.setP { s.p with
          cmd := c.setWidth 16, acc := s.p.acc ^^^ c, count := 0,
          state := if s.p.len = 0 then .waitChecksum else .collectPayload }).setResult .silent))

/-- R107 to R111: the five V2 header bytes. `crc8Step` is R82's step. -/
def Obligations.V2HeaderBytesSetCmdLenAcc : Prop :=
  ∀ s : State, s.halted = false →
    (s.p.state = .waitFlags → ∀ f : Byte,
      exec (.rxV2Flags f) s =
        .next ((s.setP { s.p with acc := crc8Step 0x00 f, state := .waitCmdLo }).setResult .silent)) ∧
    (s.p.state = .waitCmdLo → ∀ c : Byte,
      exec (.rxV2CmdLo c) s =
        .next ((s.setP { s.p with
          cmd := c.setWidth 16, acc := crc8Step s.p.acc c, state := .waitCmdHi }).setResult .silent)) ∧
    (s.p.state = .waitCmdHi → ∀ c : Byte,
      exec (.rxV2CmdHi c) s =
        .next ((s.setP { s.p with
          cmd := s.p.cmd ||| (c.setWidth 16 <<< 8), acc := crc8Step s.p.acc c, state := .waitLenLo }).setResult
            .silent)) ∧
    (s.p.state = .waitLenLo → ∀ l : Byte,
      exec (.rxV2LenLo l) s =
        .next ((s.setP { s.p with
          len := l.setWidth 16, acc := crc8Step s.p.acc l, state := .waitLenHi }).setResult .silent)) ∧
    (s.p.state = .waitLenHi → ∀ l : Byte,
      exec (.rxV2LenHi l) s =
        .next ((s.setP { s.p with
          len := s.p.len ||| (l.setWidth 16 <<< 8), acc := crc8Step s.p.acc l, count := 0,
          state := if s.p.len ||| (l.setWidth 16 <<< 8) = 0 then .waitChecksum else .collectPayload }).setResult
            .silent))

/-- R112: a payload byte is stored at index `P.count`, enters the checksum of the variant, and the last one goes to the
checksum. Every other byte of the buffer reads as before. (Index 65535 does not exist, R40: hypothesis.) -/
def Obligations.PayloadByteStoredAndSummed : Prop :=
  ∀ (s : State) (d : Byte), s.halted = false → s.p.state = .collectPayload → s.p.count.toNat < 65535 →
    ∃ m : Memory,
      exec (.rxPayload d) s =
        .next ((s.setP { s.p with
          buf := m
          acc := if s.p.variant = .v1 then s.p.acc ^^^ d else crc8Step s.p.acc d
          count := s.p.count + 1
          state := if s.p.count + 1 = s.p.len then .waitChecksum else .collectPayload }).setResult .silent) ∧
      m.read s.p.count.toNat = some d ∧
      ∀ i, i ≠ s.p.count.toNat → m.read i = s.p.buf.read i

/-- The stop of log 10 (the model's, resting on R40: the buffer's indices are 0 to 65534). -/
def Obligations.PayloadByteBeyondBufferFaults : Prop :=
  ∀ (s : State) (d : Byte), s.halted = false → s.p.state = .collectPayload → s.p.count = 65535 →
    exec (.rxPayload d) s = .fault .bufferIndex ∧ exec (.rxByte d) s = .fault .bufferIndex

/-- R113: a matching checksum byte validates the frame; a mismatch is recorded with the fields of D15 and the frame is
dropped. -/
def Obligations.ChecksumByteValidatesOrRecords : Prop :=
  ∀ s : State, s.halted = false → s.p.state = .waitChecksum →
    exec (.rxChecksumGood s.p.acc) s = .next ((s.setP { s.p with state := .holdDeliver }).setResult .silent) ∧
    ∀ k : Byte, k ≠ s.p.acc →
      exec (.rxChecksumBad k) s =
        .next (((s.setObs (s.obs ++ [.checksumMismatch s.p.variant s.p.cmd s.p.len s.p.acc k])).setP
          { s.p with state := .waitStart }).setResult .silent)

/-- A receive row in another state than its own, or with a byte outside its class, is not enabled (the model's reading of
R68, log 4): nothing changes. -/
def Obligations.ReceiveRowHeldOutsideItsState : Prop :=
  ∀ (s : State) (i : Instr) (st : PState) (b : Byte), s.halted = false → encode i = some (.rxByte st b) →
    (s.p.state ≠ st ∨ i.wellFormed = false ∨ i.fitsAcc s.p.acc = false) →
    exec i s = .next (s.setResult .held)

/-! ### RX_BYTE, DELIVER, RX_FAIL -/

/-- R100, R68: `RX_BYTE(b)` runs the one class row that the receive opcode map gives for the byte in the current
state. -/
def Obligations.RxByteRunsTheRowOfItsClass : Prop :=
  ∀ (s : State) (b : Byte) (i : Instr), s.halted = false → decode s.p.acc (.rxByte s.p.state b) = .ok i →
    exec (.rxByte b) s = exec i s

/-- R100: in `HOLD_DELIVER` a byte is held; while halted it is refused; in every other state it is accepted, whatever its
value. -/
def Obligations.RxByteHeldRefusedOrAccepted : Prop :=
  ∀ (s : State) (b : Byte),
    (s.halted = true → exec (.rxByte b) s = .next (s.setResult (.refused .refusedHalted))) ∧
    (s.halted = false → s.p.state = .holdDeliver → exec (.rxByte b) s = .next (s.setResult .held)) ∧
    (s.halted = false → s.p.state ≠ .holdDeliver → s.p.state ≠ .halted →
      (s.p.state = .collectPayload → s.p.count.toNat < 65535) →
      ∃ t, exec (.rxByte b) s = .next t ∧ t.result = .silent)

/-- R118: the transition relation on `P.state` and the registers each transition may write besides it, for the rows whose
column "on" is a byte. -/
def Obligations.RxByteFollowsTransitionRelation : Prop :=
  ∀ (s t : State) (b : Byte), s.halted = false → s.p.state ≠ .holdDeliver → s.p.state ≠ .halted →
    exec (.rxByte b) s = .next t →
    (t.p.state =
      match s.p.state with
      | .waitStart => if b = 0x24 then .waitType else .waitStart
      | .waitType => if b = 0x4D then .waitDirection else if b = 0x58 then .waitXDirection else .waitStart
      | .waitDirection => if b = 0x3E ∨ b = 0x21 then .waitLen else .waitStart
      | .waitLen => .waitCmd
      | .waitCmd => if s.p.len = 0 then .waitChecksum else .collectPayload
      | .waitXDirection => if b = 0x3E ∨ b = 0x21 then .waitFlags else .waitStart
      | .waitFlags => .waitCmdLo
      | .waitCmdLo => .waitCmdHi
      | .waitCmdHi => .waitLenLo
      | .waitLenLo => .waitLenHi
      | .waitLenHi => if t.p.len = 0 then .waitChecksum else .collectPayload
      | .collectPayload => if t.p.count = s.p.len then .waitChecksum else .collectPayload
      | .waitChecksum => if b = s.p.acc then .holdDeliver else .waitStart
      | .holdDeliver => .holdDeliver
      | .halted => .halted) ∧
    (t.p.variant ≠ s.p.variant → s.p.state = .waitType) ∧
    (t.p.isResponse ≠ s.p.isResponse → s.p.state = .waitDirection ∨ s.p.state = .waitXDirection) ∧
    (t.p.len ≠ s.p.len → s.p.state = .waitLen ∨ s.p.state = .waitLenLo ∨ s.p.state = .waitLenHi) ∧
    (t.p.cmd ≠ s.p.cmd → s.p.state = .waitCmd ∨ s.p.state = .waitCmdLo ∨ s.p.state = .waitCmdHi) ∧
    (t.p.count ≠ s.p.count → s.p.state = .waitCmd ∨ s.p.state = .waitLenHi ∨ s.p.state = .collectPayload) ∧
    (t.p.acc ≠ s.p.acc →
      s.p.state ≠ .waitStart ∧ s.p.state ≠ .waitType ∧ s.p.state ≠ .waitDirection ∧
        s.p.state ≠ .waitXDirection ∧ s.p.state ≠ .waitChecksum) ∧
    (∀ i, t.p.buf.read i ≠ s.p.buf.read i → s.p.state = .collectPayload ∧ i = s.p.count.toNat) ∧
    (t.obs ≠ s.obs → s.p.state = .waitChecksum ∧ b ≠ s.p.acc) ∧
    t.slot = s.slot ∧ t.mux = s.mux ∧ t.fifo = s.fifo ∧ t.halted = s.halted ∧ t.host = s.host ∧ t.io = s.io

/-- R114: `DELIVER` is enabled exactly in `HOLD_DELIVER` with the slot free and not halted; it deposits the frame, whose
payload is the first `P.len` bytes of the buffer, and returns to `WAIT_START`. -/
def Obligations.DeliverDepositsTheFrame : Prop :=
  ∀ s : State,
    (s.p.state = .holdDeliver → s.slot.full = false → s.halted = false →
      ∃ pl : List Byte,
        exec .deliver s =
          .next (((s.setSlot ⟨true, ⟨s.p.isResponse, s.p.len, s.p.cmd, pl⟩⟩).setP
            { s.p with state := .waitStart }).setResult .silent) ∧
        pl.length = s.p.len.toNat ∧
        ∀ i b, i < s.p.len.toNat → s.p.buf.read i = some b → pl[i]? = some b) ∧
    (¬ (s.p.state = .holdDeliver ∧ s.slot.full = false ∧ s.halted = false) →
      exec .deliver s = .next (s.setResult .held))

/-- R179: `RX_FAIL` halts the block from any state that is not halted, `HOLD_DELIVER` included; one record, a non-zero
exit status reported, nothing else changes; while halted it is refused. -/
def Obligations.RxFailHaltsTheBlock : Prop :=
  ∀ s : State,
    (s.halted = false → ∃ n : Nat, n ≠ 0 ∧
      exec .rxFail s =
        .next ((((s.setObs (s.obs ++ [.transportLost])).setHalted true).setP
          { s.p with state := .halted }).setResult (.lost n))) ∧
    (s.halted = true → exec .rxFail s = .next (s.setResult (.refused .refusedHalted)))

/-- R180: while `F.halted` is true the six events are refused with `REFUSED_HALTED` and `DELIVER` is not enabled. -/
def Obligations.HaltedRefusesEveryEvent : Prop :=
  ∀ s : State, s.halted = true →
    (∀ b, exec (.rxByte b) s = .next (s.setResult (.refused .refusedHalted))) ∧
    exec .rxFail s = .next (s.setResult (.refused .refusedHalted)) ∧
    (∀ c p, exec (.issue c p) s = .next (s.setResult (.refused .refusedHalted))) ∧
    exec .take s = .next (s.setResult (.refused .refusedHalted)) ∧
    (∀ v, exec (.cfgSetV2 v) s = .next (s.setResult (.refused .refusedHalted))) ∧
    (∀ n, exec (.txDrain n) s = .next (s.setResult (.refused .refusedHalted))) ∧
    exec .deliver s = .next (s.setResult .held)

/-- The coded rows are `RX_BYTE` and `ISSUE` events (log 4 to log 7), so they are refused while halted too. -/
def Obligations.HaltedRefusesEveryCodedRow : Prop :=
  ∀ (s : State) (i : Instr) (c : Code), s.halted = true → encode i = some c →
    exec i s = .next (s.setResult (.refused .refusedHalted))

/-! ### ISSUE, TAKE, CFG_SET_V2, TX_DRAIN -/

/-- R131: an accepted `ISSUE` queues the whole frame, remembers the command id and sets the outstanding flag. The three
refusals are tried in the order halted, busy, range, and change nothing. -/
def Obligations.IssueQueuesOneFrameOrRefuses : Prop :=
  ∀ (s : State) (cmd : U16) (p : List Byte),
    (s.halted = false → s.mux.awaiting = false → ∀ bs, enc s.mux.usesV2 cmd.toNat p = some bs →
      exec (.issue cmd p) s =
        .next (((s.setFifo (s.fifo ++ bs)).setMux
          { s.mux with lastCmd := cmd, awaiting := true }).setResult .ok)) ∧
    (s.halted = true → exec (.issue cmd p) s = .next (s.setResult (.refused .refusedHalted))) ∧
    (s.halted = false → s.mux.awaiting = true →
      exec (.issue cmd p) s = .next (s.setResult (.refused .refusedBusy))) ∧
    (s.halted = false → s.mux.awaiting = false → enc s.mux.usesV2 cmd.toNat p = none →
      exec (.issue cmd p) s = .next (s.setResult (.refused .refusedRange)))

/-- R132, R133: `TAKE` with a frame in the slot returns it with `solicited`, records an unsolicited frame, and clears the
slot and the outstanding flag; with an empty slot it is held. -/
def Obligations.TakeHandsOutOneFrame : Prop :=
  ∀ s : State,
    (s.halted = false → s.slot.full = true → s.mux.awaiting = true → s.slot.frame.cmd = s.mux.lastCmd →
      exec .take s =
        .next (((s.setSlot { s.slot with full := false }).setMux { s.mux with awaiting := false }).setResult
          (.taken s.slot.frame true))) ∧
    (s.halted = false → s.slot.full = true → ¬ (s.mux.awaiting = true ∧ s.slot.frame.cmd = s.mux.lastCmd) →
      exec .take s =
        .next ((((s.setObs (s.obs ++ [.unsolicited s.mux.lastCmd s.slot.frame.cmd s.mux.awaiting])).setSlot
          { s.slot with full := false }).setMux { s.mux with awaiting := false }).setResult
          (.taken s.slot.frame false))) ∧
    (s.halted = false → s.slot.full = false → exec .take s = .next (s.setResult .held)) ∧
    (s.halted = true → exec .take s = .next (s.setResult (.refused .refusedHalted)))

/-- R134: the control bit is written and nothing else: no queued frame, no parser register. -/
def Obligations.CfgSetV2WritesTheControlBit : Prop :=
  ∀ (s : State) (v : Bool),
    (s.halted = false → exec (.cfgSetV2 v) s = .next ((s.setMux { s.mux with usesV2 := v }).setResult .ok)) ∧
    (s.halted = true → exec (.cfgSetV2 v) s = .next (s.setResult (.refused .refusedHalted)))

/-- R135: the oldest `n` bytes leave in order. That an `n` outside 1 to the length is not enabled is R135 for the empty
queue and the model's reading for the rest (log 15). -/
def Obligations.TxDrainTakesOldestBytes : Prop :=
  ∀ (s : State) (n : Nat), s.halted = false →
    (1 ≤ n → n ≤ s.fifo.length → ∃ out rest : List Byte,
      out ++ rest = s.fifo ∧ out.length = n ∧
      exec (.txDrain n) s = .next ((s.setFifo rest).setResult (.bytes out))) ∧
    (¬ (1 ≤ n ∧ n ≤ s.fifo.length) → exec (.txDrain n) s = .next (s.setResult .held))

/-! ### The encoder -/

/-- R90: the V1 frame, byte by byte, and the refusal; no state is written. -/
def Obligations.EncodeV1ReturnsFrameOrRefuses : Prop :=
  ∀ (s : State) (cmd : Nat) (p : List Byte),
    (cmd ≤ 255 → p.length ≤ 255 →
      exec (.encodeV1 cmd p) s =
        .next (s.setResult (.bytes
          ([0x24, 0x4D, 0x3C, BitVec.ofNat 8 p.length, BitVec.ofNat 8 cmd] ++ p ++
            [p.foldl (fun a b => a ^^^ b) (BitVec.ofNat 8 p.length ^^^ BitVec.ofNat 8 cmd)])))) ∧
    (255 < cmd ∨ 255 < p.length → exec (.encodeV1 cmd p) s = .next (s.setResult (.refused .refusedRange)))

/-- R91: the V2 frame, byte by byte, and the refusal; no state is written. -/
def Obligations.EncodeV2ReturnsFrameOrRefuses : Prop :=
  ∀ (s : State) (cmd : Nat) (p : List Byte),
    (cmd ≤ 65535 → p.length ≤ 65535 → ∃ body : List Byte,
      body = [0x00, BitVec.ofNat 8 cmd, BitVec.ofNat 8 (cmd / 256),
        BitVec.ofNat 8 p.length, BitVec.ofNat 8 (p.length / 256)] ++ p ∧
      exec (.encodeV2 cmd p) s =
        .next (s.setResult (.bytes ([0x24, 0x58, 0x3C] ++ body ++ [body.foldl crc8Step 0x00])))) ∧
    (65535 < cmd ∨ 65535 < p.length → exec (.encodeV2 cmd p) s = .next (s.setResult (.refused .refusedRange)))

/-- R92: the selection rule: V2 when `uses_v2` or the id is above 255, else V1, whatever the payload length; and `ENCODE`
completes with the bytes of the selected format whenever that format can carry the operands. -/
def Obligations.EncodeSelectsTheFormat : Prop :=
  ∀ (s : State) (u : Bool) (cmd : Nat) (p : List Byte),
    (u = true ∨ 255 < cmd → exec (.encode u cmd p) s = exec (.encodeV2 cmd p) s) ∧
    (u = false → cmd ≤ 255 → exec (.encode u cmd p) s = exec (.encodeV1 cmd p) s) ∧
    (cmd ≤ 65535 → p.length ≤ 65535 → (u = true ∨ 255 < cmd ∨ p.length ≤ 255) →
      ∃ bs, exec (.encode u cmd p) s = .next (s.setResult (.bytes bs)) ∧
        bs.length = p.length + (if u = true ∨ 255 < cmd then 9 else 6))

/-! ### The command-id rows -/

/-- R71, R75: the ten query rows: each is the request with its id and an empty payload (so it is refused as `ISSUE` is,
R131: `REFUSED_BUSY` while a request is outstanding), and queues it as V2 when `M.uses_v2` is set or the id is above 255,
else as V1. -/
def Obligations.QueryRowsQueueTheirRequest : Prop :=
  ∀ (s : State) (i : Instr) (id : U16),
    (i, id) ∈ [(Instr.apiVersion, 1), (.fcVariant, 2), (.fcVersion, 3), (.boardInfo, 4), (.buildInfo, 5),
      (.name, 10), (.status, 101), (.rc, 105), (.statusEx, 150), (.inavStatus2, (0x2000 : U16))] →
    exec i s = exec (.issue id []) s ∧
    (s.halted = false → s.mux.awaiting = true → exec i s = .next (s.setResult (.refused .refusedBusy))) ∧
    (s.halted = false → s.mux.awaiting = false →
      ∃ bs, (if s.mux.usesV2 = true ∨ 255 < id.toNat then encV2 id.toNat [] else encV1 id.toNat []) = some bs ∧
        exec i s =
          .next (((s.setFifo (s.fifo ++ bs)).setMux { s.mux with lastCmd := id, awaiting := true }).setResult .ok))

/-- R157, R158: `SET_RAW_RC` is the request with id 200 and the 36-byte transmit buffer of the override map (refused as
`ISSUE` is); with `M.uses_v2` false its V1 frame has 42 bytes and the length byte 0x24. That the row queues a frame with
an empty map too is the model's choice (log 7): R157 lets the host skip the step then, and says nothing of the row. -/
def Obligations.SetRawRcQueuesTheTransmitBuffer : Prop :=
  ∀ s : State,
    exec .setRawRc s = exec (.issue 200 (txBuffer s.host.overrides)) s ∧
    (s.halted = false → s.mux.awaiting = true →
      exec .setRawRc s = .next (s.setResult (.refused .refusedBusy))) ∧
    (s.halted = false → s.mux.awaiting = false →
      ∃ bs, enc s.mux.usesV2 200 (txBuffer s.host.overrides) = some bs ∧
        exec .setRawRc s =
          .next (((s.setFifo (s.fifo ++ bs)).setMux { s.mux with lastCmd := 200, awaiting := true }).setResult .ok) ∧
        (s.mux.usesV2 = false → bs.length = 42 ∧ bs[3]? = some 0x24))

/-! ### The frame rows -/

/-- The transmitted frame rows (R90, R91, R131; the model's reading, log 6): where the selection rule gives the row's
format the row is the request with its id and payload (so it is refused as `ISSUE` is), and queues exactly its frame; else
it is not enabled. -/
def Obligations.TransmittedFrameRowsQueueTheirFrame : Prop :=
  ∀ s : State,
    (∀ (c : Byte) (p : List Byte), s.mux.usesV2 = false →
      exec (.frameV1Tx c p) s = exec (.issue (c.setWidth 16) p) s ∧
      (s.halted = false → s.mux.awaiting = true →
        exec (.frameV1Tx c p) s = .next (s.setResult (.refused .refusedBusy))) ∧
      (s.halted = false → s.mux.awaiting = false → p.length ≤ 255 →
        exec (.frameV1Tx c p) s =
          .next (((s.setFifo (s.fifo ++ v1Frame 0x3C c p)).setMux
            { s.mux with lastCmd := c.setWidth 16, awaiting := true }).setResult .ok))) ∧
    (∀ (c : U16) (p : List Byte), s.mux.usesV2 = true ∨ 255 < c.toNat →
      exec (.frameV2Tx c p) s = exec (.issue c p) s ∧
      (s.halted = false → s.mux.awaiting = true →
        exec (.frameV2Tx c p) s = .next (s.setResult (.refused .refusedBusy))) ∧
      (s.halted = false → s.mux.awaiting = false → p.length ≤ 65535 →
        exec (.frameV2Tx c p) s =
          .next (((s.setFifo (s.fifo ++ v2Frame 0x3C 0x00 c p)).setMux
            { s.mux with lastCmd := c, awaiting := true }).setResult .ok))) ∧
    (∀ (c : Byte) (p : List Byte), s.halted = false → s.mux.usesV2 = true →
      exec (.frameV1Tx c p) s = .next (s.setResult .held)) ∧
    (∀ (c : U16) (p : List Byte), s.halted = false → s.mux.usesV2 = false → c.toNat ≤ 255 →
      exec (.frameV2Tx c p) s = .next (s.setResult .held))

/-- R61, R101 to R105, R112 to R114 (log 5): a V1 frame received from `WAIT_START` is validated whatever its command id
and payload, `P.acc` being its checksum; it is deposited when the slot is free and waits in `HOLD_DELIVER` when it is not.
Nothing is recorded, and the multiplexer, the queue and the rest of the state are as before. -/
def Obligations.ReceivedV1FrameRowsValidate : Prop :=
  ∀ (s : State) (c : Byte) (p : List Byte), s.halted = false → s.p.state = .waitStart → p.length ≤ 255 →
    ∀ (i : Instr) (resp : Bool),
      (i, resp) ∈ [(Instr.frameV1RxResponse c p, true), (Instr.frameV1RxRequest c p, false)] →
      ∃ t, exec i s = .next t ∧
        t.p.variant = .v1 ∧ t.p.isResponse = resp ∧ t.p.len.toNat = p.length ∧ t.p.cmd = c.setWidth 16 ∧
        t.p.count = t.p.len ∧ t.p.acc = p.foldl (fun a b => a ^^^ b) (BitVec.ofNat 8 p.length ^^^ c) ∧
        (∀ k, t.p.buf.read k = if k < p.length then p[k]? else s.p.buf.read k) ∧
        (s.slot.full = false → t.p.state = .waitStart ∧
          t.slot = ⟨true, ⟨resp, BitVec.ofNat 16 p.length, c.setWidth 16, p⟩⟩) ∧
        (s.slot.full = true → t.p.state = .holdDeliver ∧ t.slot = s.slot) ∧
        t.mux = s.mux ∧ t.fifo = s.fifo ∧ t.halted = false ∧ t.obs = s.obs ∧ t.host = s.host ∧ t.io = s.io

/-- R62, R101, R102, R106 to R114 (log 5): the same for a V2 frame, with any flags byte (R70). -/
def Obligations.ReceivedV2FrameRowsValidate : Prop :=
  ∀ (s : State) (f : Byte) (c : U16) (p : List Byte), s.halted = false → s.p.state = .waitStart →
    p.length ≤ 65535 →
    ∀ (i : Instr) (resp : Bool),
      (i, resp) ∈ [(Instr.frameV2RxResponse f c p, true), (Instr.frameV2RxRequest f c p, false)] →
      ∃ t, exec i s = .next t ∧
        t.p.variant = .v2 ∧ t.p.isResponse = resp ∧ t.p.len.toNat = p.length ∧ t.p.cmd = c ∧ t.p.count = t.p.len ∧
        t.p.acc = ([f, c.setWidth 8, (c >>> 8).setWidth 8, BitVec.ofNat 8 p.length, BitVec.ofNat 8 (p.length / 256)] ++
          p).foldl crc8Step 0x00 ∧
        (∀ k, t.p.buf.read k = if k < p.length then p[k]? else s.p.buf.read k) ∧
        (s.slot.full = false → t.p.state = .waitStart ∧
          t.slot = ⟨true, ⟨resp, BitVec.ofNat 16 p.length, c, p⟩⟩) ∧
        (s.slot.full = true → t.p.state = .holdDeliver ∧ t.slot = s.slot) ∧
        t.mux = s.mux ∧ t.fifo = s.fifo ∧ t.halted = false ∧ t.obs = s.obs ∧ t.host = s.host ∧ t.io = s.io

/-! ### The parser as a function -/

/-- R120 (a): round trip V1, with the direction byte at offset 2 replaced (`90_conflicts.md` C2). -/
def Obligations.RoundTripV1ThroughTheParser : Prop :=
  ∀ (c : Nat) (p : List Byte), c ≤ 255 → p.length ≤ 255 →
    ∃ f, encV1 c p = some f ∧
      parse (f.set 2 0x3E) =
        [{ isResponse := true, length := BitVec.ofNat 16 p.length, cmd := BitVec.ofNat 16 c, payload := p }] ∧
      parse (f.set 2 0x21) =
        [{ isResponse := false, length := BitVec.ofNat 16 p.length, cmd := BitVec.ofNat 16 c, payload := p }]

/-- R120 (b): round trip V2. -/
def Obligations.RoundTripV2ThroughTheParser : Prop :=
  ∀ (c : Nat) (p : List Byte), c ≤ 65535 → p.length ≤ 65535 →
    ∃ f, encV2 c p = some f ∧
      parse (f.set 2 0x3E) =
        [{ isResponse := true, length := BitVec.ofNat 16 p.length, cmd := BitVec.ofNat 16 c, payload := p }] ∧
      parse (f.set 2 0x21) =
        [{ isResponse := false, length := BitVec.ofNat 16 p.length, cmd := BitVec.ofNat 16 c, payload := p }]

/-- R119: `parse(a ++ b)` is `parse(a)` followed by what the parser, continuing from the state `a` left it in, delivers for
`b`; and when `a` leaves it in `WAIT_START`, that continuation equals `parse(b)`. -/
def Obligations.ParseContinuesFromWaitStart : Prop :=
  ∀ a b : List Byte,
    parse (a ++ b) = parse a ++ (parseFrom b (parseFrom a State.reset).1).2 ∧
    ((parseFrom a State.reset).1.p.state = .waitStart → parse (a ++ b) = parse a ++ parse b)

/-- R120 (d), first part, V1: one byte changed at offset 4 or above (command, payload or checksum) of a valid V1 frame:
the frame is dropped with exactly one mismatch record, and whatever follows is parsed as if the frame had not been
there. -/
def Obligations.CorruptedV1FrameIsDroppedAndResynced : Prop :=
  ∀ (d c : Byte) (p g : List Byte) (k : Nat) (b : Byte), d = 0x3E ∨ d = 0x21 → p.length ≤ 255 →
    4 ≤ k → k < (v1Frame d c p).length → (v1Frame d c p)[k]? ≠ some b →
    (∃ cmd len computed received,
      (parseFrom ((v1Frame d c p).set k b) State.reset).1.obs =
        [.checksumMismatch .v1 cmd len computed received]) ∧
    parse ((v1Frame d c p).set k b ++ g) = parse g

/-- R120 (d), first part, V2: offset 3, 4, 5 (flags, command), or 8 and above (payload or checksum). -/
def Obligations.CorruptedV2FrameIsDroppedAndResynced : Prop :=
  ∀ (d f : Byte) (c : U16) (p g : List Byte) (k : Nat) (b : Byte), d = 0x3E ∨ d = 0x21 → p.length ≤ 65535 →
    (k = 3 ∨ k = 4 ∨ k = 5 ∨ 8 ≤ k) → k < (v2Frame d f c p).length → (v2Frame d f c p)[k]? ≠ some b →
    (∃ cmd len computed received,
      (parseFrom ((v2Frame d f c p).set k b) State.reset).1.obs =
        [.checksumMismatch .v2 cmd len computed received]) ∧
    parse ((v2Frame d f c p).set k b ++ g) = parse g

/-- R120 (d), second part: a start byte changed to any other value, a type byte to neither 0x4D nor 0x58, or a direction
byte to neither 0x21 nor 0x3E: when no 0x24 follows in the frame, the frame is skipped, nothing is recorded, and whatever
follows is parsed as if the frame had not been there. -/
def Obligations.CorruptedPrefixByteSkipsTheFrame : Prop :=
  ∀ (f g : List Byte) (k : Nat) (b : Byte),
    (∃ (d c : Byte) (p : List Byte), (d = 0x3E ∨ d = 0x21) ∧ f = v1Frame d c p) ∨
      (∃ (d fl : Byte) (c : U16) (p : List Byte), (d = 0x3E ∨ d = 0x21) ∧ f = v2Frame d fl c p) →
    (k = 0 ∧ b ≠ 0x24) ∨ (k = 1 ∧ b ≠ 0x4D ∧ b ≠ 0x58) ∨ (k = 2 ∧ b ≠ 0x3E ∧ b ≠ 0x21) →
    (0x24 : Byte) ∉ f.drop 3 →
    (parseFrom (f.set k b) State.reset).1.obs = [] ∧ parse (f.set k b ++ g) = parse g

/-- R200, R115: the block's own frames are aborted at the direction byte; when the rest of the frame holds no 0x24 nothing
is delivered, nothing is recorded and the parser is back in `WAIT_START`. -/
def Obligations.OwnFramesDeliverNothing : Prop :=
  ∀ (u : Bool) (c : Nat) (p bs : List Byte), enc u c p = some bs → (0x24 : Byte) ∉ bs.drop 3 →
    parse bs = [] ∧ (parseFrom bs State.reset).1.obs = [] ∧ (parseFrom bs State.reset).1.p.state = .waitStart

/-! ### Encoding -/

/-- Every coded row: decoding its coded form gives it back, with every operand at every value the row admits. -/
def Obligations.DecodeOfEncodeIsTheInstruction : Prop :=
  ∀ i : Instr, Laws.RoundTrip.Statement i

/-- The other direction: what the decoder reads from a byte in a parser state, from a frame or from a command id is a
well-formed instruction whose coded form is the one read. And no two well-formed rows that fit one accumulator value share
a coded form (`RX_CHECKSUM_GOOD` and `RX_CHECKSUM_BAD` with the same byte are told apart by `P.acc` only). -/
def Obligations.EncodeOfDecodeIsTheCodedForm : Prop :=
  ∀ (acc : Byte) (c : Code),
    (∀ i : Instr, decode acc c = .ok i → encode i = some c ∧ i.wellFormed = true ∧ i.fitsAcc acc = true) ∧
    (∀ i j : Instr, i.wellFormed = true → j.wellFormed = true → i.fitsAcc acc = true → j.fitsAcc acc = true →
      encode i = some c → encode j = some c → i = j)

/-- A few words of the opcode table, and of the frames and byte classes, written out from the tables of R61, R62, R68 and
R71. What instruction a table word stands for, which fixes less than a frame, is the model's choice (log 19): a header word
is padded with zeros to a whole frame with id 0 and no payload, an 8-bit word is given one parser state. -/
def Obligations.TableWordsDecodeToTheirRows : Prop :=
  decodeTableWord 24 0x244D3C = some (.frameV1Tx 0 []) ∧
  decodeTableWord 32 0x24583C00 = some (.frameV2Tx 0 []) ∧
  decodeTableWord 24 0x244D3E = some (.frameV1RxResponse 0 []) ∧
  decodeTableWord 24 0x245821 = some (.frameV2RxRequest 0 0 []) ∧
  decodeTableWord 8 0x24 = some .rxStart ∧
  decodeTableWord 8 0x58 = some .rxTypeV2 ∧
  decodeTableWord 16 0x0069 = some .rc ∧
  decodeTableWord 16 0x2000 = some .inavStatus2 ∧
  decode 0 (.frame [0x24, 0x4D, 0x3C, 0x03, 0xC8, 0x01, 0x02, 0x03, 0xCB]) = .ok (.frameV1Tx 0xC8 [1, 2, 3]) ∧
  decode 0 (.frame [0x24, 0x58, 0x3E, 0x5A, 0x03, 0x00, 0x03, 0x00, 0x01, 0x09, 0x00, 0x0B]) =
    .ok (.frameV2RxResponse 0x5A 3 [1, 9, 0]) ∧
  decode 0 (.rxByte .waitXDirection 0x3E) = .ok .rxDirV2Response

/-! ### Checksums -/

/-- R82: `crc8_step` is the eight rounds of the rule's loop on `acc ^ b`, so `crc8_step(acc, b) = crc8_step(0, acc ^ b)`;
its worked examples. -/
def Obligations.CrcStepDependsOnTheXorOnly : Prop :=
  (∀ acc b : Byte, crc8Step acc b = crc8Step 0x00 (acc ^^^ b)) ∧
  (∀ x : Byte, crcRound x = if x.getLsbD 7 = true then (x <<< 1) ^^^ 0xD5 else x <<< 1) ∧
  (∀ acc b : Byte, crc8Step acc b =
    crcRound (crcRound (crcRound (crcRound (crcRound (crcRound (crcRound (crcRound (acc ^^^ b))))))))) ∧
  crc8Step 0x00 0x00 = 0x00 ∧ crc8Step 0x00 0x01 = 0xD5 ∧ crc8Step 0x00 0x80 = 0xEF ∧ crc8Step 0x00 0xFF = 0xF9

/-- R86 (b): `crc8` is linear over XOR on equal-length sequences. -/
def Obligations.CrcIsLinearOverXor : Prop :=
  ∀ s t : List Byte, s.length = t.length →
    crc8 (List.zipWith (fun a b => a ^^^ b) s t) = crc8 s ^^^ crc8 t

/-- R86 (a), (b): changing exactly one covered byte changes either checksum: any byte the V2 checksum covers; a payload
byte, the command byte or the length byte for V1 (R67). -/
def Obligations.OneChangedByteChangesTheChecksum : Prop :=
  ∀ (pre post : List Byte) (a b : Byte), a ≠ b →
    crc8 (pre ++ a :: post) ≠ crc8 (pre ++ b :: post) ∧
    (∀ l c : Byte, xor8Frame l c (pre ++ a :: post) ≠ xor8Frame l c (pre ++ b :: post)) ∧
    (∀ l : Byte, xor8Frame l a post ≠ xor8Frame l b post) ∧
    (∀ c : Byte, xor8Frame a c post ≠ xor8Frame b c post)

/-! ### Invariants over every step -/

/-- From every state that meets the invariants, a step gives a state that meets them (R16, R18, R20, R25, R26, and the
canonical form of the buffer). -/
def Obligations.StepKeepsTheInvariants : Prop :=
  ∀ s t : State, BlockInv s → step s = .next t → BlockInv t

/-- R17, R12, R81, R83: `P.acc` is the checksum of the covered bytes received so far, in every state in which it is read,
and every event and every step keeps it so. The V2 flags byte is not kept by the block (R70); it is the parameter `f`, the
same before and after, but for a byte taken in `WAIT_FLAGS` (R107), which is the flags byte from then on: what
`flagsAfter` says. -/
def Obligations.StepKeepsAccTracking : Prop :=
  ∀ (f : Byte) (s t : State), BlockInv s → AccTracksWith f s.p →
    (∀ i : Instr, exec i s = .next t → AccTracksWith (flagsAfter (receivedBytes i) s f) t.p) ∧
    (step s = .next t → AccTracksWith (flagsAfter (turnBytes s) s f) t.p) ∧
    (s.p.state ≠ .waitFlags → ∀ b, exec (.rxByte b) s = .next t → AccTracksWith f t.p) ∧
    (s.p.state = .waitFlags → ∀ b, exec (.rxByte b) s = .next t →
      AccTracksWith b t.p ∧ t.p.acc = crc8 [b])

/-- The state after reset meets both, whatever the flags byte, and is quiescent (R206). -/
def Obligations.ResetMeetsTheInvariants : Prop :=
  BlockInv State.reset ∧ (∀ f, AccTracksWith f State.reset.p) ∧ Quiescent State.reset

/-- From a state that meets the invariants every event of the table completes, whatever its operands, and no step
faults: the buffer is never indexed beyond its end (R45: "no received length can overflow it"). -/
def Obligations.EveryEventCompletesUnderTheInvariants : Prop :=
  ∀ s : State, BlockInv s → (∀ i : Instr, ∃ t, exec i s = .next t) ∧ ∀ r : Fault, step s ≠ .fault r

/-- R18 (log 9): under the invariants no free value reaches the slot: every byte `DELIVER` copies stands at an index of the
buffer that has been written, and is the value written there last. -/
def Obligations.DeliveredBytesAreAllWritten : Prop :=
  ∀ s : State, BlockInv s → s.p.state = .holdDeliver → s.slot.full = false →
    ∃ t, exec .deliver s = .next t ∧
      ∀ i, i < s.p.len.toNat → t.slot.frame.payload[i]? = s.p.buf.read i ∧ (s.p.buf.read i).isSome = true

/-- R16 says that its bound `P.count <= P.len` holds in every state; by R104 it does not in `WAIT_CMD` after a longer
frame (log 25): a state that meets the invariants, and so may be reached, and one byte that leads to `P.len < P.count`. -/
def Obligations.CountBoundFailsInWaitCmd : Prop :=
  ∃ s t : State, (∃ bs, (parseFrom bs State.reset).1 = s) ∧ exec (.rxByte 0x01) s = .next t ∧
    t.p.state = .waitCmd ∧ t.p.len < t.p.count

/-! ### Frames of the two agents -/

/-- R116, R186: no event of the consumer or the transport writes a parser register (every byte of the buffer reads as
before), the halt flag, or the host's data; only `TAKE` touches the slot, and only by clearing `S.full`. -/
def Obligations.ConsumerAndTransportLeaveTheParserAlone : Prop :=
  ∀ (i : Instr) (s t : State), i.agent = .consumer ∨ i.agent = .transport ∨ i.agent = .pure →
    exec i s = .next t →
    t.p = s.p ∧ (∀ k, t.p.buf.read k = s.p.buf.read k) ∧ t.halted = s.halted ∧ t.host = s.host ∧ t.io = s.io ∧
    t.slot.frame = s.slot.frame ∧ (t.slot.full ≠ s.slot.full → i = .take ∧ t.slot.full = false) ∧
    (t.obs ≠ s.obs → i = .take) ∧
    (i.agent = .pure → t.mux = s.mux ∧ t.fifo = s.fifo) ∧
    (i.agent = .transport → t.mux = s.mux)

/-- R186: no event of the reader writes `M`, `T.fifo` or the host's data; only `RX_FAIL` sets the halt flag (R179). The RX
stream: that it changes only by a received frame row of which a suffix was not taken, which then stands in front of the old
stream, is the model's reading of such a row as the `RX` of R75 on the stream of R41 (log 5). -/
def Obligations.ReaderLeavesTheMultiplexerAlone : Prop :=
  ∀ (i : Instr) (s t : State), i.agent = .reader → exec i s = .next t →
    t.mux = s.mux ∧ t.fifo = s.fifo ∧ t.host = s.host ∧ (t.halted ≠ s.halted → i = .rxFail) ∧
    t.io.schedule = s.io.schedule ∧ t.io.consumer = s.io.consumer ∧ t.io.waiting = s.io.waiting ∧
    (t.io.rx ≠ s.io.rx → ∃ bs rest, encode i = some (.frame bs) ∧ rest <:+ bs ∧ rest ≠ bs ∧
      t.io.rx = rest.map RxItem.byte ++ s.io.rx)

/-- R45, R40: a reader's event on one byte writes the buffer only in `COLLECT_PAYLOAD`, at index `P.count`; every other
byte of the buffer reads as before. -/
def Obligations.OnlyPayloadBytesWriteTheBuffer : Prop :=
  ∀ (i : Instr) (s t : State), i.agent = .reader → (∀ bs, encode i ≠ some (.frame bs)) → exec i s = .next t →
    ∀ k, ¬ (s.p.state = .collectPayload ∧ k = s.p.count.toNat) → t.p.buf.read k = s.p.buf.read k

/-! ### One step -/

/-- A step runs the decoded instruction: a byte at the front of the RX stream on the reader's turn is decoded by the
receive opcode map in the current state, is consumed, and its row is run; a read that fails there is `RX_FAIL` alone, the
bytes that came with it not consumed (R43, log 29); with an empty RX stream no event occurs, the reader stays suspended
(R43). An offered event and a coded row, decoded, are run. What the step adds around `exec` for an event of the consumer
is the model's reading (log 32): it is the consumer's next call when that has none left, kept if it is held (R6), and the
call the consumer is suspended in when it is offered again. -/
def Obligations.StepRunsTheDecodedInstruction : Prop :=
  ∀ (s : State) (sched : List Turn),
    (∀ b rest i, s.io.schedule = .rx :: sched → s.io.rx = .byte b :: rest → s.halted = false →
      decode s.p.acc (.rxByte s.p.state b) = .ok i →
      step s = exec i ((s.setSchedule sched).setRx rest)) ∧
    (∀ bytes rest, s.io.schedule = .rx :: sched → s.io.rx = .fail bytes :: rest → s.halted = false →
      step s = exec .rxFail ((s.setSchedule sched).setRx rest)) ∧
    (s.io.schedule = .rx :: sched → s.io.rx = [] → step s = .next (s.setSchedule sched)) ∧
    (∀ turn i, turn = .offer i ∨ (∃ c, turn = .word c ∧ decode s.p.acc c = .ok i) → s.io.schedule = turn :: sched →
      (i.consumerMay = false → step s = exec i (s.setSchedule sched)) ∧
      (s.io.consumer ≠ .calls [] →
        ¬ (s.io.waiting = true ∧ ((∃ rest, s.io.consumer = .calls (i :: rest)) ∨
          ∃ ph, s.io.consumer = .host ph ∧ hostEvent s.host ph = some i)) →
        step s = exec i (s.setSchedule sched)) ∧
      (i.consumerMay = true → s.io.consumer = .calls [] → ∀ t, exec i (s.setSchedule sched) = .next t →
        (t.result ≠ .held → step s = .next (t.setWaiting false) ∧ t.io.consumer = .calls []) ∧
        (t.result = .held → step s = .next ((t.setConsumer (.calls [i])).setWaiting true))) ∧
      (i.consumerMay = true → s.io.waiting = true →
        (∃ rest, s.io.consumer = .calls (i :: rest)) ∨
          (∃ ph, s.io.consumer = .host ph ∧ hostEvent s.host ph = some i) →
        step s = step (s.setSchedule (.consumer :: sched)))) ∧
    (s.io.schedule = [] → step s = .next s)

/-- The consumer's turn. A list of calls: the next call is run and is gone from the list unless it is held; a held call
stays, and the consumer is suspended in it (R132; that a transmitted frame row in the format not selected suspends it too
is the model's choice, log 34); with none left no event occurs. The documented host: at a point of its program with no event it goes
on; else the event of that point is run, and the host goes on by its result: it waits in a held `TAKE` (R151), ends when
the block has halted (R180), stays where it is after another refusal, which it never meets (R164; log 24). -/
def Obligations.StepRunsTheConsumersNextCall : Prop :=
  ∀ (s : State) (sched : List Turn), s.io.schedule = .consumer :: sched →
    (∀ (i : Instr) (rest : List Instr) (t : State), s.io.consumer = .calls (i :: rest) → i.consumerMay = true →
      exec i ((s.setSchedule sched).setConsumer (.calls rest)) = .next t →
      (t.result ≠ .held → step s = .next (t.setWaiting false) ∧ t.io.consumer = .calls rest) ∧
      (t.result = .held → step s = .next ((t.setConsumer (.calls (i :: rest))).setWaiting true))) ∧
    (s.io.consumer = .calls [] → step s = .next (s.setSchedule sched)) ∧
    (∀ ph : HostPhase, s.io.consumer = .host ph →
      (hostEvent s.host ph = none →
        step s = .next ((s.setSchedule sched).setConsumer (.host (hostQuiet ph)))) ∧
      (∀ (i : Instr) (t : State), hostEvent s.host ph = some i → exec i (s.setSchedule sched) = .next t →
        (t.result = .held → step s = .next (t.setWaiting true)) ∧
        (t.result = .ok →
          step s = .next ((t.setConsumer (.host (hostAfterOk s.host ph))).setWaiting false)) ∧
        (∀ f sol, t.result = .taken f sol →
          step s = .next (((t.setHost (hostAfterTake f sol s.host ph).1).setConsumer
            (.host (hostAfterTake f sol s.host ph).2)).setWaiting false)) ∧
        (t.result = .refused .refusedHalted →
          step s = .next ((t.setConsumer (.host .ended)).setWaiting false)) ∧
        (∀ c, t.result = .refused c → c ≠ .refusedHalted → step s = .next (t.setWaiting false))))

/-- R41, R100, R201: what the reader does not take stays in the transport. With a validated frame waiting, the reader's
turn leaves the byte at the front of the RX stream and changes no register; while halted it leaves every item there
(log 16). A received frame row, from any parser state (log 5): its bytes are taken one by one, each after a `DELIVER` if
one is enabled (R75), as far as they can be; the row is held when not even the first can be, and else the bytes not taken
stand at the front of the RX stream. -/
def Obligations.HeldByteStaysInTheTransport : Prop :=
  ∀ s : State,
    (∀ (sched : List Turn) (b : Byte) (rest : List RxItem),
      s.io.schedule = .rx :: sched → s.io.rx = .byte b :: rest → s.halted = false → s.p.state = .holdDeliver →
      step s = .next ((s.setSchedule sched).setResult .held)) ∧
    (∀ (sched : List Turn) (item : RxItem) (rest : List RxItem),
      s.io.schedule = .rx :: sched → s.io.rx = item :: rest → s.halted = true →
      step s = .next ((s.setSchedule sched).setResult (.refused .refusedHalted))) ∧
    (∀ (i : Instr) (bs : List Byte), i.agent = .reader → encode i = some (.frame bs) → s.halted = false →
      (s.p.state = .holdDeliver → s.slot.full = true → exec i s = .next (s.setResult .held)) ∧
      (BlockInv s → ∃ (taken rest : List Byte) (u : State),
        bs = taken ++ rest ∧ u = settle (taken.foldl takeByte s) ∧
        (∀ k, k < taken.length → byteEnabled (settle ((taken.take k).foldl takeByte s)) = true) ∧
        (rest = [] ∨ byteEnabled u = false) ∧
        (taken = [] → exec i s = .next (s.setResult .held)) ∧
        (taken ≠ [] → exec i s = .next ((u.setRx (rest.map RxItem.byte ++ s.io.rx)).setResult .silent))))

/-! ### The documented host -/

/-- R161: the status selection, strict in the api version and inclusive in the firmware version. -/
def Obligations.StatusSelectionThresholds : Prop :=
  ∀ (api : U16) (fw : U24),
    (0x0200 < api.toNat → 0x010801 ≤ fw.toNat → statusInstr (selectStatus api fw) = .inavStatus2) ∧
    (0x0200 < api.toNat → fw.toNat < 0x010801 → statusInstr (selectStatus api fw) = .statusEx) ∧
    (api.toNat ≤ 0x0200 → statusInstr (selectStatus api fw) = .status)

/-- R158: the transmit buffer: 36 bytes, channel i + 1 low byte first at 2 i, 1759 where the map has no entry. -/
def Obligations.TransmitBufferIsEighteenLittleEndianSlots : Prop :=
  ∀ m : List (Nat × U16), (txBuffer m).length = 36 ∧
    ∀ i, i < 18 → ∃ v : U16, v = (m.lookup (i + 1)).getD 1759 ∧
      (txBuffer m)[2 * i]? = some (v.setWidth 8) ∧ (txBuffer m)[2 * i + 1]? = some ((v >>> 8).setWidth 8)

/-- R159, D25: the `RC` decode: min(16, floor(length / 2)) signed little-endian values. -/
def Obligations.RcDecodeReadsSignedPairs : Prop :=
  ∀ pl : List Byte, (rcDecode pl).length = min 16 (pl.length / 2) ∧
    ∀ j lo hi, j < 16 → pl[2 * j]? = some lo → pl[2 * j + 1]? = some hi →
      (rcDecode pl)[j]? = some (BitVec.ofNat 16 (lo.toNat + 256 * hi.toNat)).toInt

/-- R152 to R155: the order of the handshake's requests, one `TAKE` after each, whatever frames come; `CFG_SET_V2` only
after the first, and only after a solicited response; the packed versions, where the response has bytes at the open
offsets (log 22). R157 to R163: the loop, and what it reports. Unsolicited frames (log 21): that the handshake goes on after one,
with no field extracted from it, is the reading R156 marks as its own beside an admissible other, and the model's choice;
that the loop compares no ids, and so goes on and reports from an unsolicited frame as from any other, is the model's
choice beside the "handshake/loop: ... logged, otherwise ignored" of R174. That nothing is recorded or reported from the other four responses is the model's choice (log 33); how a report
is kept is the model's (log 31). R162: of a status response, where it has the bytes, armed is bit 0 of the status word
(of its least significant byte), the flags are the four bytes at their offset, the variant is the one asked; the layout is
open (log 23). -/
def Obligations.HandshakeOrder : Prop :=
  ∀ (h : HostRegs) (f : Frame) (sol : Bool),
    (hostEvent h .apiAsk = some .apiVersion ∧ hostAfterOk h .apiAsk = .apiTake ∧ hostEvent h .apiTake = some .take ∧
      (∃ v, (hostAfterTake f true h .apiTake).2 = .apiCfg v ∧ hostEvent h (.apiCfg v) = some (.cfgSetV2 v) ∧
        hostAfterOk h (.apiCfg v) = .variantAsk) ∧
      (∀ ma mi : Byte, f.payload[Config.hostOffsets.apiMajor]? = some ma →
        f.payload[Config.hostOffsets.apiMinor]? = some mi →
        hostAfterTake f true h .apiTake =
          ({ h with apiVersionRaw := BitVec.ofNat 16 (256 * ma.toNat + mi.toNat) }, .apiCfg (ma == 2))) ∧
      hostAfterTake f false h .apiTake = (h, .variantAsk)) ∧
    (hostEvent h .variantAsk = some .fcVariant ∧ hostAfterOk h .variantAsk = .variantTake ∧
      hostEvent h .variantTake = some .take ∧ hostAfterTake f sol h .variantTake = (h, .versionAsk)) ∧
    (hostEvent h .versionAsk = some .fcVersion ∧ hostAfterOk h .versionAsk = .versionTake ∧
      hostEvent h .versionTake = some .take ∧ (hostAfterTake f sol h .versionTake).2 = .buildAsk ∧
      (∀ ma mi pa : Byte, f.payload[Config.hostOffsets.fcvMajor]? = some ma →
        f.payload[Config.hostOffsets.fcvMinor]? = some mi → f.payload[Config.hostOffsets.fcvPatch]? = some pa →
        (hostAfterTake f true h .versionTake).1 =
          { h with firmwareVersion := BitVec.ofNat 24 (65536 * ma.toNat + 256 * mi.toNat + pa.toNat) }) ∧
      (hostAfterTake f false h .versionTake).1 = h) ∧
    (hostEvent h .buildAsk = some .buildInfo ∧ hostAfterOk h .buildAsk = .buildTake ∧
      hostEvent h .buildTake = some .take ∧ hostAfterTake f sol h .buildTake = (h, .boardAsk)) ∧
    (hostEvent h .boardAsk = some .boardInfo ∧ hostAfterOk h .boardAsk = .boardTake ∧
      hostEvent h .boardTake = some .take ∧ hostAfterTake f sol h .boardTake = (h, .nameAsk)) ∧
    (hostEvent h .nameAsk = some .name ∧ hostAfterOk h .nameAsk = .nameTake ∧
      hostEvent h .nameTake = some .take ∧ hostAfterTake f sol h .nameTake = (h, .loopTop)) ∧
    ((h.overrides = [] → hostEvent h .loopTop = none ∧ hostQuiet .loopTop = .rcAsk) ∧
      (h.overrides ≠ [] → hostEvent h .loopTop = some .setRawRc) ∧ hostAfterOk h .loopTop = .overrideTake ∧
      hostEvent h .overrideTake = some .take ∧
      hostAfterTake f sol h .overrideTake =
        ({ h with reports := h.reports ++
            [.sent ((List.range 18).map fun i => (h.overrides.lookup (i + 1)).getD 1759)] }, .rcAsk)) ∧
    (hostEvent h .rcAsk = some .rc ∧ hostAfterOk h .rcAsk = .rcTake ∧ hostEvent h .rcTake = some .take ∧
      hostAfterTake f sol h .rcTake =
        ({ h with reports := h.reports ++ [.channels (rcDecode f.payload)] }, .statusAsk)) ∧
    (∃ v, v = selectStatus h.apiVersionRaw h.firmwareVersion ∧ hostEvent h .statusAsk = some (statusInstr v) ∧
      hostAfterOk h .statusAsk = .statusTake v) ∧
    (∀ (v : StatusVariant) (l : Config.StatusLayout), l = Config.statusLayout v →
      hostEvent h (.statusTake v) = some .take ∧ ∃ snap : StatusSnapshot,
        hostAfterTake f sol h (.statusTake v) =
          ({ h with reports := h.reports ++ [.status snap (Config.flagsNonTrivial snap.armDisableFlags)] }, .sleep) ∧
        snap.variant = v ∧
        (∀ w : Byte,
          f.payload[if l.wordBigEndian then l.wordOfs + (if l.wordIs64 then 7 else 3) else l.wordOfs]? = some w →
          snap.armed = w.getLsbD 0) ∧
        (∀ b0 b1 b2 b3 : Byte, f.payload[l.flagsOfs]? = some b0 → f.payload[l.flagsOfs + 1]? = some b1 →
          f.payload[l.flagsOfs + 2]? = some b2 → f.payload[l.flagsOfs + 3]? = some b3 →
          snap.armDisableFlags.toNat =
            if l.flagsBigEndian then ((b0.toNat * 256 + b1.toNat) * 256 + b2.toNat) * 256 + b3.toNat
            else ((b3.toNat * 256 + b2.toNat) * 256 + b1.toNat) * 256 + b0.toNat)) ∧
    hostEvent h .sleep = none ∧ hostQuiet .sleep = .loopTop
end

