-- ==== Sys2Proof/Laws/Memory.lean ====
section
/-! SUPPORT. The laws of the payload buffer: read after write, the canonical form, the bytes `DELIVER` copies. -/

namespace Sys2Proof.Machine.Memory

theorem read_write_same (m : Memory) (i : Nat) (b : Byte) : (m.write i b).read i = some b := by
  induction m with
  | nil => simp [write, read]
  | cons c rest ih =>
    obtain ⟨a, c⟩ := c
    simp only [write]
    split
    · simp [read]
    · split
      · simp [read]
      · rename_i h1 h2
        have : a ≠ i := fun h => h2 h.symm
        simp [read, this, ih]

theorem read_write_other (m : Memory) {i j : Nat} (b : Byte) (h : j ≠ i) : (m.write i b).read j = m.read j := by
  induction m with
  | nil => simp [write, read, Ne.symm h]
  | cons c rest ih =>
    obtain ⟨a, c⟩ := c
    simp only [write]
    split
    · simp [read, Ne.symm h]
    · split
      · rename_i h1 h2
        subst h2
        simp [read, Ne.symm h]
      · simp only [read]
        split
        · rfl
        · exact ih

/-- What any index reads after a write. -/
theorem read_write (m : Memory) (i j : Nat) (b : Byte) :
    (m.write i b).read j = if j = i then some b else m.read j := by
  split
  · rename_i h
    rw [h]; exact read_write_same m i b
  · exact read_write_other m b ‹_›

theorem wfFrom_write {m : Memory} {i : Nat} (b : Byte) (hi : i < Config.payloadBufBytes) :
    ∀ {lo : Option Nat}, wfFrom lo m = true → (∀ l, lo = some l → l < i) → wfFrom lo (m.write i b) = true := by
  induction m with
  | nil =>
    intro lo _ hl
    cases lo with
    | none => simpa [write, wfFrom] using hi
    | some l => simpa [write, wfFrom] using ⟨hl l rfl, hi⟩
  | cons c rest ih =>
    obtain ⟨a, c⟩ := c
    intro lo hm hl
    simp only [wfFrom, Bool.and_eq_true, decide_eq_true_eq] at hm
    obtain ⟨⟨h1, h2⟩, h3⟩ := hm
    simp only [write]
    split
    · rename_i hia
      cases lo with
      | none => simp [wfFrom, h3, h2, hia, hi]
      | some l => simp [wfFrom, h3, h2, hia, hi, hl l rfl]
    · split
      · rename_i _ hia
        subst hia
        simp [wfFrom, h3, h2]
        exact h1
      · rename_i hia hne
        have hai : a < i := by omega
        simp only [wfFrom, Bool.and_eq_true, decide_eq_true_eq]
        exact ⟨⟨h1, h2⟩, ih h3 (by intro l hl'; cases hl'; exact hai)⟩

/-- The one operation that changes the buffer keeps its canonical form. -/
theorem wf_write {m : Memory} {i : Nat} (b : Byte) (hm : m.wf = true) (hi : i < Config.payloadBufBytes) :
    (m.write i b).wf = true :=
  wfFrom_write b hi hm (by intro l h; cases h)

@[simp] theorem wf_nil : wf [] = true := rfl

@[simp] theorem length_prefixBytes (m : Memory) (n : Nat) : (m.prefixBytes n).length = n := by
  simp [prefixBytes]

@[simp] theorem prefixBytes_zero (m : Memory) : m.prefixBytes 0 = [] := rfl

/-- A byte written at index `n` is the next of the collected bytes; the earlier ones stay (20_memory.md R45). -/
theorem prefixBytes_write (m : Memory) (n : Nat) (b : Byte) :
    (m.write n b).prefixBytes (n + 1) = m.prefixBytes n ++ [b] := by
  simp only [prefixBytes, List.range_succ, List.map_append, List.map_cons, List.map_nil, read_write_same,
    Option.getD_some]
  congr 1
  apply List.map_congr_left
  intro i hi
  rw [read_write_other m b (by have := List.mem_range.1 hi; omega)]

theorem written_iff (m : Memory) (n : Nat) : m.written n = true ↔ ∀ i < n, (m.read i).isSome = true := by
  simp [written]

@[simp] theorem written_zero (m : Memory) : m.written 0 = true := rfl

theorem written_write (m : Memory) {n : Nat} (b : Byte) (h : m.written n = true) :
    (m.write n b).written (n + 1) = true := by
  rw [written_iff] at *
  intro i hi
  rw [read_write]
  split
  · rfl
  · exact h i (by omega)

/-- When the first `n` bytes are written, no free value is among the bytes copied (10_state.md R18). -/
theorem getElem?_prefixBytes (m : Memory) {n i : Nat} (h : m.written n = true) (hi : i < n) :
    (m.prefixBytes n)[i]? = m.read i := by
  have hs := (written_iff m n).1 h i hi
  obtain ⟨b, hb⟩ := Option.isSome_iff_exists.1 hs
  simp [prefixBytes, hi, hb]

end Sys2Proof.Machine.Memory
end

