-- ==== Sys2Proof/Laws/State.lean ====
section
/-! SUPPORT. One lemma for each field of State and each writer of Machine/Ops.lean, true by rfl, so that no later proof
unfolds a record update; and the writers of one field composed. -/

namespace Sys2Proof.Machine.State


@[simp] theorem setP_p (s : State) (v : Parser) : (s.setP v).p = v := rfl
@[simp] theorem setP_slot (s : State) (v : Parser) : (s.setP v).slot = s.slot := rfl
@[simp] theorem setP_mux (s : State) (v : Parser) : (s.setP v).mux = s.mux := rfl
@[simp] theorem setP_fifo (s : State) (v : Parser) : (s.setP v).fifo = s.fifo := rfl
@[simp] theorem setP_halted (s : State) (v : Parser) : (s.setP v).halted = s.halted := rfl
@[simp] theorem setP_obs (s : State) (v : Parser) : (s.setP v).obs = s.obs := rfl
@[simp] theorem setP_host (s : State) (v : Parser) : (s.setP v).host = s.host := rfl
@[simp] theorem setP_io (s : State) (v : Parser) : (s.setP v).io = s.io := rfl
@[simp] theorem setP_result (s : State) (v : Parser) : (s.setP v).result = s.result := rfl

@[simp] theorem setSlot_p (s : State) (v : Slot) : (s.setSlot v).p = s.p := rfl
@[simp] theorem setSlot_slot (s : State) (v : Slot) : (s.setSlot v).slot = v := rfl
@[simp] theorem setSlot_mux (s : State) (v : Slot) : (s.setSlot v).mux = s.mux := rfl
@[simp] theorem setSlot_fifo (s : State) (v : Slot) : (s.setSlot v).fifo = s.fifo := rfl
@[simp] theorem setSlot_halted (s : State) (v : Slot) : (s.setSlot v).halted = s.halted := rfl
@[simp] theorem setSlot_obs (s : State) (v : Slot) : (s.setSlot v).obs = s.obs := rfl
@[simp] theorem setSlot_host (s : State) (v : Slot) : (s.setSlot v).host = s.host := rfl
@[simp] theorem setSlot_io (s : State) (v : Slot) : (s.setSlot v).io = s.io := rfl
@[simp] theorem setSlot_result (s : State) (v : Slot) : (s.setSlot v).result = s.result := rfl

@[simp] theorem setMux_p (s : State) (v : Mux) : (s.setMux v).p = s.p := rfl
@[simp] theorem setMux_slot (s : State) (v : Mux) : (s.setMux v).slot = s.slot := rfl
@[simp] theorem setMux_mux (s : State) (v : Mux) : (s.setMux v).mux = v := rfl
@[simp] theorem setMux_fifo (s : State) (v : Mux) : (s.setMux v).fifo = s.fifo := rfl
@[simp] theorem setMux_halted (s : State) (v : Mux) : (s.setMux v).halted = s.halted := rfl
@[simp] theorem setMux_obs (s : State) (v : Mux) : (s.setMux v).obs = s.obs := rfl
@[simp] theorem setMux_host (s : State) (v : Mux) : (s.setMux v).host = s.host := rfl
@[simp] theorem setMux_io (s : State) (v : Mux) : (s.setMux v).io = s.io := rfl
@[simp] theorem setMux_result (s : State) (v : Mux) : (s.setMux v).result = s.result := rfl

@[simp] theorem setFifo_p (s : State) (v : List Byte) : (s.setFifo v).p = s.p := rfl
@[simp] theorem setFifo_slot (s : State) (v : List Byte) : (s.setFifo v).slot = s.slot := rfl
@[simp] theorem setFifo_mux (s : State) (v : List Byte) : (s.setFifo v).mux = s.mux := rfl
@[simp] theorem setFifo_fifo (s : State) (v : List Byte) : (s.setFifo v).fifo = v := rfl
@[simp] theorem setFifo_halted (s : State) (v : List Byte) : (s.setFifo v).halted = s.halted := rfl
@[simp] theorem setFifo_obs (s : State) (v : List Byte) : (s.setFifo v).obs = s.obs := rfl
@[simp] theorem setFifo_host (s : State) (v : List Byte) : (s.setFifo v).host = s.host := rfl
@[simp] theorem setFifo_io (s : State) (v : List Byte) : (s.setFifo v).io = s.io := rfl
@[simp] theorem setFifo_result (s : State) (v : List Byte) : (s.setFifo v).result = s.result := rfl

@[simp] theorem setHalted_p (s : State) (v : Bool) : (s.setHalted v).p = s.p := rfl
@[simp] theorem setHalted_slot (s : State) (v : Bool) : (s.setHalted v).slot = s.slot := rfl
@[simp] theorem setHalted_mux (s : State) (v : Bool) : (s.setHalted v).mux = s.mux := rfl
@[simp] theorem setHalted_fifo (s : State) (v : Bool) : (s.setHalted v).fifo = s.fifo := rfl
@[simp] theorem setHalted_halted (s : State) (v : Bool) : (s.setHalted v).halted = v := rfl
@[simp] theorem setHalted_obs (s : State) (v : Bool) : (s.setHalted v).obs = s.obs := rfl
@[simp] theorem setHalted_host (s : State) (v : Bool) : (s.setHalted v).host = s.host := rfl
@[simp] theorem setHalted_io (s : State) (v : Bool) : (s.setHalted v).io = s.io := rfl
@[simp] theorem setHalted_result (s : State) (v : Bool) : (s.setHalted v).result = s.result := rfl

@[simp] theorem setObs_p (s : State) (v : List Condition) : (s.setObs v).p = s.p := rfl
@[simp] theorem setObs_slot (s : State) (v : List Condition) : (s.setObs v).slot = s.slot := rfl
@[simp] theorem setObs_mux (s : State) (v : List Condition) : (s.setObs v).mux = s.mux := rfl
@[simp] theorem setObs_fifo (s : State) (v : List Condition) : (s.setObs v).fifo = s.fifo := rfl
@[simp] theorem setObs_halted (s : State) (v : List Condition) : (s.setObs v).halted = s.halted := rfl
@[simp] theorem setObs_obs (s : State) (v : List Condition) : (s.setObs v).obs = v := rfl
@[simp] theorem setObs_host (s : State) (v : List Condition) : (s.setObs v).host = s.host := rfl
@[simp] theorem setObs_io (s : State) (v : List Condition) : (s.setObs v).io = s.io := rfl
@[simp] theorem setObs_result (s : State) (v : List Condition) : (s.setObs v).result = s.result := rfl

@[simp] theorem setHost_p (s : State) (v : HostRegs) : (s.setHost v).p = s.p := rfl
@[simp] theorem setHost_slot (s : State) (v : HostRegs) : (s.setHost v).slot = s.slot := rfl
@[simp] theorem setHost_mux (s : State) (v : HostRegs) : (s.setHost v).mux = s.mux := rfl
@[simp] theorem setHost_fifo (s : State) (v : HostRegs) : (s.setHost v).fifo = s.fifo := rfl
@[simp] theorem setHost_halted (s : State) (v : HostRegs) : (s.setHost v).halted = s.halted := rfl
@[simp] theorem setHost_obs (s : State) (v : HostRegs) : (s.setHost v).obs = s.obs := rfl
@[simp] theorem setHost_host (s : State) (v : HostRegs) : (s.setHost v).host = v := rfl
@[simp] theorem setHost_io (s : State) (v : HostRegs) : (s.setHost v).io = s.io := rfl
@[simp] theorem setHost_result (s : State) (v : HostRegs) : (s.setHost v).result = s.result := rfl

@[simp] theorem setIo_p (s : State) (v : Inputs) : (s.setIo v).p = s.p := rfl
@[simp] theorem setIo_slot (s : State) (v : Inputs) : (s.setIo v).slot = s.slot := rfl
@[simp] theorem setIo_mux (s : State) (v : Inputs) : (s.setIo v).mux = s.mux := rfl
@[simp] theorem setIo_fifo (s : State) (v : Inputs) : (s.setIo v).fifo = s.fifo := rfl
@[simp] theorem setIo_halted (s : State) (v : Inputs) : (s.setIo v).halted = s.halted := rfl
@[simp] theorem setIo_obs (s : State) (v : Inputs) : (s.setIo v).obs = s.obs := rfl
@[simp] theorem setIo_host (s : State) (v : Inputs) : (s.setIo v).host = s.host := rfl
@[simp] theorem setIo_io (s : State) (v : Inputs) : (s.setIo v).io = v := rfl
@[simp] theorem setIo_result (s : State) (v : Inputs) : (s.setIo v).result = s.result := rfl

@[simp] theorem setResult_p (s : State) (v : Result) : (s.setResult v).p = s.p := rfl
@[simp] theorem setResult_slot (s : State) (v : Result) : (s.setResult v).slot = s.slot := rfl
@[simp] theorem setResult_mux (s : State) (v : Result) : (s.setResult v).mux = s.mux := rfl
@[simp] theorem setResult_fifo (s : State) (v : Result) : (s.setResult v).fifo = s.fifo := rfl
@[simp] theorem setResult_halted (s : State) (v : Result) : (s.setResult v).halted = s.halted := rfl
@[simp] theorem setResult_obs (s : State) (v : Result) : (s.setResult v).obs = s.obs := rfl
@[simp] theorem setResult_host (s : State) (v : Result) : (s.setResult v).host = s.host := rfl
@[simp] theorem setResult_io (s : State) (v : Result) : (s.setResult v).io = s.io := rfl
@[simp] theorem setResult_result (s : State) (v : Result) : (s.setResult v).result = v := rfl

@[simp] theorem setSchedule_p (s : State) (v : List Turn) : (s.setSchedule v).p = s.p := rfl
@[simp] theorem setSchedule_slot (s : State) (v : List Turn) : (s.setSchedule v).slot = s.slot := rfl
@[simp] theorem setSchedule_mux (s : State) (v : List Turn) : (s.setSchedule v).mux = s.mux := rfl
@[simp] theorem setSchedule_fifo (s : State) (v : List Turn) : (s.setSchedule v).fifo = s.fifo := rfl
@[simp] theorem setSchedule_halted (s : State) (v : List Turn) : (s.setSchedule v).halted = s.halted := rfl
@[simp] theorem setSchedule_obs (s : State) (v : List Turn) : (s.setSchedule v).obs = s.obs := rfl
@[simp] theorem setSchedule_host (s : State) (v : List Turn) : (s.setSchedule v).host = s.host := rfl
@[simp] theorem setSchedule_result (s : State) (v : List Turn) : (s.setSchedule v).result = s.result := rfl
@[simp] theorem setSchedule_io_schedule (s : State) (v : List Turn) : (s.setSchedule v).io.schedule = v := rfl
@[simp] theorem setSchedule_io_rx (s : State) (v : List Turn) : (s.setSchedule v).io.rx = s.io.rx := rfl
@[simp] theorem setSchedule_io_consumer (s : State) (v : List Turn) : (s.setSchedule v).io.consumer = s.io.consumer := rfl
@[simp] theorem setSchedule_io_waiting (s : State) (v : List Turn) : (s.setSchedule v).io.waiting = s.io.waiting := rfl

@[simp] theorem setRx_p (s : State) (v : List RxItem) : (s.setRx v).p = s.p := rfl
@[simp] theorem setRx_slot (s : State) (v : List RxItem) : (s.setRx v).slot = s.slot := rfl
@[simp] theorem setRx_mux (s : State) (v : List RxItem) : (s.setRx v).mux = s.mux := rfl
@[simp] theorem setRx_fifo (s : State) (v : List RxItem) : (s.setRx v).fifo = s.fifo := rfl
@[simp] theorem setRx_halted (s : State) (v : List RxItem) : (s.setRx v).halted = s.halted := rfl
@[simp] theorem setRx_obs (s : State) (v : List RxItem) : (s.setRx v).obs = s.obs := rfl
@[simp] theorem setRx_host (s : State) (v : List RxItem) : (s.setRx v).host = s.host := rfl
@[simp] theorem setRx_result (s : State) (v : List RxItem) : (s.setRx v).result = s.result := rfl
@[simp] theorem setRx_io_schedule (s : State) (v : List RxItem) : (s.setRx v).io.schedule = s.io.schedule := rfl
@[simp] theorem setRx_io_rx (s : State) (v : List RxItem) : (s.setRx v).io.rx = v := rfl
@[simp] theorem setRx_io_consumer (s : State) (v : List RxItem) : (s.setRx v).io.consumer = s.io.consumer := rfl
@[simp] theorem setRx_io_waiting (s : State) (v : List RxItem) : (s.setRx v).io.waiting = s.io.waiting := rfl

@[simp] theorem setConsumer_p (s : State) (v : Consumer) : (s.setConsumer v).p = s.p := rfl
@[simp] theorem setConsumer_slot (s : State) (v : Consumer) : (s.setConsumer v).slot = s.slot := rfl
@[simp] theorem setConsumer_mux (s : State) (v : Consumer) : (s.setConsumer v).mux = s.mux := rfl
@[simp] theorem setConsumer_fifo (s : State) (v : Consumer) : (s.setConsumer v).fifo = s.fifo := rfl
@[simp] theorem setConsumer_halted (s : State) (v : Consumer) : (s.setConsumer v).halted = s.halted := rfl
@[simp] theorem setConsumer_obs (s : State) (v : Consumer) : (s.setConsumer v).obs = s.obs := rfl
@[simp] theorem setConsumer_host (s : State) (v : Consumer) : (s.setConsumer v).host = s.host := rfl
@[simp] theorem setConsumer_result (s : State) (v : Consumer) : (s.setConsumer v).result = s.result := rfl
@[simp] theorem setConsumer_io_schedule (s : State) (v : Consumer) : (s.setConsumer v).io.schedule = s.io.schedule := rfl
@[simp] theorem setConsumer_io_rx (s : State) (v : Consumer) : (s.setConsumer v).io.rx = s.io.rx := rfl
@[simp] theorem setConsumer_io_consumer (s : State) (v : Consumer) : (s.setConsumer v).io.consumer = v := rfl
@[simp] theorem setConsumer_io_waiting (s : State) (v : Consumer) : (s.setConsumer v).io.waiting = s.io.waiting := rfl

@[simp] theorem setWaiting_p (s : State) (v : Bool) : (s.setWaiting v).p = s.p := rfl
@[simp] theorem setWaiting_slot (s : State) (v : Bool) : (s.setWaiting v).slot = s.slot := rfl
@[simp] theorem setWaiting_mux (s : State) (v : Bool) : (s.setWaiting v).mux = s.mux := rfl
@[simp] theorem setWaiting_fifo (s : State) (v : Bool) : (s.setWaiting v).fifo = s.fifo := rfl
@[simp] theorem setWaiting_halted (s : State) (v : Bool) : (s.setWaiting v).halted = s.halted := rfl
@[simp] theorem setWaiting_obs (s : State) (v : Bool) : (s.setWaiting v).obs = s.obs := rfl
@[simp] theorem setWaiting_host (s : State) (v : Bool) : (s.setWaiting v).host = s.host := rfl
@[simp] theorem setWaiting_result (s : State) (v : Bool) : (s.setWaiting v).result = s.result := rfl
@[simp] theorem setWaiting_io_schedule (s : State) (v : Bool) : (s.setWaiting v).io.schedule = s.io.schedule := rfl
@[simp] theorem setWaiting_io_rx (s : State) (v : Bool) : (s.setWaiting v).io.rx = s.io.rx := rfl
@[simp] theorem setWaiting_io_consumer (s : State) (v : Bool) : (s.setWaiting v).io.consumer = s.io.consumer := rfl
@[simp] theorem setWaiting_io_waiting (s : State) (v : Bool) : (s.setWaiting v).io.waiting = v := rfl

/-- Two states are equal when all nine fields are. -/
theorem ext_fields {s t : State} (h1 : s.p = t.p) (h2 : s.slot = t.slot) (h3 : s.mux = t.mux) (h4 : s.fifo = t.fifo)
    (h5 : s.halted = t.halted) (h6 : s.obs = t.obs) (h7 : s.host = t.host) (h8 : s.io = t.io)
    (h9 : s.result = t.result) : s = t := by
  cases s; cases t; simp_all

@[simp] theorem setResult_setResult (s : State) (a b : Result) : (s.setResult a).setResult b = s.setResult b := rfl

/-- Writing back what is there changes nothing. -/
theorem setRx_self (s : State) : s.setRx s.io.rx = s := rfl

end Sys2Proof.Machine.State
end

