-- ==== Sys2Proof/Laws/Ops.lean ====
section
/-! SUPPORT. What each shared way of ending an event can do, and the record that raising a condition leaves. -/

namespace Sys2Proof.Machine

@[simp] theorem finish_eq (s : State) (r : Result) : finish s r = .next (s.setResult r) := rfl

@[simp] theorem refuse_eq (s : State) (c : Condition) : refuse s c = .next (s.setResult (.refused c)) := rfl

@[simp] theorem hold_eq (s : State) : hold s = .next (s.setResult .held) := rfl

@[simp] theorem unlessHalted_of_halted {s : State} (h : s.halted = true) (body : Out) :
    unlessHalted s body = refuse s .refusedHalted := by
  simp [unlessHalted, h]

@[simp] theorem unlessHalted_of_running {s : State} (h : s.halted = false) (body : Out) :
    unlessHalted s body = body := by
  simp [unlessHalted, h]

/-- The guarded events: refused while halted, else their own effect. -/
theorem unlessHalted_cases (s : State) (body : Out) :
    (s.halted = true ∧ unlessHalted s body = .next (s.setResult (.refused .refusedHalted))) ∨
      (s.halted = false ∧ unlessHalted s body = body) := by
  cases h : s.halted <;> simp [h]

/-- Raising a condition touches `OBS` only. -/
theorem raise_eq (s : State) (c : Condition) :
    raise s c = s.setObs (s.obs ++ if c.recorded then [c] else []) := by
  cases h : c.recorded <;> simp [raise, h, State.setObs]

@[simp] theorem raise_p (s : State) (c : Condition) : (raise s c).p = s.p := by simp [raise_eq]
@[simp] theorem raise_slot (s : State) (c : Condition) : (raise s c).slot = s.slot := by simp [raise_eq]
@[simp] theorem raise_mux (s : State) (c : Condition) : (raise s c).mux = s.mux := by simp [raise_eq]
@[simp] theorem raise_fifo (s : State) (c : Condition) : (raise s c).fifo = s.fifo := by simp [raise_eq]
@[simp] theorem raise_halted (s : State) (c : Condition) : (raise s c).halted = s.halted := by simp [raise_eq]
@[simp] theorem raise_host (s : State) (c : Condition) : (raise s c).host = s.host := by simp [raise_eq]
@[simp] theorem raise_io (s : State) (c : Condition) : (raise s c).io = s.io := by simp [raise_eq]

theorem raise_obs (s : State) (c : Condition) :
    (raise s c).obs = s.obs ++ if c.recorded then [c] else [] := by
  simp [raise_eq]

/-- A silent condition leaves no trace (60_exceptions.md R171). -/
@[simp] theorem raise_framingAbort (s : State) : raise s .framingAbort = s := rfl

@[simp] theorem goto_state (p : Parser) (st : PState) : (p.goto st).state = st := rfl
@[simp] theorem goto_variant (p : Parser) (st : PState) : (p.goto st).variant = p.variant := rfl
@[simp] theorem goto_isResponse (p : Parser) (st : PState) : (p.goto st).isResponse = p.isResponse := rfl
@[simp] theorem goto_len (p : Parser) (st : PState) : (p.goto st).len = p.len := rfl
@[simp] theorem goto_cmd (p : Parser) (st : PState) : (p.goto st).cmd = p.cmd := rfl
@[simp] theorem goto_count (p : Parser) (st : PState) : (p.goto st).count = p.count := rfl
@[simp] theorem goto_acc (p : Parser) (st : PState) : (p.goto st).acc = p.acc := rfl
@[simp] theorem goto_buf (p : Parser) (st : PState) : (p.goto st).buf = p.buf := rfl

/-- Entry to the halt (R179), field by field. -/
theorem enterHalt_eq (s : State) :
    enterHalt s =
      .next ((((s.setObs (s.obs ++ [.transportLost])).setHalted true).setP (s.p.goto .halted)).setResult
        (.lost Config.exitStatus)) := rfl

/-- The exit status is not zero (00_scope.md R5). -/
theorem exitStatus_ne_zero : Config.exitStatus ≠ 0 := by simp [Config.exitStatus]

@[simp] theorem restartConsumer_rx (io : Inputs) : (restartConsumer io).rx = io.rx := by
  unfold restartConsumer; split <;> rfl

@[simp] theorem restartConsumer_schedule (io : Inputs) : (restartConsumer io).schedule = io.schedule := by
  unfold restartConsumer; split <;> rfl

end Sys2Proof.Machine
end

