-- ==== Sys2Proof/Laws/Mux.lean ====
section
/-! SUPPORT. What `ISSUE`, `TAKE`, `CFG_SET_V2`, `TX_DRAIN` and the encode functions can do. -/

namespace Sys2Proof.Machine

/-- The state after an accepted `ISSUE` whose frame is `bs` (43_mux.md R131). -/
def issued (cmd : U16) (bs : List Byte) (s : State) : State :=
  (((s.setFifo (s.fifo ++ bs)).setMux { usesV2 := s.mux.usesV2, awaiting := true, lastCmd := cmd })).setResult .ok

/-- `ISSUE`, all its cases, in the order of its tests (R131, R175). -/
theorem issue_cases (cmd : U16) (p : List Byte) (s : State) :
    (s.halted = true ∧ issue cmd p s = .next (s.setResult (.refused .refusedHalted))) ∨
    (s.halted = false ∧ s.mux.awaiting = true ∧ issue cmd p s = .next (s.setResult (.refused .refusedBusy))) ∨
    (s.halted = false ∧ s.mux.awaiting = false ∧ enc s.mux.usesV2 cmd.toNat p = none ∧
      issue cmd p s = .next (s.setResult (.refused .refusedRange))) ∨
    (s.halted = false ∧ s.mux.awaiting = false ∧ ∃ bs, enc s.mux.usesV2 cmd.toNat p = some bs ∧
      issue cmd p s = .next (issued cmd bs s)) := by
  cases hh : s.halted
  · cases ha : s.mux.awaiting
    · cases he : enc s.mux.usesV2 cmd.toNat p with
      | none => simp [issue, hh, ha, he]
      | some bs =>
        refine .inr (.inr (.inr ⟨rfl, rfl, bs, rfl, ?_⟩))
        simp [issue, hh, ha, he, issued, txAppend]
    · simp [issue, hh, ha]
  · simp [issue, hh]

/-- The frames that `ENCODE_V1` produces (41_encoder.md R90). -/
theorem encV1_eq_some {cmd : Nat} {p : List Byte} (hc : cmd ≤ Config.v1CmdMax) (hp : p.length ≤ Config.v1LenMax) :
    encV1 cmd p = some (v1Frame Config.dirTx (BitVec.ofNat 8 cmd) p) := by
  rw [encV1, if_neg (by omega)]

/-- The frames that `ENCODE_V2` produces (R91). -/
theorem encV2_eq_some {cmd : Nat} {p : List Byte} (hc : cmd ≤ Config.v2CmdMax) (hp : p.length ≤ Config.v2LenMax) :
    encV2 cmd p = some (v2Frame Config.dirTx Config.encFlags (BitVec.ofNat 16 cmd) p) := by
  rw [encV2, if_neg (by omega)]

/-- `TAKE`: refused, held, or the frame handed out (R132). -/
theorem execTake_cases (s : State) :
    (s.halted = true ∧ execTake s = .next (s.setResult (.refused .refusedHalted))) ∨
    (s.halted = false ∧ s.slot.full = false ∧ execTake s = .next (s.setResult .held)) ∨
    (s.halted = false ∧ s.slot.full = true ∧ execTake s = takeFrame s) := by
  cases hh : s.halted <;> cases hf : s.slot.full <;> simp [execTake, hh, hf]

/-- The state after a `TAKE` that returned its frame. -/
theorem takeFrame_eq (s : State) :
    takeFrame s =
      .next ((((s.setObs (s.obs ++ if solicited s.mux s.slot.frame then []
          else [.unsolicited s.mux.lastCmd s.slot.frame.cmd s.mux.awaiting])).setSlot
        { full := false, frame := s.slot.frame }).setMux
        { usesV2 := s.mux.usesV2, awaiting := false, lastCmd := s.mux.lastCmd }).setResult
        (.taken s.slot.frame (solicited s.mux s.slot.frame))) := by
  unfold takeFrame
  cases h : solicited s.mux s.slot.frame
  · simp only [h]; rfl
  · simp only [h, ↓reduceIte, List.append_nil]; rfl

/-- `TX_DRAIN`: refused, not enabled, or the oldest bytes handed over (R135). -/
theorem execTxDrain_cases (n : Nat) (s : State) :
    (s.halted = true ∧ execTxDrain n s = .next (s.setResult (.refused .refusedHalted))) ∨
    (s.halted = false ∧ ¬ (1 ≤ n ∧ n ≤ s.fifo.length) ∧ execTxDrain n s = .next (s.setResult .held)) ∨
    (s.halted = false ∧ 1 ≤ n ∧ n ≤ s.fifo.length ∧
      execTxDrain n s = .next ((s.setFifo (s.fifo.drop n)).setResult (.bytes (s.fifo.take n)))) := by
  cases hh : s.halted
  · by_cases h : 1 ≤ n ∧ n ≤ s.fifo.length
    · simp [execTxDrain, hh, drainEnabled, h]
    · refine .inr (.inl ⟨rfl, h, ?_⟩)
      have : drainEnabled s n = false := by simpa [drainEnabled] using h
      simp [execTxDrain, hh, this]
  · simp [execTxDrain, hh]

/-- A pure function changes nothing but the result (R93). -/
theorem returnBytes_next (s : State) (o : Option (List Byte)) : ∃ r, returnBytes s o = .next (s.setResult r) := by
  cases o
  · exact ⟨_, rfl⟩
  · exact ⟨_, rfl⟩

end Sys2Proof.Machine
end

