-- ==== Sys2Proof/Laws/Parser.lean ====
section
/-! SUPPORT. What a receive row, `RX_BYTE`, `DELIVER` and the pseudo-operation `RX` can do. -/

namespace Sys2Proof.Machine

@[simp] theorem parserOnly_eq (f : Parser → Parser) (s : State) :
    parserOnly f s = .next ((s.setP (f s.p)).setResult .silent) := rfl

@[simp] theorem abort_eq (s : State) : abort s = .next ((s.setP (s.p.goto .waitStart)).setResult .silent) := rfl

@[simp] theorem checksumGood_eq (s : State) :
    checksumGood s = .next ((s.setP (s.p.goto .holdDeliver)).setResult .silent) := rfl

@[simp] theorem checksumBad_eq (b : Byte) (s : State) :
    checksumBad b s =
      .next (((s.setObs (s.obs ++ [.checksumMismatch s.p.variant s.p.cmd s.p.len s.p.acc b])).setP
        (s.p.goto .waitStart)).setResult .silent) := rfl

/-- A payload byte is stored, or there is no such index. -/
theorem collect_cases (b : Byte) (s : State) :
    (s.p.count.toNat < Config.payloadBufBytes ∧
        collect b s = .next ((s.setP (effPayload b s.p)).setResult .silent)) ∨
      (¬ s.p.count.toNat < Config.payloadBufBytes ∧ collect b s = .fault .bufferIndex) := by
  unfold collect
  split
  · exact .inl ⟨‹_›, rfl⟩
  · exact .inr ⟨‹_›, rfl⟩

/-- A receive row in the state it holds in. -/
theorem rxRow_enabled {st : PState} {fits : Bool} {s : State} (body : State → Out) (h : s.halted = false)
    (hs : s.p.state = st) (hf : fits = true) : rxRow st fits body s = body s := by
  simp [rxRow, h, hs, hf]

/-- A receive row: refused while halted, not enabled in another state or for a byte outside its class, else its
effect. -/
theorem rxRow_cases (st : PState) (fits : Bool) (body : State → Out) (s : State) :
    (s.halted = true ∧ rxRow st fits body s = .next (s.setResult (.refused .refusedHalted))) ∨
    (s.halted = false ∧ ¬ (s.p.state = st ∧ fits = true) ∧ rxRow st fits body s = .next (s.setResult .held)) ∨
    (s.halted = false ∧ s.p.state = st ∧ fits = true ∧ rxRow st fits body s = body s) := by
  cases h : s.halted
  · by_cases hf : s.p.state = st ∧ fits = true
    · exact .inr (.inr ⟨rfl, hf.1, hf.2, rxRow_enabled body h hf.1 hf.2⟩)
    · refine .inr (.inl ⟨rfl, hf, ?_⟩)
      rw [rxRow, unlessHalted_of_running h, if_neg hf, hold_eq]
  · exact .inl ⟨rfl, by simp [rxRow, h]⟩

/-- The parser registers after a byte in a state, by the rules R101 to R113 (`none` in the two states that take none). -/
def parserAfter (b : Byte) (p : Parser) : Option Parser :=
  match p.state with
  | .waitStart => some (if b = Config.startByte then effStart p else effIgnore p)
  | .waitType =>
    some (if b = Config.typeV1Byte then effTypeV1 p else if b = Config.typeV2Byte then effTypeV2 p else effAbort p)
  | .waitDirection =>
    some (if b = Config.dirResponse then effDirV1 true p else if b = Config.dirRequest then effDirV1 false p
      else effAbort p)
  | .waitLen => some (effV1Len b p)
  | .waitCmd => some (effV1Cmd b p)
  | .waitXDirection =>
    some (if b = Config.dirResponse then effDirV2 true p else if b = Config.dirRequest then effDirV2 false p
      else effAbort p)
  | .waitFlags => some (effV2Flags b p)
  | .waitCmdLo => some (effV2CmdLo b p)
  | .waitCmdHi => some (effV2CmdHi b p)
  | .waitLenLo => some (effV2LenLo b p)
  | .waitLenHi => some (effV2LenHi b p)
  | .collectPayload => if p.count.toNat < Config.payloadBufBytes then some (effPayload b p) else none
  | .waitChecksum => some (p.goto (if b = p.acc then .holdDeliver else .waitStart))
  | .holdDeliver => none
  | .halted => none

/-- What a byte appends to `OBS`. -/
def obsAfter (b : Byte) (p : Parser) : List Condition :=
  if p.state = .waitChecksum ∧ b ≠ p.acc then [.checksumMismatch p.variant p.cmd p.len p.acc b] else []

/-- One byte: the parser registers and `OBS` change by the rule of `P.state`, nothing else does. -/
theorem rxRule_eq {b : Byte} {s : State} {q : Parser} (h : parserAfter b s.p = some q) :
    rxRule b s = .next (((s.setObs (s.obs ++ obsAfter b s.p)).setP q).setResult .silent) := by
  unfold parserAfter at h
  unfold rxRule obsAfter
  cases hs : s.p.state <;> simp only [hs] at h ⊢ <;> try simp only [Option.some.injEq, reduceCtorEq] at h
  case waitChecksum =>
    subst h
    by_cases hb : b = s.p.acc
    · simp [hb]; rfl
    · simp [hb]
  case collectPayload =>
    split at h
    · simp only [Option.some.injEq] at h
      subst h
      simp [collect, *]
      rfl
    · cases h
  all_goals
    subst h
    simp
    (repeat' split) <;> rfl

/-- Where no rule applies, nothing changes or the index does not exist. -/
theorem rxRule_none {b : Byte} {s : State} (h : parserAfter b s.p = none) :
    (s.p.state = .holdDeliver ∧ rxRule b s = .next (s.setResult .held)) ∨
    (s.p.state = .halted ∧ rxRule b s = .next (s.setResult (.refused .refusedHalted))) ∨
    (s.p.state = .collectPayload ∧ rxRule b s = .fault .bufferIndex) := by
  unfold parserAfter at h
  unfold rxRule
  cases hs : s.p.state <;> simp only [hs] at h ⊢ <;> simp_all [collect]

/-- `DELIVER`: the deposit where it is enabled, else nothing (R114). -/
theorem execDeliver_cases (s : State) :
    (deliverEnabled s = true ∧ execDeliver s = .next ((deposit s).setResult .silent)) ∨
      (deliverEnabled s = false ∧ execDeliver s = .next (s.setResult .held)) := by
  cases h : deliverEnabled s <;> simp [execDeliver, h]

theorem deliverEnabled_iff (s : State) :
    deliverEnabled s = true ↔ s.p.state = .holdDeliver ∧ s.slot.full = false ∧ s.halted = false := by
  simp [deliverEnabled, and_assoc]

theorem byteEnabled_iff (s : State) :
    byteEnabled s = true ↔ s.halted = false ∧ s.p.state ≠ .holdDeliver ∧ s.p.state ≠ .halted := by
  simp [byteEnabled, and_assoc]

@[simp] theorem deposit_p (s : State) : (deposit s).p = s.p.goto .waitStart := rfl
@[simp] theorem deposit_slot (s : State) :
    (deposit s).slot = { full := true, frame := receivedFrame s.p } := rfl
@[simp] theorem deposit_mux (s : State) : (deposit s).mux = s.mux := rfl
@[simp] theorem deposit_fifo (s : State) : (deposit s).fifo = s.fifo := rfl
@[simp] theorem deposit_halted (s : State) : (deposit s).halted = s.halted := rfl
@[simp] theorem deposit_obs (s : State) : (deposit s).obs = s.obs := rfl
@[simp] theorem deposit_host (s : State) : (deposit s).host = s.host := rfl
@[simp] theorem deposit_io (s : State) : (deposit s).io = s.io := rfl
@[simp] theorem deposit_result (s : State) : (deposit s).result = s.result := rfl

/-- The Frame a `DELIVER` builds has a payload of its length (R20, R114). -/
theorem receivedFrame_length (p : Parser) :
    (receivedFrame p).payload.length = (receivedFrame p).length.toNat := by
  simp [receivedFrame]

/-- `deliverIfEnabled` does nothing outside `HOLD_DELIVER`. -/
theorem deliverIfEnabled_eq {s : State} (h : s.p.state ≠ .holdDeliver) : deliverIfEnabled s = s := by
  have : deliverEnabled s = false := by simp [deliverEnabled, h]
  simp [deliverIfEnabled, this]

/-- One byte of `RX` in a state that takes it. -/
theorem rxBytes_cons {b : Byte} {bs : List Byte} {s : State} {q : Parser} (h : s.halted = false)
    (hq : parserAfter b s.p = some q) :
    rxBytes (b :: bs) s = rxBytes bs (((s.setObs (s.obs ++ obsAfter b s.p)).setP q).setResult .silent) := by
  have h1 : s.p.state ≠ .holdDeliver := by intro hs; simp [parserAfter, hs] at hq
  have h2 : s.p.state ≠ .halted := by intro hs; simp [parserAfter, hs] at hq
  have h3 : byteEnabled s = true := (byteEnabled_iff s).2 ⟨h, h1, h2⟩
  simp [rxBytes, deliverIfEnabled_eq h1, h3, rxRule_eq hq]

/-- A property of states that a taken byte and a deposit keep holds of the state `RX` reaches. -/
theorem rxBytes_induct {P : State → Prop} (hd : ∀ s, P s → deliverEnabled s = true → P (deposit s))
    (hb : ∀ s t b, P s → byteEnabled s = true → rxRule b s = .next t → P t) :
    ∀ (bs : List Byte) (s : State), P s → ∀ t rest, rxBytes bs s = .next (t, rest) → P t := by
  have hdi : ∀ s, P s → P (deliverIfEnabled s) := by
    intro s hs
    unfold deliverIfEnabled
    split
    · exact hd s hs ‹_›
    · exact hs
  intro bs
  induction bs with
  | nil =>
    intro s hs t rest h
    simp only [rxBytes, Host.Outcome.next.injEq, Prod.mk.injEq] at h
    exact h.1 ▸ hdi s hs
  | cons b bs ih =>
    intro s hs t rest h
    simp only [rxBytes] at h
    split at h
    · rename_i he
      cases hr : rxRule b (deliverIfEnabled s) with
      | next s2 =>
        rw [hr] at h
        exact ih s2 (hb _ s2 b (hdi s hs) he hr) t rest h
      | fault r => rw [hr] at h; cases h
      | refused r => rw [hr] at h; cases h
    · simp only [Host.Outcome.next.injEq, Prod.mk.injEq] at h
      exact h.1 ▸ hdi s hs

/-- A received frame: refused, held, or the state `RX` reached with the bytes not taken left in the transport. -/
theorem receive_next {bs : List Byte} {s t : State} (h : receive bs s = .next t) :
    t = s.setResult (.refused .refusedHalted) ∨ t = s.setResult .held ∨
      ∃ u rest, s.halted = false ∧ rxBytes bs s = .next (u, rest) ∧ rest.length ≠ bs.length ∧
        t = (u.setRx (rest.map RxItem.byte ++ u.io.rx)).setResult .silent := by
  unfold receive at h
  rcases unlessHalted_cases s _ with ⟨-, he⟩ | ⟨hh, he⟩ <;> rw [he] at h
  · cases h; exact .inl rfl
  · cases hr : rxBytes bs s with
    | next ur =>
      obtain ⟨u, rest⟩ := ur
      rw [hr] at h
      simp only at h
      split at h
      · cases h; exact .inr (.inl rfl)
      · cases h; exact .inr (.inr ⟨u, rest, hh, rfl, ‹_›, rfl⟩)
    | fault r => rw [hr] at h; cases h
    | refused r => rw [hr] at h; cases h

end Sys2Proof.Machine
end

