-- ==== Sys2Proof/Laws/Step.lean ====
section
/-! SUPPORT. What an event can do to the state, said once (`exec_moved`), and what a step adds around it
(`step_cases`). -/

namespace Sys2Proof.Machine

/-- The state after a taken byte (42_parser.md R100 to R113). -/
def byteTaken (b : Byte) (q : Parser) (s : State) : State :=
  ((s.setObs (s.obs ++ obsAfter b s.p)).setP q).setResult .silent

/-- The state after `RX_FAIL` (60_exceptions.md R179). -/
def lost (s : State) : State :=
  (((s.setObs (s.obs ++ [.transportLost])).setHalted true).setP (s.p.goto .halted)).setResult (.lost Config.exitStatus)

/-- The state after `TAKE` (43_mux.md R132). -/
def taken (s : State) : State :=
  (((s.setObs (s.obs ++ if solicited s.mux s.slot.frame then []
      else [.unsolicited s.mux.lastCmd s.slot.frame.cmd s.mux.awaiting])).setSlot
    { full := false, frame := s.slot.frame }).setMux
    { usesV2 := s.mux.usesV2, awaiting := false, lastCmd := s.mux.lastCmd }).setResult
    (.taken s.slot.frame (solicited s.mux s.slot.frame))

/-- All the ways an event moves the state. -/
inductive Moved (s : State) : Instr → State → Prop
  /-- refused, held, or a pure function: only the result -/
  | result (i : Instr) (r : Result) : Moved s i (s.setResult r)
  | byte (i : Instr) (b : Byte) (q : Parser) (ha : i.agent = .reader) (hf : ∀ bs, encode i ≠ some (.frame bs))
      (hi : i ≠ .rxFail) (hh : s.halted = false) (hq : parserAfter b s.p = some q) : Moved s i (byteTaken b q s)
  | deliver (he : deliverEnabled s = true) : Moved s .deliver ((deposit s).setResult .silent)
  | lost (hh : s.halted = false) : Moved s .rxFail (lost s)
  | received (i : Instr) (bs : List Byte) (u : State) (rest : List Byte) (hi : encode i = some (.frame bs))
      (ha : i.agent = .reader) (hh : s.halted = false) (hr : rxBytes bs s = .next (u, rest))
      (hl : rest.length ≠ bs.length) :
      Moved s i ((u.setRx (rest.map RxItem.byte ++ u.io.rx)).setResult .silent)
  | issued (i : Instr) (cmd : U16) (bs : List Byte) (ha : i.agent = .consumer) (hh : s.halted = false) :
      Moved s i (issued cmd bs s)
  | taken (hh : s.halted = false) (hf : s.slot.full = true) : Moved s .take (taken s)
  | configured (v : Bool) (hh : s.halted = false) :
      Moved s (.cfgSetV2 v) ((s.setMux { s.mux with usesV2 := v }).setResult .ok)
  | drained (n : Nat) (hh : s.halted = false) (h1 : 1 ≤ n) (h2 : n ≤ s.fifo.length) :
      Moved s (.txDrain n) ((s.setFifo (s.fifo.drop n)).setResult (.bytes (s.fifo.take n)))
  | reset : Moved s .reset
      ((((resetBlock s).setHost (restartHost s.host)).setIo (restartConsumer s.io)).setResult .silent)

theorem moved_of_rxRow {i : Instr} {b : Byte} {st : PState} {fits : Bool} {body : State → Out} {s t : State}
    (ha : i.agent = .reader) (hf : ∀ bs, encode i ≠ some (.frame bs)) (hi : i ≠ .rxFail)
    (hst : s.halted = false → s.p.state = st → fits = true → body s = rxRule b s)
    (hst2 : st ≠ .holdDeliver) (hst3 : st ≠ .halted)
    (h : rxRow st fits body s = .next t) : Moved s i t := by
  rcases rxRow_cases st fits body s with ⟨-, e⟩ | ⟨-, -, e⟩ | ⟨hh, hs, hfit, e⟩ <;> rw [e] at h
  · cases h; exact .result _ _
  · cases h; exact .result _ _
  · rw [hst hh hs hfit] at h
    cases hq : parserAfter b s.p with
    | some q => rw [rxRule_eq hq] at h; cases h; exact .byte i b q ha hf hi hh hq
    | none =>
      rcases rxRule_none hq with ⟨h3, -⟩ | ⟨h3, -⟩ | ⟨-, h4⟩
      · exact absurd (hs.symm.trans h3) hst2
      · exact absurd (hs.symm.trans h3) hst3
      · rw [h4] at h; cases h

theorem moved_of_receive {i : Instr} {bs : List Byte} {s t : State} (hi : encode i = some (.frame bs))
    (ha : i.agent = .reader) (h : receive bs s = .next t) : Moved s i t := by
  rcases receive_next h with rfl | rfl | ⟨u, rest, hh, hr, hl, rfl⟩
  · exact .result _ _
  · exact .result _ _
  · exact .received i bs u rest hi ha hh hr hl

theorem moved_of_issue {i : Instr} {cmd : U16} {p : List Byte} {s t : State} (ha : i.agent = .consumer)
    (h : issue cmd p s = .next t) : Moved s i t := by
  rcases issue_cases cmd p s with ⟨-, e⟩ | ⟨-, -, e⟩ | ⟨-, -, -, e⟩ | ⟨hh, -, bs, -, e⟩ <;> rw [e] at h <;> cases h
  · exact .result _ _
  · exact .result _ _
  · exact .result _ _
  · exact .issued i cmd bs ha hh

theorem moved_of_transmit {i : Instr} {v2 : Bool} {cmd : U16} {p : List Byte} {s t : State} (ha : i.agent = .consumer)
    (h : transmit v2 cmd p s = .next t) : Moved s i t := by
  unfold transmit at h
  rcases unlessHalted_cases s (if selectsV2 s.mux.usesV2 cmd.toNat = v2 then issue cmd p s else hold s) with
    ⟨-, e⟩ | ⟨-, e⟩ <;> rw [e] at h
  · cases h; exact .result _ _
  · split at h
    · exact moved_of_issue ha h
    · cases h; exact .result _ _

theorem moved_of_returnBytes {i : Instr} {o : Option (List Byte)} {s t : State} (h : returnBytes s o = .next t) :
    Moved s i t := by
  obtain ⟨r, e⟩ := returnBytes_next s o
  rw [e] at h; cases h
  exact .result _ _

/-- What an event that completes has done. -/
theorem exec_moved {i : Instr} {s t : State} (h : exec i s = .next t) : Moved s i t := by
  cases i with
  | frameV1Tx c p => exact moved_of_transmit rfl h
  | frameV2Tx c p => exact moved_of_transmit rfl h
  | frameV1RxResponse c p => exact moved_of_receive rfl rfl h
  | frameV1RxRequest c p => exact moved_of_receive rfl rfl h
  | frameV2RxResponse f c p => exact moved_of_receive rfl rfl h
  | frameV2RxRequest f c p => exact moved_of_receive rfl rfl h
  | rxStart =>
    refine moved_of_rxRow (b := Config.startByte) rfl (by simp [encode]) (by simp) ?_ (by simp) (by simp) h
    intro _ hs _; simp [rxRule, hs]
  | rxIgnore b =>
    refine moved_of_rxRow (b := b) rfl (by simp [encode]) (by simp) ?_ (by simp) (by simp) h
    intro _ hs hf; simp only [rxRule, hs]; rw [if_neg (bne_iff_ne.1 hf)]
  | rxTypeV1 =>
    refine moved_of_rxRow (b := Config.typeV1Byte) rfl (by simp [encode]) (by simp) ?_ (by simp) (by simp) h
    intro _ hs _; simp [rxRule, hs]
  | rxTypeV2 =>
    refine moved_of_rxRow (b := Config.typeV2Byte) rfl (by simp [encode]) (by simp) ?_ (by simp) (by simp) h
    intro _ hs _; simp [rxRule, hs]
  | rxTypeAbort b =>
    refine moved_of_rxRow (b := b) rfl (by simp [encode]) (by simp) ?_ (by simp) (by simp) h
    intro _ hs hf
    rw [Bool.and_eq_true] at hf
    simp only [rxRule, hs]
    rw [if_neg (bne_iff_ne.1 hf.1), if_neg (bne_iff_ne.1 hf.2)]
  | rxDirV1Response =>
    refine moved_of_rxRow (b := Config.dirResponse) rfl (by simp [encode]) (by simp) ?_ (by simp) (by simp) h
    intro _ hs _; simp [rxRule, hs]
  | rxDirV1Request =>
    refine moved_of_rxRow (b := Config.dirRequest) rfl (by simp [encode]) (by simp) ?_ (by simp) (by simp) h
    intro _ hs _; simp [rxRule, hs]
  | rxDirV1Abort b =>
    refine moved_of_rxRow (b := b) rfl (by simp [encode]) (by simp) ?_ (by simp) (by simp) h
    intro _ hs hf
    rw [Bool.and_eq_true] at hf
    simp only [rxRule, hs]
    rw [if_neg (bne_iff_ne.1 hf.1), if_neg (bne_iff_ne.1 hf.2)]
  | rxV1Len l =>
    exact moved_of_rxRow (b := l) rfl (by simp [encode]) (by simp) (by intro _ hs _; simp [rxRule, hs])
      (by simp) (by simp) h
  | rxV1Cmd c =>
    exact moved_of_rxRow (b := c) rfl (by simp [encode]) (by simp) (by intro _ hs _; simp [rxRule, hs])
      (by simp) (by simp) h
  | rxDirV2Response =>
    refine moved_of_rxRow (b := Config.dirResponse) rfl (by simp [encode]) (by simp) ?_ (by simp) (by simp) h
    intro _ hs _; simp [rxRule, hs]
  | rxDirV2Request =>
    refine moved_of_rxRow (b := Config.dirRequest) rfl (by simp [encode]) (by simp) ?_ (by simp) (by simp) h
    intro _ hs _; simp [rxRule, hs]
  | rxDirV2Abort b =>
    refine moved_of_rxRow (b := b) rfl (by simp [encode]) (by simp) ?_ (by simp) (by simp) h
    intro _ hs hf
    rw [Bool.and_eq_true] at hf
    simp only [rxRule, hs]
    rw [if_neg (bne_iff_ne.1 hf.1), if_neg (bne_iff_ne.1 hf.2)]
  | rxV2Flags f =>
    exact moved_of_rxRow (b := f) rfl (by simp [encode]) (by simp) (by intro _ hs _; simp [rxRule, hs])
      (by simp) (by simp) h
  | rxV2CmdLo c =>
    exact moved_of_rxRow (b := c) rfl (by simp [encode]) (by simp) (by intro _ hs _; simp [rxRule, hs])
      (by simp) (by simp) h
  | rxV2CmdHi c =>
    exact moved_of_rxRow (b := c) rfl (by simp [encode]) (by simp) (by intro _ hs _; simp [rxRule, hs])
      (by simp) (by simp) h
  | rxV2LenLo l =>
    exact moved_of_rxRow (b := l) rfl (by simp [encode]) (by simp) (by intro _ hs _; simp [rxRule, hs])
      (by simp) (by simp) h
  | rxV2LenHi l =>
    exact moved_of_rxRow (b := l) rfl (by simp [encode]) (by simp) (by intro _ hs _; simp [rxRule, hs])
      (by simp) (by simp) h
  | rxPayload d =>
    exact moved_of_rxRow (b := d) rfl (by simp [encode]) (by simp) (by intro _ hs _; simp [rxRule, hs])
      (by simp) (by simp) h
  | rxChecksumGood k =>
    refine moved_of_rxRow (b := k) rfl (by simp [encode]) (by simp) ?_ (by simp) (by simp) h
    intro _ hs hf; simp [rxRule, hs, eq_of_beq hf]
  | rxChecksumBad k =>
    refine moved_of_rxRow (b := k) rfl (by simp [encode]) (by simp) ?_ (by simp) (by simp) h
    intro _ hs hf; simp [rxRule, hs, bne_iff_ne.1 hf]
  | apiVersion => exact moved_of_issue rfl h
  | fcVariant => exact moved_of_issue rfl h
  | fcVersion => exact moved_of_issue rfl h
  | boardInfo => exact moved_of_issue rfl h
  | buildInfo => exact moved_of_issue rfl h
  | name => exact moved_of_issue rfl h
  | status => exact moved_of_issue rfl h
  | rc => exact moved_of_issue rfl h
  | statusEx => exact moved_of_issue rfl h
  | setRawRc => exact moved_of_issue rfl h
  | inavStatus2 => exact moved_of_issue rfl h
  | reset => cases h; exact .reset
  | rxByte b =>
    have h : unlessHalted s (rxRule b s) = .next t := h
    rcases unlessHalted_cases s (rxRule b s) with ⟨-, e⟩ | ⟨hh, e⟩ <;> rw [e] at h
    · cases h; exact .result _ _
    · cases hq : parserAfter b s.p with
      | some q =>
        rw [rxRule_eq hq] at h; cases h
        exact .byte _ b q rfl (by simp [encode]) (by simp) hh hq
      | none =>
        rcases rxRule_none hq with ⟨-, e⟩ | ⟨-, e⟩ | ⟨-, e⟩ <;> rw [e] at h <;> cases h
        · exact .result _ _
        · exact .result _ _
  | deliver =>
    have h : execDeliver s = .next t := h
    rcases execDeliver_cases s with ⟨he, e⟩ | ⟨-, e⟩ <;> rw [e] at h <;> cases h
    · exact .deliver he
    · exact .result _ _
  | rxFail =>
    have h : unlessHalted s (enterHalt s) = .next t := h
    rcases unlessHalted_cases s (enterHalt s) with ⟨-, e⟩ | ⟨hh, e⟩ <;> rw [e] at h
    · cases h; exact .result _ _
    · cases h; exact .lost hh
  | issue cmd p => exact moved_of_issue rfl h
  | take =>
    have h : execTake s = .next t := h
    rcases execTake_cases s with ⟨-, e⟩ | ⟨-, -, e⟩ | ⟨hh, hf, e⟩ <;> rw [e] at h
    · cases h; exact .result _ _
    · cases h; exact .result _ _
    · rw [takeFrame_eq] at h; cases h; exact .taken hh hf
  | cfgSetV2 v =>
    have h : unlessHalted s (finish (s.setMux { s.mux with usesV2 := v }) .ok) = .next t := h
    rcases unlessHalted_cases s (finish (s.setMux { s.mux with usesV2 := v }) .ok) with ⟨-, e⟩ | ⟨hh, e⟩ <;>
      rw [e] at h <;> cases h
    · exact .result _ _
    · exact .configured v hh
  | txDrain n =>
    have h : execTxDrain n s = .next t := h
    rcases execTxDrain_cases n s with ⟨-, e⟩ | ⟨-, -, e⟩ | ⟨hh, h1, h2, e⟩ <;> rw [e] at h <;> cases h
    · exact .result _ _
    · exact .result _ _
    · exact .drained n hh h1 h2
  | encodeV1 cmd p => exact moved_of_returnBytes h
  | encodeV2 cmd p => exact moved_of_returnBytes h
  | encode u cmd p => exact moved_of_returnBytes h

/-! A step. -/

/-- The two states agree on the block's own tuple (10_state.md R10). -/
structure SameBlock (s t : State) : Prop where
  p : t.p = s.p
  slot : t.slot = s.slot
  mux : t.mux = s.mux
  fifo : t.fifo = s.fifo
  halted : t.halted = s.halted
  obs : t.obs = s.obs

theorem SameBlock.refl (s : State) : SameBlock s s := ⟨rfl, rfl, rfl, rfl, rfl, rfl⟩

/-- The documented host's bookkeeping leaves the block alone. -/
theorem sameBlock_hostAfter (ph : HostPhase) (t : State) : SameBlock t (hostAfter ph t) := by
  unfold hostAfter
  split <;> exact ⟨rfl, rfl, rfl, rfl, rfl, rfl⟩

/-- The state moved by one event on a state that agrees with the old one in the block's tuple; after it only inputs and the
host's data were touched. -/
def MovedBy (i : Instr) (s t : State) : Prop :=
  ∃ s' u, SameBlock s s' ∧ exec i s' = .next u ∧ SameBlock u t

theorem movedBy_of_exec {i : Instr} {s t : State} (h : exec i s = .next t) : MovedBy i s t :=
  ⟨s, t, .refl s, h, .refl t⟩

/-- The documented host performs events of the consumer only (44_host_sequences.md R150). -/
theorem hostEvent_consumerMay {h : HostRegs} {ph : HostPhase} {i : Instr} (he : hostEvent h ph = some i) :
    i.consumerMay = true := by
  cases ph <;> simp only [hostEvent, Option.some.injEq, reduceCtorEq, Option.ite_none_left_eq_some] at he
  case statusAsk => subst he; cases selectStatus h.apiVersionRaw h.firmwareVersion <;> rfl
  case loopTop => obtain ⟨-, rfl⟩ := he; rfl
  all_goals subst he; rfl

/-- The reader's turn: no read has returned, or one event runs. -/
theorem runRx_cases {s t : State} (h : runRx s = .next t) :
    (s.io.rx = [] ∧ t = s) ∨ (∃ b rest, s.io.rx = .byte b :: rest ∧ MovedBy (rxInstr s b) s t) ∨
      ∃ bs rest, s.io.rx = .fail bs :: rest ∧ MovedBy .rxFail s t := by
  have keep : ∀ i rest, keepRx s.io.rx (exec i (s.setRx rest)) = .next t → MovedBy i s t := by
    intro i rest h
    cases hu : exec i (s.setRx rest) with
    | next u =>
      refine ⟨s.setRx rest, u, ⟨rfl, rfl, rfl, rfl, rfl, rfl⟩, hu, ?_⟩
      rw [hu] at h
      simp only [keepRx] at h
      split at h <;> cases h <;> exact ⟨rfl, rfl, rfl, rfl, rfl, rfl⟩
    | fault r => rw [hu] at h; cases h
    | refused r => rw [hu] at h; cases h
  unfold runRx at h
  split at h
  · rename_i hrx; cases h; exact .inl ⟨hrx, rfl⟩
  · rename_i b rest hrx; exact .inr (.inl ⟨b, rest, hrx, keep _ _ h⟩)
  · rename_i bs rest hrx; exact .inr (.inr ⟨bs, rest, hrx, keep _ _ h⟩)

/-- The consumer's turn: it performs no event, or one of its own. -/
theorem runConsumer_cases {s t : State} (h : runConsumer s = .next t) :
    SameBlock s t ∨ ∃ i, i.consumerMay = true ∧ MovedBy i s t := by
  unfold runConsumer at h
  split at h
  · cases h; exact .inl (.refl s)
  · rename_i i rest _
    split at h
    · refine .inr ⟨i, ‹_›, ?_⟩
      cases hu : exec i (s.setConsumer (.calls rest)) with
      | next u =>
        refine ⟨s.setConsumer (.calls rest), u, ⟨rfl, rfl, rfl, rfl, rfl, rfl⟩, hu, ?_⟩
        rw [hu] at h
        simp only [keepCall] at h
        split at h <;> cases h <;> exact ⟨rfl, rfl, rfl, rfl, rfl, rfl⟩
      | fault r => rw [hu] at h; cases h
      | refused r => rw [hu] at h; cases h
    · cases h
  · rename_i ph _
    split at h
    · cases h; exact .inl ⟨rfl, rfl, rfl, rfl, rfl, rfl⟩
    · rename_i i he
      refine .inr ⟨i, hostEvent_consumerMay he, ?_⟩
      cases hu : exec i s with
      | next u => rw [hu] at h; cases h; exact ⟨s, u, .refl s, hu, sameBlock_hostAfter ph u⟩
      | fault r => rw [hu] at h; cases h
      | refused r => rw [hu] at h; cases h

/-- The call the consumer is suspended in: the first of its list, or the documented host's event. -/
theorem heldCall_eq_some (s : State) (i : Instr) :
    heldCall s = some i ↔ s.io.waiting = true ∧ ((∃ rest, s.io.consumer = .calls (i :: rest)) ∨
      ∃ ph, s.io.consumer = .host ph ∧ hostEvent s.host ph = some i) := by
  unfold heldCall
  cases s.io.waiting
  · simp
  · rcases s.io.consumer with (_ | ⟨j, rest⟩) | ph <;> simp

@[simp] theorem heldCall_setSchedule (s : State) (v : List Turn) : heldCall (s.setSchedule v) = heldCall s := rfl

/-- An offered event: run as it is, or on the consumer's turn. -/
theorem runOffered_cases (i : Instr) (s : State) :
    (i.consumerMay = true ∧ s.io.consumer = .calls [] ∧ runOffered i s = runConsumer (s.setConsumer (.calls [i]))) ∨
      (i.consumerMay = true ∧ s.io.consumer ≠ .calls [] ∧ heldCall s = some i ∧ runOffered i s = runConsumer s) ∨
      ((i.consumerMay = false ∨ s.io.consumer ≠ .calls [] ∧ heldCall s ≠ some i) ∧ runOffered i s = exec i s) := by
  unfold runOffered
  cases hm : i.consumerMay
  · exact .inr (.inr ⟨.inl rfl, rfl⟩)
  · by_cases hc : s.io.consumer = .calls []
    · exact .inl ⟨rfl, hc, by rw [if_pos hc]; rfl⟩
    · by_cases hh : heldCall s = some i
      · exact .inr (.inl ⟨rfl, hc, hh, by rw [if_neg hc, if_pos hh]; rfl⟩)
      · exact .inr (.inr ⟨.inr ⟨hc, hh⟩, by rw [if_neg hc, if_neg hh]; rfl⟩)

/-- An offered event that completes leaves the block alone, or moves it by an event; by itself, if it is no event of the
consumer. -/
theorem runOffered_next {i : Instr} {s t : State} (h : runOffered i s = .next t) :
    SameBlock s t ∨ MovedBy i s t ∨ ∃ j, i.consumerMay = true ∧ j.consumerMay = true ∧ MovedBy j s t := by
  rcases runOffered_cases i s with ⟨hm, -, e⟩ | ⟨hm, -, -, e⟩ | ⟨-, e⟩ <;> rw [e] at h
  · rcases runConsumer_cases h with h | ⟨j, hj, s', u, h1, h2, h3⟩
    · exact .inl ⟨h.p, h.slot, h.mux, h.fifo, h.halted, h.obs⟩
    · exact .inr (.inr ⟨j, hm, hj, s', u, ⟨h1.p, h1.slot, h1.mux, h1.fifo, h1.halted, h1.obs⟩, h2, h3⟩)
  · rcases runConsumer_cases h with h | ⟨j, hj, h⟩
    · exact .inl h
    · exact .inr (.inr ⟨j, hm, hj, h⟩)
  · exact .inr (.inl (movedBy_of_exec h))

/-- A step leaves the block alone, or runs one event on a state that agrees with the old one in the block's tuple, the
host's data and the result, and then touches only inputs and the host's data. -/
theorem step_cases {s t : State} (h : step s = .next t) : SameBlock s t ∨ ∃ i, MovedBy i s t := by
  unfold step at h
  split at h
  · cases h; exact .inl (.refl s)
  · rename_i turn rest _
    have lift : (SameBlock (s.setSchedule rest) t ∨ ∃ i, MovedBy i (s.setSchedule rest) t) →
        SameBlock s t ∨ ∃ i, MovedBy i s t := by
      rintro (h | ⟨i, s', u, h1, h2, h3⟩)
      · exact .inl ⟨h.p, h.slot, h.mux, h.fifo, h.halted, h.obs⟩
      · exact .inr ⟨i, s', u, ⟨h1.p, h1.slot, h1.mux, h1.fifo, h1.halted, h1.obs⟩, h2, h3⟩
    have offered : ∀ {i}, runOffered i (s.setSchedule rest) = .next t →
        SameBlock (s.setSchedule rest) t ∨ ∃ i, MovedBy i (s.setSchedule rest) t := by
      intro i h
      rcases runOffered_next h with h | h | ⟨j, -, -, h⟩
      · exact .inl h
      · exact .inr ⟨i, h⟩
      · exact .inr ⟨j, h⟩
    apply lift
    cases turn with
    | rx =>
      rcases runRx_cases h with ⟨-, rfl⟩ | ⟨b, r, -, h⟩ | ⟨bs, r, -, h⟩
      · exact .inl (.refl _)
      · exact .inr ⟨_, h⟩
      · exact .inr ⟨_, h⟩
    | consumer =>
      rcases runConsumer_cases h with h | ⟨i, -, h⟩
      · exact .inl h
      · exact .inr ⟨i, h⟩
    | offer i => exact offered h
    | word c =>
      simp only [runTurn, runWord] at h
      split at h
      · exact offered h
      · cases h

/-- An invariant of the block's own tuple that every event keeps is kept by every step. -/
theorem step_keeps {P : State → Prop} (hb : ∀ s t, SameBlock s t → P s → P t)
    (he : ∀ i s t, P s → exec i s = .next t → P t) {s t : State} (hs : P s) (h : step s = .next t) : P t := by
  rcases step_cases h with hsame | ⟨i, s', u, h1, h2, h3⟩
  · exact hb s t hsame hs
  · exact hb u t h3 (he i s' u (hb s s' h1 hs) h2)

end Sys2Proof.Machine
end

