-- ==== Sys2Proof/Laws/Parse.lean ====
section
/-! SUPPORT. What `settle` and `takeByte` do, and that the pseudo-operation `RX` (30_encoding.md R75) takes the bytes of a
frame one by one in this way, as far as they can be taken. -/

namespace Sys2Proof.Machine

theorem settle_of_enabled {s : State} (h : deliverEnabled s = true) : settle s = (deposit s).setResult .silent := by
  simp [settle, h, exec, execDeliver, after]

theorem settle_of_not_enabled {s : State} (h : deliverEnabled s = false) : settle s = s := by simp [settle, h]

/-- Both readings of "with a DELIVER taken as soon as it is enabled" agree but for the result. -/
theorem settle_setResult (s : State) (r : Result) : (settle s).setResult r = (deliverIfEnabled s).setResult r := by
  cases h : deliverEnabled s
  · simp [settle_of_not_enabled h, deliverIfEnabled, h]
  · simp [settle_of_enabled h, deliverIfEnabled, h]

/-- The rule of a byte does not read the last result. -/
theorem rxRule_setResult (b : Byte) (s : State) (r : Result) : rxRule b (s.setResult r) = rxRule b s := by
  cases hq : parserAfter b s.p with
  | some q => rw [rxRule_eq (s := s.setResult r) hq, rxRule_eq hq]; rfl
  | none =>
    rcases rxRule_none hq with ⟨h, e⟩ | ⟨h, e⟩ | ⟨h, e⟩ <;> rw [e] <;>
      rcases rxRule_none (s := s.setResult r) hq with ⟨h', e'⟩ | ⟨h', e'⟩ | ⟨h', e'⟩ <;> rw [e'] <;>
      first
        | rfl
        | (rw [State.setResult_p, h] at h'; cases h')

theorem byteEnabled_settle (s : State) : byteEnabled (settle s) = byteEnabled (deliverIfEnabled s) := by
  cases h : deliverEnabled s
  · simp [settle_of_not_enabled h, deliverIfEnabled, h]
  · simp [settle_of_enabled h, deliverIfEnabled, h, byteEnabled]

theorem rxRule_settle (b : Byte) (s : State) : rxRule b (settle s) = rxRule b (deliverIfEnabled s) := by
  rw [← rxRule_setResult b (settle s) .silent, settle_setResult, rxRule_setResult]

/-- A byte that can be taken: the state its rule gives. -/
theorem takeByte_eq {s t : State} {b : Byte} (he : byteEnabled (deliverIfEnabled s) = true)
    (hr : rxRule b (deliverIfEnabled s) = .next t) : takeByte s b = t := by
  have hh : (settle s).halted = false := ((byteEnabled_iff _).1 ((byteEnabled_settle s).trans he)).1
  simp [takeByte, exec, execRxByte, hh, rxRule_settle, hr, after]

/-- `RX` on a byte sequence: the bytes it takes are a prefix, each of which can be taken in its turn; the state it reaches
is the one `takeByte` reaches on them, settled (but for the result); what is left, if anything, cannot be taken there. -/
theorem rxBytes_takeByte : ∀ (bs : List Byte) (s u : State) (rest : List Byte), rxBytes bs s = .next (u, rest) →
    ∃ bytes : List Byte, bs = bytes ++ rest ∧
      (∀ k, k < bytes.length → byteEnabled (settle ((bytes.take k).foldl takeByte s)) = true) ∧
      (rest = [] ∨ byteEnabled (settle (bytes.foldl takeByte s)) = false) ∧
      ∀ r, u.setResult r = (settle (bytes.foldl takeByte s)).setResult r := by
  intro bs
  induction bs with
  | nil =>
    intro s u rest h
    simp only [rxBytes, Host.Outcome.next.injEq, Prod.mk.injEq] at h
    obtain ⟨rfl, rfl⟩ := h
    exact ⟨[], rfl, by simp, .inl rfl, fun r => (settle_setResult s r).symm⟩
  | cons b bs ih =>
    intro s u rest h
    simp only [rxBytes] at h
    split at h
    · rename_i he
      cases hr : rxRule b (deliverIfEnabled s) with
      | next s2 =>
        rw [hr] at h
        obtain ⟨bytes, h1, h2, h3, h4⟩ := ih s2 u rest h
        have e : takeByte s b = s2 := takeByte_eq he hr
        refine ⟨b :: bytes, by rw [h1]; rfl, ?_, by rw [List.foldl_cons, e]; exact h3, fun r => ?_⟩
        · intro k hk
          cases k with
          | zero => rw [List.take_zero, List.foldl_nil, byteEnabled_settle]; exact he
          | succ k =>
            rw [List.take_succ_cons, List.foldl_cons, e]
            exact h2 k (by simpa using hk)
        · rw [List.foldl_cons, e]; exact h4 r
      | fault r => rw [hr] at h; cases h
      | refused r => rw [hr] at h; cases h
    · rename_i he
      simp only [Host.Outcome.next.injEq, Prod.mk.injEq] at h
      obtain ⟨rfl, rfl⟩ := h
      refine ⟨[], rfl, by simp, .inr ?_, fun r => (settle_setResult s r).symm⟩
      rw [List.foldl_nil, byteEnabled_settle]
      simpa using he

/-- The flags byte under reception changes only by a byte taken in `WAIT_FLAGS` (R107). -/
@[simp] theorem flagsAfter_nil (s : State) (f : Byte) : flagsAfter [] s f = f := rfl

theorem flagsAfter_cons (b : Byte) (bs : List Byte) (s : State) (f : Byte) :
    flagsAfter (b :: bs) s f = flagsAfter bs (takeByte s b) (if s.p.state = .waitFlags then b else f) := rfl

theorem flagsAfter_append (bs cs : List Byte) (s : State) (f : Byte) :
    flagsAfter (bs ++ cs) s f = flagsAfter cs (bs.foldl takeByte s) (flagsAfter bs s f) := by
  induction bs generalizing s f with
  | nil => rfl
  | cons b bs ih => exact ih _ _

end Sys2Proof.Machine
end

