-- ==== Sys2Proof/Tests/Slice0.lean ====
section
/-! SUPPORT. Tests: the checks of WellFormed.lean, the decoder on words written out from the spec's tables, one step of
each instruction on a small state (expected values from 95_test_vectors.md or worked out from the rule named), and for
every obligation with hypotheses a state and operands that meet them. -/

namespace Sys2Proof.Tests

open Sys2Proof.Machine

/-! Small states. -/

/-- The reset state with the parser in a given state. -/
def inState (st : PState) : State := State.reset.setP (State.reset.p.goto st)

/-- A frame in the slot. -/
def withFrame (f : Frame) (s : State) : State := s.setSlot ⟨true, f⟩

/-- A request with this command id outstanding. -/
def asking (cmd : U16) (s : State) : State := s.setMux { s.mux with awaiting := true, lastCmd := cmd }

/-- V2 requests selected. -/
def usingV2 (s : State) : State := s.setMux { s.mux with usesV2 := true }

def haltedState : State := (inState .halted).setHalted true

/-- The answer to `API_VERSION` of vector M-3. -/
def frameM3 : Frame := ⟨true, 3, 1, [0x00, 0x02, 0x00]⟩

/-- The parser of trace P-1 after six bytes. -/
def collecting : State :=
  State.reset.setP ⟨.collectPayload, .v1, true, 3, 1, 1, 0x02, [(0, 0x00)]⟩

/-- The parser of trace P-1 before its checksum byte. -/
def beforeChecksum : State :=
  State.reset.setP ⟨.waitChecksum, .v1, true, 3, 1, 3, 0x00, [(0, 0x00), (1, 0x02), (2, 0x00)]⟩

/-- The same frame validated. -/
def validated : State := beforeChecksum.setP (beforeChecksum.p.goto .holdDeliver)

/-- A V1 frame with id 0x24 and no payload before its checksum byte, and the slot full. -/
def idDollar : State := withFrame frameM3 (State.reset.setP ⟨.waitChecksum, .v1, true, 0, 0x24, 0, 0x24, []⟩)

/-- Does the event complete, with this true of the next state? -/
def holds (o : Out) (f : State → Bool) : Bool :=
  match o with
  | .next t => f t
  | .fault _ => false
  | .refused _ => false

/-! WellFormed: one ill-formed term for each check. -/

theorem test_wf_frameV1Tx : (Instr.frameV1Tx 1 (List.replicate 256 0)).wellFormed = false := by
  simp only [Instr.wellFormed, List.length_replicate]; decide
theorem test_wf_frameV2Tx : (Instr.frameV2Tx 1 (List.replicate 65536 0)).wellFormed = false := by
  simp only [Instr.wellFormed, List.length_replicate]; decide
theorem test_wf_frameV1RxResponse : (Instr.frameV1RxResponse 1 (List.replicate 256 0)).wellFormed = false := by
  simp only [Instr.wellFormed, List.length_replicate]; decide
theorem test_wf_frameV1RxRequest : (Instr.frameV1RxRequest 1 (List.replicate 256 0)).wellFormed = false := by
  simp only [Instr.wellFormed, List.length_replicate]; decide
theorem test_wf_frameV2RxResponse : (Instr.frameV2RxResponse 0 1 (List.replicate 65536 0)).wellFormed = false := by
  simp only [Instr.wellFormed, List.length_replicate]; decide
theorem test_wf_frameV2RxRequest : (Instr.frameV2RxRequest 0 1 (List.replicate 65536 0)).wellFormed = false := by
  simp only [Instr.wellFormed, List.length_replicate]; decide
theorem test_wf_issue : (Instr.issue 1 (List.replicate 65536 0)).wellFormed = false := by
  simp only [Instr.wellFormed, List.length_replicate]; decide
theorem test_wf_rxIgnore : (Instr.rxIgnore 0x24).wellFormed = false := by decide
theorem test_wf_rxTypeAbort :
    (Instr.rxTypeAbort 0x4D).wellFormed = false ∧ (Instr.rxTypeAbort 0x58).wellFormed = false := by decide
theorem test_wf_rxDirV1Abort :
    (Instr.rxDirV1Abort 0x3E).wellFormed = false ∧ (Instr.rxDirV1Abort 0x21).wellFormed = false := by decide
theorem test_wf_rxDirV2Abort :
    (Instr.rxDirV2Abort 0x3E).wellFormed = false ∧ (Instr.rxDirV2Abort 0x21).wellFormed = false := by decide
theorem test_wf_txDrain : (Instr.txDrain 0).wellFormed = false := by decide
theorem test_wf_checksum_rows_need_acc :
    (Instr.rxChecksumGood 0x6D).fitsAcc 0x6C = false ∧ (Instr.rxChecksumBad 0x6C).fitsAcc 0x6C = false := by decide
theorem test_wf_accepts_boundaries :
    (Instr.frameV1Tx 255 (List.replicate 255 0)).wellFormed = true ∧
      (Instr.frameV2RxRequest 0xFF 0xFFFF (List.replicate 65535 0)).wellFormed = true ∧
      (Instr.txDrain 1).wellFormed = true := by
  simp only [Instr.wellFormed, List.length_replicate]; decide

/-! Decoding: words written out from the tables of R61, R62 (frames; bytes of 95_test_vectors.md E-5, E-6, P-1, P-3, P-4
and P-13), R68 (byte classes) and R71 (command ids). -/

theorem test_decode_frames :
    ∀ x ∈ [
      ([0x24, 0x4D, 0x3C, 0x03, 0xC8, 0x01, 0x02, 0x03, 0xCB], Instr.frameV1Tx 200 [1, 2, 3]),
      ([0x24, 0x58, 0x3C, 0x00, 0xC8, 0x00, 0x03, 0x00, 0x01, 0x02, 0x03, 0x2A], .frameV2Tx 200 [1, 2, 3]),
      ([0x24, 0x4D, 0x3E, 0x03, 0x01, 0x00, 0x02, 0x00, 0x00], .frameV1RxResponse 1 [0, 2, 0]),
      ([0x24, 0x4D, 0x21, 0x04, 0x69, 0xDC, 0x05, 0xDC, 0x05, 0x6D], .frameV1RxRequest 0x69 [0xDC, 5, 0xDC, 5]),
      ([0x24, 0x58, 0x3E, 0x5A, 0x03, 0x00, 0x03, 0x00, 0x01, 0x09, 0x00, 0x0B], .frameV2RxResponse 0x5A 3 [1, 9, 0]),
      ([0x24, 0x58, 0x21, 0x00, 0x69, 0x00, 0x00, 0x00, 0x5C], .frameV2RxRequest 0 0x69 [])],
      decode 0 (.frame x.1) = .ok x.2 := by decide +kernel

theorem test_decode_rx_bytes :
    ∀ x ∈ [
      (PState.waitStart, (0x24 : Byte), Instr.rxStart), (.waitStart, 0x25, .rxIgnore 0x25),
      (.waitType, 0x4D, .rxTypeV1), (.waitType, 0x58, .rxTypeV2), (.waitType, 0x24, .rxTypeAbort 0x24),
      (.waitDirection, 0x3E, .rxDirV1Response), (.waitDirection, 0x21, .rxDirV1Request),
      (.waitDirection, 0x3C, .rxDirV1Abort 0x3C), (.waitLen, 0x24, .rxV1Len 0x24), (.waitCmd, 0x01, .rxV1Cmd 0x01),
      (.waitXDirection, 0x3E, .rxDirV2Response), (.waitXDirection, 0x21, .rxDirV2Request),
      (.waitXDirection, 0x3C, .rxDirV2Abort 0x3C), (.waitFlags, 0x5A, .rxV2Flags 0x5A),
      (.waitCmdLo, 0x01, .rxV2CmdLo 0x01), (.waitCmdHi, 0x20, .rxV2CmdHi 0x20), (.waitLenLo, 0x04, .rxV2LenLo 0x04),
      (.waitLenHi, 0x01, .rxV2LenHi 0x01), (.collectPayload, 0x24, .rxPayload 0x24),
      (.waitChecksum, 0x6C, .rxChecksumGood 0x6C), (.waitChecksum, 0x6D, .rxChecksumBad 0x6D)],
      decode 0x6C (.rxByte x.1 x.2.1) = .ok x.2.2 := by decide

theorem test_decode_command_ids :
    ∀ x ∈ [
      ((1 : U16), Instr.apiVersion), (2, .fcVariant), (3, .fcVersion), (4, .boardInfo), (5, .buildInfo), (10, .name),
      (101, .status), (105, .rc), (150, .statusEx), (200, .setRawRc), (0x2000, .inavStatus2)],
      decode 0 (.commandId x.1) = .ok x.2 := by decide

/-- The rejections, each by its name. -/
theorem test_decode_rejects :
    ∀ x ∈ [
      (Code.frame [0x24, 0x4D, 0x3C, 0x00, 0x01], DecodeError.truncated), (.frame [0x25, 0x4D, 0x3C, 0, 1, 1], .badStart),
      (.frame [0x24, 0x6D, 0x3E, 0, 1, 1], .badType), (.frame [0x24, 0x4D, 0x3D, 0, 1, 1], .badDirection),
      (.frame [0x24, 0x58, 0x3C, 0x5A, 0x03, 0x00, 0x03, 0x00, 0x01, 0x09, 0x00, 0x0B], .badFlags),
      (.frame [0x24, 0x4D, 0x3C, 0x00, 0x01, 0x02], .badChecksum), (.frame [0x24, 0x4D, 0x3C, 0, 1, 1, 0], .trailingBytes),
      (.commandId 7, .commandIdNotInTable), (.rxByte .holdDeliver 0x24, .noByteTaken), (.rxByte .halted 0x24, .noByteTaken)],
      decode 0 x.1 = .error x.2 := by decide +kernel

/-- The eleven events have no coded form (R73). -/
theorem test_encode_events_none :
    ∀ i ∈ [Instr.reset, .rxByte 0x24, .deliver, .rxFail, .issue 1 [], .take, .cfgSetV2 true, .txDrain 1,
      .encodeV1 1 [], .encodeV2 1 [], .encode true 1 []], encode i = none := by decide

/-- A table word placed by `withFetchWord` is what the next step runs: a received frame, a byte, a command id. -/
theorem test_withFetchWord_runs :
    holds (step (State.reset.withFetchWord 24 0x24583E)) (fun t => t.slot.full && t.slot.frame.length == 0) = true ∧
    holds (step (State.reset.withFetchWord 8 0x58)) (fun t => t.p.state == .waitXDirection && t.io.rx.isEmpty) = true ∧
    holds (step (State.reset.withFetchWord 16 0x0069)) (fun t => t.mux.lastCmd == 0x69) = true ∧
    holds (step (State.reset.withFetchWord 32 0x24583C00)) (fun t => t.fifo.length == 9) = true := by decide +kernel

/-! Checksums: vectors K-1, K-3, and the table of R87, row by row. -/

theorem test_xor8 : xor8Frame 0x04 0x69 [0xDC, 0x05, 0xDC, 0x05] = 0x6D ∧ xor8Frame 0x00 0xFF [] = 0xFF := by decide

theorem test_crc8 :
    crc8 [0x31, 0x32, 0x33, 0x34, 0x35, 0x36, 0x37, 0x38, 0x39] = 0xBC ∧ crc8 [0x01, 0x00] = 0x0B ∧
      crc8 [0x00, 0x01] = 0xD5 ∧ crc8 [] = 0x00 := by decide +kernel

/-- Rows 0 to 7 of the table of R87. -/
def crcRowsLow : List (List Byte) := [
  [0x00, 0xD5, 0x7F, 0xAA, 0xFE, 0x2B, 0x81, 0x54, 0x29, 0xFC, 0x56, 0x83, 0xD7, 0x02, 0xA8, 0x7D],
  [0x52, 0x87, 0x2D, 0xF8, 0xAC, 0x79, 0xD3, 0x06, 0x7B, 0xAE, 0x04, 0xD1, 0x85, 0x50, 0xFA, 0x2F],
  [0xA4, 0x71, 0xDB, 0x0E, 0x5A, 0x8F, 0x25, 0xF0, 0x8D, 0x58, 0xF2, 0x27, 0x73, 0xA6, 0x0C, 0xD9],
  [0xF6, 0x23, 0x89, 0x5C, 0x08, 0xDD, 0x77, 0xA2, 0xDF, 0x0A, 0xA0, 0x75, 0x21, 0xF4, 0x5E, 0x8B],
  [0x9D, 0x48, 0xE2, 0x37, 0x63, 0xB6, 0x1C, 0xC9, 0xB4, 0x61, 0xCB, 0x1E, 0x4A, 0x9F, 0x35, 0xE0],
  [0xCF, 0x1A, 0xB0, 0x65, 0x31, 0xE4, 0x4E, 0x9B, 0xE6, 0x33, 0x99, 0x4C, 0x18, 0xCD, 0x67, 0xB2],
  [0x39, 0xEC, 0x46, 0x93, 0xC7, 0x12, 0xB8, 0x6D, 0x10, 0xC5, 0x6F, 0xBA, 0xEE, 0x3B, 0x91, 0x44],
  [0x6B, 0xBE, 0x14, 0xC1, 0x95, 0x40, 0xEA, 0x3F, 0x42, 0x97, 0x3D, 0xE8, 0xBC, 0x69, 0xC3, 0x16]]

/-- Rows 8 to F. -/
def crcRowsHigh : List (List Byte) := [
  [0xEF, 0x3A, 0x90, 0x45, 0x11, 0xC4, 0x6E, 0xBB, 0xC6, 0x13, 0xB9, 0x6C, 0x38, 0xED, 0x47, 0x92],
  [0xBD, 0x68, 0xC2, 0x17, 0x43, 0x96, 0x3C, 0xE9, 0x94, 0x41, 0xEB, 0x3E, 0x6A, 0xBF, 0x15, 0xC0],
  [0x4B, 0x9E, 0x34, 0xE1, 0xB5, 0x60, 0xCA, 0x1F, 0x62, 0xB7, 0x1D, 0xC8, 0x9C, 0x49, 0xE3, 0x36],
  [0x19, 0xCC, 0x66, 0xB3, 0xE7, 0x32, 0x98, 0x4D, 0x30, 0xE5, 0x4F, 0x9A, 0xCE, 0x1B, 0xB1, 0x64],
  [0x72, 0xA7, 0x0D, 0xD8, 0x8C, 0x59, 0xF3, 0x26, 0x5B, 0x8E, 0x24, 0xF1, 0xA5, 0x70, 0xDA, 0x0F],
  [0x20, 0xF5, 0x5F, 0x8A, 0xDE, 0x0B, 0xA1, 0x74, 0x09, 0xDC, 0x76, 0xA3, 0xF7, 0x22, 0x88, 0x5D],
  [0xD6, 0x03, 0xA9, 0x7C, 0x28, 0xFD, 0x57, 0x82, 0xFF, 0x2A, 0x80, 0x55, 0x01, 0xD4, 0x7E, 0xAB],
  [0x84, 0x51, 0xFB, 0x2E, 0x7A, 0xAF, 0x05, 0xD0, 0xAD, 0x78, 0xD2, 0x07, 0x53, 0x86, 0x2C, 0xF9]]

theorem test_crc_table :
    (List.range 256).map (fun i => crc8Step 0x00 (BitVec.ofNat 8 i)) = (crcRowsLow ++ crcRowsHigh).flatten := by
  decide +kernel

/-! One step of each instruction. -/

/-- E-5, and not enabled when V2 is selected (log 6). -/
theorem test_frameV1Tx :
    holds (exec (.frameV1Tx 200 [1, 2, 3]) State.reset)
      (fun t => t.fifo == [0x24, 0x4D, 0x3C, 0x03, 0xC8, 0x01, 0x02, 0x03, 0xCB] && t.mux.lastCmd == 200) = true ∧
    holds (exec (.frameV1Tx 200 [1, 2, 3]) (usingV2 State.reset)) (fun t => t.result == .held) = true := by
  decide

/-- E-6, with V2 selected. -/
theorem test_frameV2Tx :
    holds (exec (.frameV2Tx 200 [1, 2, 3]) (usingV2 State.reset))
      (fun t => t.fifo == [0x24, 0x58, 0x3C, 0x00, 0xC8, 0x00, 0x03, 0x00, 0x01, 0x02, 0x03, 0x2A]) = true := by
  decide +kernel

/-- P-1. -/
theorem test_frameV1RxResponse :
    holds (exec (.frameV1RxResponse 1 [0, 2, 0]) State.reset)
      (fun t => t.slot == ⟨true, frameM3⟩ && t.p.acc == 0x00 && t.p.state == .waitStart) = true := by decide

/-- P-13. -/
theorem test_frameV1RxRequest :
    holds (exec (.frameV1RxRequest 0x69 [0xDC, 0x05, 0xDC, 0x05]) State.reset)
      (fun t => t.slot.frame == ⟨false, 4, 0x69, [0xDC, 0x05, 0xDC, 0x05]⟩ && t.obs == []) = true := by decide

/-- P-4: the flags enter the checksum only. -/
theorem test_frameV2RxResponse :
    holds (exec (.frameV2RxResponse 0x5A 3 [1, 9, 0]) State.reset)
      (fun t => t.slot.frame == ⟨true, 3, 3, [1, 9, 0]⟩ && t.p.acc == 0x0B) = true := by decide +kernel

/-- P-14: slot full. -/
theorem test_frameV2RxRequest :
    holds (exec (.frameV2RxRequest 0 0x69 []) (withFrame frameM3 State.reset))
      (fun t => t.p.state == .holdDeliver && t.slot.frame == frameM3 && t.p.acc == 0x5C) = true := by decide +kernel

/-- P-1, P-2 and P-7, byte by byte. -/
theorem test_rxStart : holds (exec .rxStart (inState .waitStart)) (fun t => t.p.state == .waitType) = true := by decide
theorem test_rxIgnore :
    holds (exec (.rxIgnore 0xFF) (inState .waitStart)) (fun t => t.p == State.reset.p && t.obs == []) = true := by decide
theorem test_rxTypeV1 :
    holds (exec .rxTypeV1 (inState .waitType)) (fun t => t.p.state == .waitDirection && t.p.variant == .v1) = true := by
  decide
theorem test_rxTypeV2 :
    holds (exec .rxTypeV2 (inState .waitType)) (fun t => t.p.state == .waitXDirection && t.p.variant == .v2) = true := by
  decide
theorem test_rxTypeAbort :
    holds (exec (.rxTypeAbort 0x24) (inState .waitType)) (fun t => t.p.state == .waitStart && t.obs == []) = true := by
  decide
theorem test_rxDirV1Response :
    holds (exec .rxDirV1Response (inState .waitDirection)) (fun t => t.p.state == .waitLen && t.p.isResponse) = true := by
  decide
theorem test_rxDirV1Request :
    holds (exec .rxDirV1Request (inState .waitDirection)) (fun t => t.p.state == .waitLen && !t.p.isResponse) = true := by
  decide
theorem test_rxDirV1Abort :
    holds (exec (.rxDirV1Abort 0x3C) (inState .waitDirection)) (fun t => t.p.state == .waitStart && t.obs == []) = true := by
  decide
theorem test_rxV1Len :
    holds (exec (.rxV1Len 0x24) (inState .waitLen))
      (fun t => t.p.state == .waitCmd && t.p.len == 36 && t.p.acc == 0x24) = true := by decide
theorem test_rxV1Cmd :
    holds (exec (.rxV1Cmd 0x01) (State.reset.setP ⟨.waitCmd, .v1, true, 3, 9, 7, 0x03, []⟩))
      (fun t => t.p == ⟨.collectPayload, .v1, true, 3, 1, 0, 0x02, []⟩) = true := by decide
theorem test_rxDirV2Response :
    holds (exec .rxDirV2Response (inState .waitXDirection)) (fun t => t.p.state == .waitFlags && t.p.isResponse) = true := by
  decide
theorem test_rxDirV2Request :
    holds (exec .rxDirV2Request (inState .waitXDirection)) (fun t => t.p.state == .waitFlags && !t.p.isResponse) = true := by
  decide
theorem test_rxDirV2Abort :
    holds (exec (.rxDirV2Abort 0x3C) (inState .waitXDirection)) (fun t => t.p.state == .waitStart) = true := by decide
theorem test_rxV2Flags :
    holds (exec (.rxV2Flags 0x5A) (inState .waitFlags)) (fun t => t.p.state == .waitCmdLo && t.p.acc == 0x99) = true := by
  decide
theorem test_rxV2CmdLo :
    holds (exec (.rxV2CmdLo 0x02) (State.reset.setP ⟨.waitCmdLo, .v2, true, 0, 0xABCD, 0, 0x00, []⟩))
      (fun t => t.p.state == .waitCmdHi && t.p.cmd == 0x0002 && t.p.acc == 0x7F) = true := by decide
theorem test_rxV2CmdHi :
    holds (exec (.rxV2CmdHi 0x20) (State.reset.setP ⟨.waitCmdHi, .v2, true, 0, 0x0000, 0, 0x00, []⟩))
      (fun t => t.p.state == .waitLenLo && t.p.cmd == 0x2000 && t.p.acc == 0xA4) = true := by decide
theorem test_rxV2LenLo :
    holds (exec (.rxV2LenLo 0x04) (State.reset.setP ⟨.waitLenLo, .v2, true, 0xFFFF, 0x2000, 0, 0xA4, []⟩))
      (fun t => t.p.state == .waitLenHi && t.p.len == 4 && t.p.acc == 0x4B) = true := by decide
/-- R111: `len_lo = 0x00, len_hi = 0x01` is 256 and collects a payload. -/
theorem test_rxV2LenHi :
    holds (exec (.rxV2LenHi 0x00) (State.reset.setP ⟨.waitLenHi, .v2, true, 4, 0x2000, 9, 0x4B, []⟩))
      (fun t => t.p.state == .collectPayload && t.p.len == 4 && t.p.acc == 0x1E && t.p.count == 0) = true ∧
    holds (exec (.rxV2LenHi 0x01) (State.reset.setP ⟨.waitLenHi, .v2, true, 0, 0x2000, 9, 0x00, []⟩))
      (fun t => t.p.state == .collectPayload && t.p.len == 256) = true := by decide
theorem test_rxPayload :
    holds (exec (.rxPayload 0x02) collecting)
      (fun t => t.p == ⟨.collectPayload, .v1, true, 3, 1, 2, 0x00, [(0, 0x00), (1, 0x02)]⟩) = true := by decide
theorem test_rxChecksumGood :
    holds (exec (.rxChecksumGood 0x00) beforeChecksum) (fun t => t.p.state == .holdDeliver && t.obs == []) = true := by
  decide
/-- R113's example: the last byte 0x01 instead. -/
theorem test_rxChecksumBad :
    holds (exec (.rxChecksumBad 0x01) beforeChecksum)
      (fun t => t.p.state == .waitStart && t.obs == [.checksumMismatch .v1 1 3 0x00 0x01]) = true := by decide

/-- E-1: the V1 request of each query row from reset; `INAV_STATUS2` goes out as V2. -/
theorem test_query_rows :
    ∀ x ∈ [(Instr.apiVersion, (0x01 : Byte)), (.fcVariant, 0x02), (.fcVersion, 0x03), (.boardInfo, 0x04),
      (.buildInfo, 0x05), (.name, 0x0A), (.status, 0x65), (.rc, 0x69), (.statusEx, 0x96)],
      holds (exec x.1 State.reset) (fun t => t.fifo == [0x24, 0x4D, 0x3C, 0x00, x.2, x.2] && t.mux.awaiting) = true := by
  decide
theorem test_inavStatus2 :
    holds (exec .inavStatus2 State.reset)
      (fun t => t.fifo == [0x24, 0x58, 0x3C, 0x00, 0x00, 0x20, 0x00, 0x00, 0x32] && t.mux.lastCmd == 0x2000) = true := by
  decide +kernel
/-- S-6, E-10: the map with channel 5 at 1200. -/
theorem test_setRawRc :
    holds (exec .setRawRc (State.reset.setHost { HostRegs.atReset with overrides := [(5, 1200)] }))
      (fun t => t.fifo.length == 42 && t.fifo.take 7 == [0x24, 0x4D, 0x3C, 0x24, 0xC8, 0xDF, 0x06] &&
        t.fifo[13]? == some 0xB0 && t.fifo[14]? == some 0x04 && t.fifo[41]? == some 0x81) = true := by decide

theorem test_reset : holds (exec .reset haltedState) (fun t => t == State.reset) = true := by decide
/-- G-2: held with the slot full and a validated frame waiting. -/
theorem test_rxByte :
    holds (exec (.rxByte 0x24) (withFrame frameM3 validated)) (fun t => t.result == .held) = true ∧
    holds (exec (.rxByte 0x24) (inState .waitType)) (fun t => t.p.state == .waitStart) = true := by decide
theorem test_deliver :
    holds (exec .deliver validated)
      (fun t => t.slot.full && t.slot.frame.cmd == 1 && t.slot.frame.length == 3 && t.p.state == .waitStart) = true ∧
    holds (exec .deliver (withFrame frameM3 validated)) (fun t => t.result == .held) = true := by decide
/-- G-4. -/
theorem test_rxFail :
    holds (exec .rxFail (asking 1 collecting))
      (fun t => t.halted && t.p.state == .halted && t.obs == [.transportLost] && t.mux.awaiting) = true := by decide
/-- M-1 and M-2. -/
theorem test_issue :
    holds (exec (.issue 1 []) State.reset) (fun t => t.fifo == [0x24, 0x4D, 0x3C, 0x00, 0x01, 0x01]) = true ∧
    holds (exec (.issue 2 []) (asking 1 State.reset))
      (fun t => t.result == .refused .refusedBusy && t.fifo == [] && t.mux.lastCmd == 1) = true := by decide
/-- M-3 and M-5. -/
theorem test_take :
    holds (exec .take (asking 1 (withFrame frameM3 State.reset)))
      (fun t => t.result == .taken frameM3 true && !t.mux.awaiting && !t.slot.full && t.obs == []) = true ∧
    holds (exec .take (asking 0x65 (withFrame frameM3 State.reset)))
      (fun t => t.result == .taken frameM3 false && t.obs == [.unsolicited 0x65 1 true]) = true := by decide
theorem test_cfgSetV2 : holds (exec (.cfgSetV2 true) State.reset) (fun t => t.mux.usesV2) = true := by decide
/-- M-1. -/
theorem test_txDrain :
    holds (exec (.txDrain 2) (State.reset.setFifo [0x24, 0x4D, 0x3C, 0x00, 0x01, 0x01]))
      (fun t => t.result == .bytes [0x24, 0x4D] && t.fifo == [0x3C, 0x00, 0x01, 0x01]) = true := by decide
/-- E-3 and E-14. -/
theorem test_encodeV1 :
    holds (exec (.encodeV1 255 []) State.reset) (fun t => t.result == .bytes [0x24, 0x4D, 0x3C, 0x00, 0xFF, 0xFF]) = true ∧
    holds (exec (.encodeV1 256 []) State.reset) (fun t => t.result == .refused .refusedRange) = true := by decide
/-- E-8 and E-14. -/
theorem test_encodeV2 :
    holds (exec (.encodeV2 0x1234 [0x24, 0x4D, 0x3E]) State.reset)
      (fun t => t.result == .bytes [0x24, 0x58, 0x3C, 0x00, 0x34, 0x12, 0x03, 0x00, 0x24, 0x4D, 0x3E, 0x77]) = true ∧
    holds (exec (.encodeV2 65536 []) State.reset) (fun t => t.result == .refused .refusedRange) = true := by decide +kernel
/-- E-15: the smallest id that forces V2. -/
theorem test_encode :
    holds (exec (.encode false 256 []) State.reset)
      (fun t => t.result == .bytes [0x24, 0x58, 0x3C, 0x00, 0x00, 0x01, 0x00, 0x00, 0x83]) = true ∧
    holds (exec (.encode false 255 []) State.reset)
      (fun t => t.result == .bytes [0x24, 0x4D, 0x3C, 0x00, 0xFF, 0xFF]) = true := by decide +kernel

/-! The documented host: vectors S-7, H-1, H-2. -/

theorem test_status_selection :
    selectStatus 0x0201 0x010900 = .inav ∧ selectStatus 0x0201 0x010800 = .extended ∧
      selectStatus 0x0201 0x010801 = .inav ∧ selectStatus 0x0200 0x010900 = .legacy := by decide
theorem test_rc_decode :
    rcDecode [0xDC, 0x05, 0xDC, 0x05, 0xE8, 0x03, 0xDC, 0x05, 0xB0, 0x04, 0xFF, 0xFF, 0x07] =
      [1500, 1500, 1000, 1500, 1200, -1] := by decide
/-- H-4, with the offsets of G-6. -/
theorem test_host_packing :
    apiVersionOf ⟨1, 2, 0, 1, 2⟩ [0x00, 0x01, 0x2A] = 0x012A ∧ apiSaysV2 ⟨1, 2, 0, 1, 2⟩ [0x00, 0x02, 0x00] = true ∧
      firmwareVersionOf ⟨1, 2, 0, 1, 2⟩ [0x01, 0x09, 0x00] = 0x010900 := by decide
/-- A step of the documented host from reset: the first request of the handshake (R152). -/
theorem test_host_first_request :
    holds (step (State.reset.setSchedule [.consumer]))
      (fun t => t.fifo == [0x24, 0x4D, 0x3C, 0x00, 0x01, 0x01] && t.io.consumer == .host .apiTake) = true := by
  decide

/-! Witnesses: for every obligation with hypotheses, a state and operands that meet them all. -/

theorem test_witness_ResetKeepsRxStreamAndReleasesConsumer :
    (∃ t, exec .reset ((State.reset.setConsumer (.calls [.take])).setWaiting true) = .next t) ∧
    (∃ t, exec .reset (State.reset.setConsumer (.calls [.take])) = .next t) ∧
    (∃ t, exec .reset (State.reset.setConsumer (.host .sleep)) = .next t) := ⟨⟨_, rfl⟩, ⟨_, rfl⟩, ⟨_, rfl⟩⟩

theorem test_witness_WaitStartAdvancesOrIgnores :
    (inState .waitStart).halted = false ∧ (inState .waitStart).p.state = .waitStart ∧ (0x23 : Byte) ≠ 0x24 ∧
      (0x25 : Byte) ≠ 0x24 := by decide

theorem test_witness_WaitTypeSelectsBranchOrAborts :
    (inState .waitType).halted = false ∧ (inState .waitType).p.state = .waitType ∧ (0x4E : Byte) ≠ 0x4D ∧
      (0x4E : Byte) ≠ 0x58 := by decide

theorem test_witness_V1DirectionSetsIsResponseOrAborts :
    (inState .waitDirection).halted = false ∧ (inState .waitDirection).p.state = .waitDirection ∧
      (0x3C : Byte) ≠ 0x3E ∧ (0x3C : Byte) ≠ 0x21 := by decide

theorem test_witness_V2DirectionSetsIsResponseOrAborts :
    (inState .waitXDirection).halted = false ∧ (inState .waitXDirection).p.state = .waitXDirection ∧
      (0x3C : Byte) ≠ 0x3E ∧ (0x3C : Byte) ≠ 0x21 := by decide

theorem test_witness_V1HeaderBytesSetLenCmdAcc :
    ∀ st ∈ [PState.waitLen, .waitCmd], (inState st).halted = false ∧ (inState st).p.state = st := by decide

theorem test_witness_V2HeaderBytesSetCmdLenAcc :
    ∀ st ∈ [PState.waitFlags, .waitCmdLo, .waitCmdHi, .waitLenLo, .waitLenHi],
      (inState st).halted = false ∧ (inState st).p.state = st := by decide

/-- The last index there is. -/
theorem test_witness_PayloadByteStoredAndSummed :
    let s := State.reset.setP ⟨.collectPayload, .v2, true, 65535, 1, 65534, 0, []⟩
    s.halted = false ∧ s.p.state = .collectPayload ∧ s.p.count.toNat < 65535 := by decide

theorem test_witness_PayloadByteBeyondBufferFaults :
    let s := State.reset.setP ⟨.collectPayload, .v2, true, 65535, 1, 65535, 0, []⟩
    s.halted = false ∧ s.p.state = .collectPayload ∧ s.p.count = 65535 := by decide

theorem test_witness_ChecksumByteValidatesOrRecords :
    beforeChecksum.halted = false ∧ beforeChecksum.p.state = .waitChecksum ∧ (0x01 : Byte) ≠ beforeChecksum.p.acc := by
  decide

/-- One witness for each of the three ways a row is not enabled. -/
theorem test_witness_ReceiveRowHeldOutsideItsState :
    (encode .rxStart = some (.rxByte .waitStart 0x24) ∧ (inState .waitType).halted = false ∧
      (inState .waitType).p.state ≠ .waitStart) ∧
    (encode (.rxIgnore 0x24) = some (.rxByte .waitStart 0x24) ∧ (Instr.rxIgnore 0x24).wellFormed = false) ∧
    (encode (.rxChecksumGood 0x01) = some (.rxByte .waitChecksum 0x01) ∧
      (Instr.rxChecksumGood 0x01).fitsAcc beforeChecksum.p.acc = false) := by decide

theorem test_witness_RxByteRunsTheRowOfItsClass :
    beforeChecksum.halted = false ∧
      decode beforeChecksum.p.acc (.rxByte beforeChecksum.p.state 0x00) = .ok (.rxChecksumGood 0x00) := by decide

theorem test_witness_RxByteHeldRefusedOrAccepted :
    haltedState.halted = true ∧ (validated.halted = false ∧ validated.p.state = .holdDeliver) ∧
    (collecting.halted = false ∧ collecting.p.state ≠ .holdDeliver ∧ collecting.p.state ≠ .halted ∧
      collecting.p.count.toNat < 65535) := by decide

theorem test_witness_RxByteFollowsTransitionRelation :
    collecting.halted = false ∧ collecting.p.state ≠ .holdDeliver ∧ collecting.p.state ≠ .halted ∧
      ∃ t, exec (.rxByte 0x24) collecting = .next t := ⟨rfl, by decide, by decide, _, rfl⟩

theorem test_witness_DeliverDepositsTheFrame :
    (validated.p.state = .holdDeliver ∧ validated.slot.full = false ∧ validated.halted = false ∧
      validated.p.buf.read 2 = some 0x00) ∧
    ¬ ((withFrame frameM3 validated).p.state = .holdDeliver ∧ (withFrame frameM3 validated).slot.full = false ∧
      (withFrame frameM3 validated).halted = false) := by decide

theorem test_witness_RxFailHaltsTheBlock : validated.halted = false ∧ haltedState.halted = true := by decide

theorem test_witness_HaltedRefusesEveryEvent : haltedState.halted = true := by decide

theorem test_witness_HaltedRefusesEveryCodedRow :
    haltedState.halted = true ∧ encode .rc = some (.commandId 0x69) := by decide

/-- One witness for each clause; the range clause at the first payload length a V1 frame cannot carry. -/
theorem test_witness_IssueQueuesOneFrameOrRefuses :
    (State.reset.halted = false ∧ State.reset.mux.awaiting = false ∧ (enc false 1 []).isSome = true) ∧
    haltedState.halted = true ∧
    ((asking 1 State.reset).halted = false ∧ (asking 1 State.reset).mux.awaiting = true) ∧
    enc State.reset.mux.usesV2 1 (List.replicate 256 0) = none := by decide +kernel

theorem test_witness_TakeHandsOutOneFrame :
    let s := withFrame frameM3 State.reset
    ((asking 1 s).halted = false ∧ (asking 1 s).slot.full = true ∧ (asking 1 s).mux.awaiting = true ∧
      (asking 1 s).slot.frame.cmd = (asking 1 s).mux.lastCmd) ∧
    ((asking 2 s).halted = false ∧ (asking 2 s).slot.full = true ∧
      ¬ ((asking 2 s).mux.awaiting = true ∧ (asking 2 s).slot.frame.cmd = (asking 2 s).mux.lastCmd)) ∧
    (State.reset.halted = false ∧ State.reset.slot.full = false) ∧ haltedState.halted = true := by decide

theorem test_witness_CfgSetV2WritesTheControlBit : State.reset.halted = false ∧ haltedState.halted = true := by decide

theorem test_witness_TxDrainTakesOldestBytes :
    let s := State.reset.setFifo [0x24, 0x4D]
    s.halted = false ∧ (1 ≤ 2 ∧ 2 ≤ s.fifo.length) ∧ ¬ (1 ≤ 3 ∧ 3 ≤ s.fifo.length) ∧ ¬ (1 ≤ 0 ∧ 0 ≤ s.fifo.length) := by
  decide

theorem test_witness_EncodeV1ReturnsFrameOrRefuses :
    (255 ≤ 255 ∧ (List.replicate 255 (0 : Byte)).length ≤ 255) ∧ 255 < 256 ∧
      255 < (List.replicate 256 (0 : Byte)).length := by
  simp only [List.length_replicate]; decide

theorem test_witness_EncodeV2ReturnsFrameOrRefuses :
    (65535 ≤ 65535 ∧ (List.replicate 65535 (0 : Byte)).length ≤ 65535) ∧ 65535 < 65536 ∧
      65535 < (List.replicate 65536 (0 : Byte)).length := by
  simp only [List.length_replicate]; decide

theorem test_witness_EncodeSelectsTheFormat :
    (false = true ∨ 255 < 256) ∧ (false = false ∧ 255 ≤ 255) ∧
      (255 ≤ 65535 ∧ ([] : List Byte).length ≤ 65535 ∧ (false = true ∨ 255 < 255 ∨ ([] : List Byte).length ≤ 255)) := by
  decide

/-- And one with a request outstanding. -/
theorem test_witness_QueryRowsQueueTheirRequest :
    (Instr.inavStatus2, (0x2000 : U16)) ∈ [(Instr.apiVersion, 1), (.fcVariant, 2), (.fcVersion, 3), (.boardInfo, 4),
      (.buildInfo, 5), (.name, 10), (.status, 101), (.rc, 105), (.statusEx, 150), (.inavStatus2, (0x2000 : U16))] ∧
      (State.reset.halted = false ∧ State.reset.mux.awaiting = false) ∧
      ((asking 1 State.reset).halted = false ∧ (asking 1 State.reset).mux.awaiting = true) := by decide

theorem test_witness_SetRawRcQueuesTheTransmitBuffer :
    (State.reset.halted = false ∧ State.reset.mux.awaiting = false ∧ State.reset.mux.usesV2 = false) ∧
      ((asking 1 State.reset).halted = false ∧ (asking 1 State.reset).mux.awaiting = true) := by decide

theorem test_witness_TransmittedFrameRowsQueueTheirFrame :
    (State.reset.halted = false ∧ State.reset.mux.awaiting = false ∧ State.reset.mux.usesV2 = false ∧
      (255 : U16).toNat ≤ 255 ∧ 255 < (256 : U16).toNat) ∧
    ((usingV2 State.reset).halted = false ∧ (usingV2 State.reset).mux.awaiting = false ∧
      (usingV2 State.reset).mux.usesV2 = true) ∧
    ((asking 1 State.reset).halted = false ∧ (asking 1 State.reset).mux.awaiting = true ∧
      (asking 1 State.reset).mux.usesV2 = false) ∧
    ((asking 1 (usingV2 State.reset)).halted = false ∧ (asking 1 (usingV2 State.reset)).mux.awaiting = true ∧
      (asking 1 (usingV2 State.reset)).mux.usesV2 = true) := by decide

theorem test_witness_ReceivedV1FrameRowsValidate :
    State.reset.halted = false ∧ State.reset.p.state = .waitStart ∧ (List.replicate 255 (0x24 : Byte)).length ≤ 255 ∧
      State.reset.slot.full = false ∧ (withFrame frameM3 State.reset).slot.full = true := by
  simp only [List.length_replicate]; decide

theorem test_witness_ReceivedV2FrameRowsValidate :
    State.reset.halted = false ∧ State.reset.p.state = .waitStart ∧ (List.replicate 65535 (0x24 : Byte)).length ≤ 65535 ∧
      State.reset.slot.full = false ∧ (withFrame frameM3 State.reset).slot.full = true := by
  simp only [List.length_replicate]; decide

theorem test_witness_RoundTripV1ThroughTheParser : 255 ≤ 255 ∧ (List.replicate 255 (0 : Byte)).length ≤ 255 := by
  simp only [List.length_replicate]; decide

theorem test_witness_RoundTripV2ThroughTheParser : 65535 ≤ 65535 ∧ (List.replicate 65535 (0 : Byte)).length ≤ 65535 := by
  simp only [List.length_replicate]; decide

/-- After an aborted frame the parser is in `WAIT_START`. -/
theorem test_witness_ParseContinuesFromWaitStart :
    (parseFrom [0x24, 0x24] State.reset).1.p.state = .waitStart := by decide

/-- P-8: the payload byte at offset 6; and the checksum byte, the last offset. -/
theorem test_witness_CorruptedV1FrameIsDroppedAndResynced :
    let f := v1Frame 0x3E 0x69 [0xDC, 0x05, 0xDC, 0x05]
    ((0x3E : Byte) = 0x3E ∨ (0x3E : Byte) = 0x21) ∧ (4 ≤ 6 ∧ 6 < f.length ∧ f[6]? ≠ some 0x04) ∧
      (4 ≤ 9 ∧ 9 < f.length ∧ f[9]? ≠ some 0x6C) := by decide

/-- P-12: the flags, both command bytes, the first offset after the length, the last. -/
theorem test_witness_CorruptedV2FrameIsDroppedAndResynced :
    let f := v2Frame 0x3E 0x00 3 [0x01, 0x09, 0x00]
    ∀ k ∈ [3, 4, 5, 8, 11], (k = 3 ∨ k = 4 ∨ k = 5 ∨ 8 ≤ k) ∧ k < f.length ∧ f[k]? ≠ some 0x55 := by decide +kernel

theorem test_witness_CorruptedPrefixByteSkipsTheFrame :
    (0x24 : Byte) ∉ (v1Frame 0x3E 0x69 [0xDC, 0x05, 0xDC, 0x05]).drop 3 ∧
      (0x24 : Byte) ∉ (v2Frame 0x3E 0x00 3 [0x01, 0x09, 0x00]).drop 3 ∧
      (0x25 : Byte) ≠ 0x24 ∧ ((0x24 : Byte) ≠ 0x4D ∧ (0x24 : Byte) ≠ 0x58) ∧
      ((0x24 : Byte) ≠ 0x3E ∧ (0x24 : Byte) ≠ 0x21) := by decide +kernel

/-- P-7 (b). -/
theorem test_witness_OwnFramesDeliverNothing :
    enc false 1 [] = some [0x24, 0x4D, 0x3C, 0x00, 0x01, 0x01] ∧
      (0x24 : Byte) ∉ [0x24, 0x4D, 0x3C, 0x00, 0x01, 0x01].drop 3 := by decide

theorem test_witness_DecodeOfEncodeIsTheInstruction :
    (Instr.rxChecksumGood 0x6C).wellFormed = true ∧ (Instr.rxChecksumGood 0x6C).fitsAcc 0x6C = true ∧
      encode (.rxChecksumGood 0x6C) = some (.rxByte .waitChecksum 0x6C) := by decide

/-- The two checksum rows share the coded form of 0x6C, and no accumulator value fits both. -/
theorem test_witness_EncodeOfDecodeIsTheCodedForm :
    decode 0 (.frame [0x24, 0x58, 0x3E, 0x5A, 0x03, 0x00, 0x03, 0x00, 0x01, 0x09, 0x00, 0x0B]) =
      .ok (.frameV2RxResponse 0x5A 3 [1, 9, 0]) ∧
    ((Instr.rxChecksumGood 0x6C).wellFormed = true ∧ (Instr.rxChecksumGood 0x6C).fitsAcc 0x6C = true ∧
      encode (.rxChecksumGood 0x6C) = some (.rxByte .waitChecksum 0x6C)) ∧
    encode (.rxChecksumBad 0x6C) = some (.rxByte .waitChecksum 0x6C) ∧
      (Instr.rxChecksumBad 0x6C).fitsAcc 0x6C = false := by decide +kernel

theorem test_witness_CrcIsLinearOverXor : ([0x01, 0x00] : List Byte).length = ([0x00, 0x01] : List Byte).length := rfl

theorem test_witness_OneChangedByteChangesTheChecksum : (0x05 : Byte) ≠ 0x04 := by decide

/-- A state of trace P-1 that meets the invariants. -/
theorem validated_blockInv : BlockInv validated :=
  ⟨by decide, by decide, by decide, by decide, by decide, by decide, by decide⟩

theorem collecting_blockInv : BlockInv collecting :=
  ⟨by decide, by decide, by decide, by decide, by decide, by decide, by decide⟩

/-- Trace P-4 after three bytes. -/
def awaitingFlags : State := State.reset.setP { State.reset.p with state := .waitFlags, variant := .v2, isResponse := true }

theorem awaitingFlags_blockInv : BlockInv awaitingFlags :=
  ⟨by decide, by decide, by decide, by decide, by decide, by decide, by decide⟩

theorem test_witness_StepKeepsTheInvariants :
    ∃ s t, BlockInv s ∧ s.io.schedule = [.offer .deliver] ∧ step s = .next t := by
  refine ⟨validated.setSchedule [.offer .deliver], _, ?_, rfl, rfl⟩
  obtain ⟨h1, h2, h3, h4, h5, h6, h7⟩ := validated_blockInv
  exact ⟨h1, h2, h3, h4, h5, h6, h7⟩

/-- P-1 after six bytes: `len = 3`, `cmd = 1`, one payload byte 0x00, so 03 ^ 01 ^ 00 = 02; P-4 before its flags byte and
after it (crc8 of 5A is 0x99), with the flags byte 0x5A from then on. -/
theorem test_witness_StepKeepsAccTracking :
    (∃ s t, BlockInv s ∧ AccTracksWith 0 s.p ∧ s.io.schedule = [.offer (.rxByte 0x02)] ∧ step s = .next t ∧
      s.p.state ≠ .waitFlags ∧ ∃ u, exec (.rxByte 0x02) s = .next u) ∧
    (∃ s t, BlockInv s ∧ AccTracksWith 0 s.p ∧ s.p.state = .waitFlags ∧ exec (.rxByte 0x5A) s = .next t ∧
      t.p.acc = 0x99 ∧ flagsAfter (receivedBytes (.rxByte 0x5A)) s 0 = 0x5A ∧ ¬ AccTracksWith 0x5B t.p) := by
  refine ⟨⟨collecting.setSchedule [.offer (.rxByte 0x02)], _, ?_, ⟨by decide, by decide, by decide⟩, rfl, rfl,
    by decide, _, rfl⟩, ⟨awaitingFlags, _, awaitingFlags_blockInv, ?_, rfl, rfl, by decide, by decide, ?_⟩⟩
  · obtain ⟨h1, h2, h3, h4, h5, h6, h7⟩ := collecting_blockInv
    exact ⟨h1, h2, h3, h4, h5, h6, h7⟩
  · show Variant.v2 = Variant.v2
    rfl
  · show ¬ (Variant.v2 = Variant.v2 ∧ crc8Step 0x00 0x5A = crc8 [0x5B])
    decide

/-- R206: a run that ends with the consumer held in `TAKE`, nothing outstanding, as G-2 does, is not quiescent, whether the
`TAKE` was a call of its list or was offered; nor is a run with something still scheduled. -/
theorem test_quiescent_needs_no_held_call :
    ¬ Quiescent (State.reset.setWaiting true) ∧ ¬ Quiescent (State.reset.setSchedule [.rx]) ∧
    (∀ x ∈ [(Turn.offer .take, Consumer.calls []), (.consumer, .calls [.take])],
      holds (step ((State.reset.setConsumer x.2).setSchedule [x.1]))
        (fun t => t.io.waiting && t.io.consumer == .calls [.take] && t.io.schedule == []) = true) := by
  refine ⟨fun h => absurd h.2.2.2.2.2.2 (by decide), fun h => absurd h.1 (by decide), by decide⟩

/-- G-2: a held `TAKE` offered again, with a frame in the slot, is the one the consumer was held in: it is held no more. -/
theorem test_offered_take_releases_the_held_one :
    holds (step ((((withFrame frameM3 State.reset).setConsumer (.calls [.take])).setWaiting true).setSchedule
      [.offer .take]))
      (fun t => !t.io.waiting && t.io.consumer == .calls [] && t.result == .taken frameM3 false) = true := by
  decide

theorem test_witness_EveryEventCompletesUnderTheInvariants : BlockInv collecting := collecting_blockInv

theorem test_witness_DeliveredBytesAreAllWritten :
    BlockInv validated ∧ validated.p.state = .holdDeliver ∧ validated.slot.full = false :=
  ⟨validated_blockInv, by decide, by decide⟩

theorem test_witness_ConsumerAndTransportLeaveTheParserAlone :
    (Instr.take.agent = .consumer ∧ ∃ t, exec .take (withFrame frameM3 collecting) = .next t) ∧
    ((Instr.txDrain 1).agent = .transport ∧ ∃ t, exec (.txDrain 1) (State.reset.setFifo [0x24]) = .next t) ∧
    ((Instr.encodeV1 1 []).agent = .pure ∧ ∃ t, exec (.encodeV1 1 []) State.reset = .next t) :=
  ⟨⟨rfl, _, rfl⟩, ⟨rfl, _, rfl⟩, ⟨rfl, _, rfl⟩⟩

/-- And a frame row of which only the first byte is taken: it is the checksum of the frame before, which then waits for the
slot. -/
theorem test_witness_ReaderLeavesTheMultiplexerAlone :
    (Instr.rxFail.agent = .reader ∧ ∃ t, exec .rxFail collecting = .next t) ∧
    (Instr.frameV1RxResponse 1 []).agent = .reader ∧
      holds (exec (.frameV1RxResponse 1 []) idDollar)
        (fun t => t.io.rx == [.byte 0x4D, .byte 0x3E, .byte 0x00, .byte 0x01, .byte 0x01]) = true :=
  ⟨⟨rfl, _, rfl⟩, rfl, by decide⟩

theorem test_witness_OnlyPayloadBytesWriteTheBuffer :
    (Instr.rxPayload 0x24).agent = .reader ∧ (∀ bs, encode (.rxPayload 0x24) ≠ some (.frame bs)) ∧
      (∃ t, exec (.rxPayload 0x24) collecting = .next t) ∧
      ¬ (collecting.p.state = .collectPayload ∧ 0 = collecting.p.count.toNat) :=
  ⟨rfl, by simp [encode], ⟨_, rfl⟩, by decide⟩

theorem test_witness_StepRunsTheDecodedInstruction :
    let s := ((collecting.setSchedule [.rx]).setRx [.byte 0x24])
    let f := ((collecting.setSchedule [.rx]).setRx [.fail [0x24]])
    let e := collecting.setSchedule [.rx]
    let idle := (State.reset.setConsumer (.calls [])).setSchedule [.offer .take]
    let held := ((State.reset.setConsumer (.calls [.take])).setWaiting true).setSchedule [.offer .take]
    let hostHeld := ((State.reset.setConsumer (.host .apiTake)).setWaiting true).setSchedule [.offer .take]
    (s.io.schedule = .rx :: [] ∧ s.io.rx = .byte 0x24 :: [] ∧ s.halted = false ∧
      decode s.p.acc (.rxByte s.p.state 0x24) = .ok (.rxPayload 0x24)) ∧
    (f.io.schedule = .rx :: [] ∧ f.io.rx = .fail [0x24] :: [] ∧ f.halted = false) ∧
    (e.io.schedule = .rx :: [] ∧ e.io.rx = []) ∧
    ((State.reset.setSchedule [.word (.commandId 1)]).io.schedule = .word (.commandId 1) :: [] ∧
      decode 0 (.commandId 1) = .ok .apiVersion ∧ State.reset.io.consumer ≠ .calls [] ∧
      State.reset.io.waiting = false) ∧
    ((State.reset.setSchedule [.offer .deliver]).io.schedule = .offer .deliver :: [] ∧
      Instr.deliver.consumerMay = false) ∧
    (idle.io.schedule = .offer .take :: [] ∧ Instr.take.consumerMay = true ∧ idle.io.consumer = .calls [] ∧
      holds (exec .take (idle.setSchedule [])) (fun t => t.result == .held) = true ∧
      holds (exec .take ((withFrame frameM3 idle).setSchedule [])) (fun t => t.result != .held) = true) ∧
    (held.io.waiting = true ∧ held.io.consumer = .calls (.take :: [])) ∧
    (hostHeld.io.waiting = true ∧ hostHeld.io.consumer = .host .apiTake ∧
      hostEvent hostHeld.host .apiTake = some .take) ∧
    State.reset.io.schedule = [] := by decide

/-- The clauses of a list of calls (a `TAKE` that is held, one that returns a frame, none left), and those of the documented
host: no event, a held `TAKE`, a request accepted, a frame, the halt, a refusal it never meets. -/
theorem test_witness_StepRunsTheConsumersNextCall :
    (Instr.take.consumerMay = true ∧
      holds (exec .take ((State.reset.setSchedule []).setConsumer (.calls []))) (fun t => t.result == .held) = true ∧
      holds (exec .take (((withFrame frameM3 State.reset).setSchedule []).setConsumer (.calls [])))
        (fun t => t.result != .held) = true) ∧
    (State.reset.setConsumer (.calls [])).io.consumer = .calls [] ∧ hostEvent State.reset.host .sleep = none ∧
    (hostEvent State.reset.host .apiTake = some .take ∧
      holds (exec .take State.reset) (fun t => t.result == .held) = true ∧
      holds (exec .take (withFrame frameM3 State.reset)) (fun t => t.result == .taken frameM3 false) = true ∧
      holds (exec .take haltedState) (fun t => t.result == .refused .refusedHalted) = true) ∧
    (hostEvent State.reset.host .apiAsk = some .apiVersion ∧
      holds (exec .apiVersion State.reset) (fun t => t.result == .ok) = true ∧
      holds (exec .apiVersion (asking 1 State.reset)) (fun t => t.result == .refused .refusedBusy) = true) := by
  decide

/-- A validated frame waiting; the block halted, before a byte and before a failing read; a frame row held at its first
byte; a frame row of which some bytes are taken. -/
theorem test_witness_HeldByteStaysInTheTransport :
    (let s := (validated.setSchedule [.rx]).setRx [.byte 0x24]
     s.io.schedule = .rx :: [] ∧ s.io.rx = .byte 0x24 :: [] ∧ s.halted = false ∧ s.p.state = .holdDeliver) ∧
    (∀ item ∈ [RxItem.byte 0x24, .fail []],
      ((haltedState.setSchedule [.rx]).setRx [item]).io.rx = item :: [] ∧ haltedState.halted = true) ∧
    (let s := withFrame frameM3 validated
     s.p.state = .holdDeliver ∧ s.slot.full = true ∧ s.halted = false) ∧
    ((Instr.frameV1RxResponse 1 []).agent = .reader ∧
      encode (.frameV1RxResponse 1 []) = some (.frame [0x24, 0x4D, 0x3E, 0x00, 0x01, 0x01])) ∧ BlockInv idDollar :=
  ⟨by decide, by decide, by decide, by decide, by decide, by decide, by decide, by decide, by decide, by decide, by decide⟩

/-- H-1: both sides of both thresholds. -/
theorem test_witness_StatusSelectionThresholds :
    (0x0200 < (0x0201 : U16).toNat ∧ 0x010801 ≤ (0x010801 : U24).toNat) ∧
    (0x0200 < (0x0201 : U16).toNat ∧ (0x010800 : U24).toNat < 0x010801) ∧ (0x0200 : U16).toNat ≤ 0x0200 := by decide

/-- A response long enough for every offset. -/
theorem test_witness_HandshakeOrder :
    ∃ pl : List Byte, ∀ n ∈ [Config.hostOffsets.apiMajor, Config.hostOffsets.apiMinor, Config.hostOffsets.fcvMajor,
      Config.hostOffsets.fcvMinor, Config.hostOffsets.fcvPatch], pl[n]? = some 0x02 := by
  refine ⟨List.replicate (Config.hostOffsets.apiMajor + Config.hostOffsets.apiMinor + Config.hostOffsets.fcvMajor +
    Config.hostOffsets.fcvMinor + Config.hostOffsets.fcvPatch + 1) 0x02, ?_⟩
  simp only [List.mem_cons, List.not_mem_nil, or_false, forall_eq_or_imp, forall_eq, List.getElem?_replicate,
    ite_eq_left_iff, reduceCtorEq, imp_false, Decidable.not_not]
  omega

/-- A status response long enough for every layout. -/
theorem test_witness_HandshakeOrder_status :
    ∀ (v : StatusVariant) (l : Config.StatusLayout), l = Config.statusLayout v → ∃ pl : List Byte,
      pl[if l.wordBigEndian then l.wordOfs + (if l.wordIs64 then 7 else 3) else l.wordOfs]? = some 0x01 ∧
      ∀ k < 4, pl[l.flagsOfs + k]? = some 0x01 := by
  intro v l _
  have get : ∀ n, n < l.wordOfs + l.flagsOfs + 8 →
      (List.replicate (l.wordOfs + l.flagsOfs + 8) (0x01 : Byte))[n]? = some 0x01 := by
    intro n hn; rw [List.getElem?_replicate, if_pos hn]
  refine ⟨List.replicate (l.wordOfs + l.flagsOfs + 8) 0x01, get _ ?_, fun k hk => get _ (by omega)⟩
  split <;> (try split) <;> omega

/-- R162 for a layout chosen here: a 64-bit little-endian word at 0, big-endian flags at 8. -/
theorem test_status_snapshot :
    snapshotOf ⟨0, true, false, 8, true⟩ .inav [0x01, 0, 0, 0, 0, 0, 0, 0x00, 0x12, 0x34, 0x56, 0x78] =
      ⟨true, 0x12345678, .inav⟩ ∧
    snapshotOf ⟨0, true, false, 8, true⟩ .inav [0xFE, 0, 0, 0, 0, 0, 0, 0x01, 0, 0, 0, 0] = ⟨false, 0, .inav⟩ := by
  decide

/-- Both maps of R157. -/
theorem test_host_override_step :
    hostEvent State.reset.host .loopTop = none ∧
      hostEvent { State.reset.host with overrides := [(5, 1200)] } .loopTop = some .setRawRc := by decide

/-- The sixteenth pair and the first. -/
theorem test_witness_RcDecodeReadsSignedPairs :
    15 < 16 ∧ (List.replicate 32 (0xFF : Byte))[2 * 15]? = some 0xFF ∧
      (List.replicate 32 (0xFF : Byte))[2 * 15 + 1]? = some 0xFF := by decide

end Sys2Proof.Tests
end

section
/-! PROOFS, family 10_state.md. The invariants of the block (10_state.md sections 2 to 5) are kept by every event and
every step, and hold after reset. -/

namespace Sys2Proof.Machine

/-! ### One byte and the payload counter -/

/-- The part of the block's invariants that speaks of the parser registers alone (R16, R18, R45). -/
structure PayloadInv (p : Parser) : Prop where
  bufWf : p.buf.wf = true
  countBelow : p.state = .collectPayload → p.count.toNat < p.len.toNat
  countDone : p.state = .waitChecksum ∨ p.state = .holdDeliver → p.count = p.len
  bytesWritten : inPayload p.state = true → p.buf.written p.count.toNat = true

theorem BlockInv.payloadInv {s : State} (h : BlockInv s) : PayloadInv s.p :=
  ⟨h.bufWf, h.countBelow, h.countDone, h.bytesWritten⟩

/-- In a state without collected bytes only the buffer's form is claimed. -/
theorem PayloadInv.of_not_inPayload {p : Parser} (hw : p.buf.wf = true) (hp : inPayload p.state = false) :
    PayloadInv p where
  bufWf := hw
  countBelow hs := by simp [hs, inPayload] at hp
  countDone hs := by rcases hs with hs | hs <;> simp [hs, inPayload] at hp
  bytesWritten hs := by simp [hs] at hp

/-- What a byte does to the buffer, the counter and the state: a byte outside the payload leaves all collected bytes
behind, the last header byte clears the counter (R105, R111), a payload byte is stored (R112), a good checksum byte ends
the frame (R113). -/
theorem parserAfter_cases {b : Byte} {p q : Parser} (h : parserAfter b p = some q) :
    (q.buf = p.buf ∧ inPayload q.state = false ∧ q.state ≠ .halted) ∨
    (q.buf = p.buf ∧ q.count = 0 ∧ q.state = afterHeader q.len) ∨
    (p.state = .collectPayload ∧ p.count.toNat < Config.payloadBufBytes ∧ q = effPayload b p) ∨
    (p.state = .waitChecksum ∧ q = p.goto .holdDeliver) := by
  unfold parserAfter at h
  cases hs : p.state <;> simp only [hs, Option.some.injEq, reduceCtorEq] at h
  case waitCmd | waitLenHi => subst h; exact .inr (.inl ⟨rfl, rfl, rfl⟩)
  case collectPayload =>
    obtain ⟨hc, hq⟩ := Option.ite_none_right_eq_some.1 h
    cases hq
    exact .inr (.inr (.inl ⟨rfl, hc, rfl⟩))
  case waitChecksum =>
    subst h
    split
    · exact .inr (.inr (.inr ⟨rfl, rfl⟩))
    · exact .inl ⟨rfl, rfl, by simp⟩
  all_goals
    subst h
    refine .inl ?_
    (repeat' split) <;> exact ⟨rfl, rfl, nofun⟩

theorem afterHeader_cases (len : U16) :
    (len = 0 ∧ afterHeader len = .waitChecksum) ∨ (len ≠ 0 ∧ afterHeader len = .collectPayload) := by
  unfold afterHeader
  split
  · exact .inl ⟨‹_›, rfl⟩
  · exact .inr ⟨‹_›, rfl⟩

/-- The last payload byte goes on to the checksum (R112). -/
theorem effPayload_state_cases (b : Byte) (p : Parser) :
    (p.count + 1 = p.len ∧ (effPayload b p).state = .waitChecksum) ∨
      (p.count + 1 ≠ p.len ∧ (effPayload b p).state = .collectPayload) := by
  simp only [effPayload, afterPayload]
  split
  · exact .inl ⟨‹_›, rfl⟩
  · exact .inr ⟨‹_›, rfl⟩

/-- No byte leads to `HALTED`: only `RX_FAIL` does (R179). -/
theorem parserAfter_state_ne_halted {b : Byte} {p q : Parser} (h : parserAfter b p = some q) :
    q.state ≠ .halted := by
  rcases parserAfter_cases h with ⟨-, -, hs⟩ | ⟨-, -, hs⟩ | ⟨-, -, rfl⟩ | ⟨-, rfl⟩
  · exact hs
  · rcases afterHeader_cases q.len with ⟨-, e⟩ | ⟨-, e⟩ <;> simp [hs, e]
  · rcases effPayload_state_cases b p with ⟨-, e⟩ | ⟨-, e⟩ <;> simp [e]
  · simp

/-- The counter does not wrap at an index the buffer has (20_memory.md R40). -/
theorem toNat_count_succ {c : U16} (h : c.toNat < Config.payloadBufBytes) : (c + 1).toNat = c.toNat + 1 := by
  simp only [Config.payloadBufBytes] at h
  exact BitVec.toNat_add_of_lt (y := 1) (by simp; omega)

/-- The state after the last header byte: nothing is collected yet. -/
theorem PayloadInv.of_afterHeader {p : Parser} (hw : p.buf.wf = true) (hc : p.count = 0)
    (hs : p.state = afterHeader p.len) : PayloadInv p := by
  have hwr : p.buf.written p.count.toNat = true := by simp [hc]
  rcases afterHeader_cases p.len with ⟨hl, e⟩ | ⟨hl, e⟩ <;> rw [e] at hs
  · exact ⟨hw, by simp [hs], fun _ => hc.trans hl.symm, fun _ => hwr⟩
  · refine ⟨hw, fun _ => ?_, by simp [hs], fun _ => hwr⟩
    have hne : p.len.toNat ≠ 0 := fun h0 => hl (BitVec.eq_of_toNat_eq h0)
    simpa [hc] using Nat.pos_of_ne_zero hne

/-- "No received length can overflow" the buffer (R45). -/
theorem PayloadInv.count_lt_of_collect {p : Parser} (h : PayloadInv p) (hs : p.state = .collectPayload) :
    p.count.toNat < Config.payloadBufBytes := by
  have hlt := h.countBelow hs
  have hlen := p.len.isLt
  simp only [Config.payloadBufBytes]
  omega

/-- A payload byte keeps the collected bytes written and the counter within the length (R112). -/
theorem PayloadInv.effPayload {p : Parser} (h : PayloadInv p) (hs : p.state = .collectPayload) (b : Byte) :
    PayloadInv (effPayload b p) := by
  have hlt := h.countBelow hs
  have hidx := h.count_lt_of_collect hs
  have hsucc := toNat_count_succ hidx
  have hwf : (Machine.effPayload b p).buf.wf = true := Memory.wf_write b h.bufWf hidx
  have hwr : (p.buf.write p.count.toNat b).written (p.count + 1).toNat = true :=
    hsucc ▸ Memory.written_write _ b (h.bytesWritten (by simp [hs, inPayload]))
  rcases effPayload_state_cases b p with ⟨hl, e⟩ | ⟨hl, e⟩
  · exact ⟨hwf, by simp [e], fun _ => hl, fun _ => hwr⟩
  · refine ⟨hwf, fun _ => ?_, by simp [e], fun _ => hwr⟩
    have hne : (p.count + 1).toNat ≠ p.len.toNat := fun h' => hl (BitVec.eq_of_toNat_eq h')
    show (p.count + 1).toNat < p.len.toNat
    omega

/-- Every taken byte keeps the invariants of the parser registers. -/
theorem PayloadInv.parserAfter {b : Byte} {p q : Parser} (hp : PayloadInv p) (h : parserAfter b p = some q) :
    PayloadInv q := by
  rcases parserAfter_cases h with ⟨hb, hi, -⟩ | ⟨hb, hc, hs⟩ | ⟨hs, -, rfl⟩ | ⟨hs, rfl⟩
  · exact .of_not_inPayload (hb ▸ hp.bufWf) hi
  · exact .of_afterHeader (hb ▸ hp.bufWf) hc hs
  · exact hp.effPayload hs b
  · exact ⟨hp.bufWf, by simp, fun _ => hp.countDone (.inl hs), fun _ => hp.bytesWritten (by simp [hs, inPayload])⟩

/-! ### The invariants of the block -/

/-- The block's invariants from those of the parser registers and of the other elements. -/
theorem PayloadInv.blockInv {s : State} (h : PayloadInv s.p) (hh : s.halted = true ↔ s.p.state = .halted)
    (hl : s.slot.full = true → s.slot.frame.payload.length = s.slot.frame.length.toNat)
    (ho : ∀ c ∈ s.obs, c.recorded = true) : BlockInv s :=
  ⟨h.bufWf, hh, hl, h.countBelow, h.countDone, h.bytesWritten, ho⟩

/-- A change that leaves the parser and the halt flag, fills no slot and records only recorded conditions. -/
theorem BlockInv.of_parser_eq {s t : State} (h : BlockInv s) (hp : t.p = s.p) (hh : t.halted = s.halted)
    (hl : t.slot.full = true → t.slot = s.slot) (ho : ∀ c ∈ t.obs, c ∈ s.obs ∨ c.recorded = true) : BlockInv t := by
  refine PayloadInv.blockInv (hp ▸ h.payloadInv) (hh ▸ hp ▸ h.haltedIff) (fun hf => ?_) fun c hc => ?_
  · have e := hl hf
    rw [e] at hf ⊢
    exact h.slotLength hf
  · exact (ho c hc).elim (h.obsRecorded c) id

theorem BlockInv.running {s : State} (h : BlockInv s) (hs : s.p.state ≠ .halted) : s.halted = false :=
  eq_false_of_ne_true fun hh => hs (h.haltedIff.1 hh)

theorem BlockInv.sameBlock {s t : State} (hst : SameBlock s t) (h : BlockInv s) : BlockInv t :=
  h.of_parser_eq hst.p hst.halted (fun _ => hst.slot) fun _ hc => .inl (hst.obs ▸ hc)

theorem BlockInv.setResult {s : State} (h : BlockInv s) (r : Result) : BlockInv (s.setResult r) :=
  h.of_parser_eq rfl rfl (fun _ => rfl) fun _ hc => .inl hc

/-- The record of a bad checksum byte is of a recorded condition (R170). -/
theorem recorded_of_mem_obsAfter {b : Byte} {p : Parser} {c : Condition} (h : c ∈ obsAfter b p) :
    c.recorded = true := by
  unfold obsAfter at h
  split at h
  · rw [List.mem_singleton.1 h]; rfl
  · simp at h

theorem BlockInv.byteTaken {s : State} {b : Byte} {q : Parser} (h : BlockInv s) (hh : s.halted = false)
    (hq : parserAfter b s.p = some q) : BlockInv (byteTaken b q s) := by
  refine PayloadInv.blockInv (h.payloadInv.parserAfter hq) ?_ h.slotLength fun _ hc => ?_
  · simp [Machine.byteTaken, hh, parserAfter_state_ne_halted hq]
  · exact (List.mem_append.1 hc).elim (h.obsRecorded _) recorded_of_mem_obsAfter

theorem BlockInv.deposit {s : State} (h : BlockInv s) (he : deliverEnabled s = true) : BlockInv (deposit s) := by
  obtain ⟨-, -, hh⟩ := (deliverEnabled_iff s).1 he
  refine PayloadInv.blockInv (.of_not_inPayload h.bufWf rfl) ?_ (fun _ => receivedFrame_length s.p) h.obsRecorded
  simp [hh]

theorem BlockInv.rxRule {s t : State} {b : Byte} (h : BlockInv s) (he : byteEnabled s = true)
    (hr : rxRule b s = .next t) : BlockInv t := by
  obtain ⟨hh, -, -⟩ := (byteEnabled_iff s).1 he
  cases hq : parserAfter b s.p with
  | some q =>
    rw [rxRule_eq hq] at hr
    cases hr
    exact h.byteTaken hh hq
  | none =>
    rcases rxRule_none hq with ⟨-, e⟩ | ⟨-, e⟩ | ⟨-, e⟩ <;> rw [e] at hr <;> cases hr
    · exact h.setResult _
    · exact h.setResult _

theorem BlockInv.lost {s : State} (h : BlockInv s) : BlockInv (lost s) := by
  refine PayloadInv.blockInv (.of_not_inPayload h.bufWf rfl) (by simp [Machine.lost]) h.slotLength fun c hc => ?_
  rcases List.mem_append.1 hc with hc | hc
  · exact h.obsRecorded c hc
  · rw [List.mem_singleton.1 hc]; rfl

theorem BlockInv.taken {s : State} (h : BlockInv s) : BlockInv (taken s) := by
  refine h.of_parser_eq rfl rfl nofun fun _ hc => ?_
  refine (List.mem_append.1 hc).imp id fun hc => ?_
  split at hc
  · simp at hc
  · rw [List.mem_singleton.1 hc]; rfl

/-- The reset values meet the invariants (R31), whatever the fields outside the block's tuple. -/
theorem blockInv_resetBlock (s : State) : BlockInv (resetBlock s) :=
  PayloadInv.blockInv (.of_not_inPayload rfl rfl) ⟨nofun, nofun⟩ nofun nofun

/-- Every event keeps the block's invariants. -/
theorem BlockInv.exec {i : Instr} {s t : State} (h : BlockInv s) (hx : exec i s = .next t) : BlockInv t := by
  cases exec_moved hx with
  | result _ r => exact h.setResult r
  | byte _ b q _ _ _ hh hq => exact h.byteTaken hh hq
  | deliver he => exact (h.deposit he).setResult _
  | lost _ => exact h.lost
  | received _ bs u rest _ _ _ hr _ =>
    have hu : BlockInv u := rxBytes_induct (fun _ hs he => hs.deposit he) (fun _ _ _ hs he hr => hs.rxRule he hr)
      bs s h u rest hr
    exact hu.of_parser_eq rfl rfl (fun _ => rfl) fun _ hc => .inl hc
  | issued _ _ _ _ _ => exact h.of_parser_eq rfl rfl (fun _ => rfl) fun _ hc => .inl hc
  | taken _ _ => exact h.taken
  | configured _ _ => exact h.of_parser_eq rfl rfl (fun _ => rfl) fun _ hc => .inl hc
  | drained _ _ _ _ => exact h.of_parser_eq rfl rfl (fun _ => rfl) fun _ hc => .inl hc
  | reset => exact (blockInv_resetBlock s).of_parser_eq rfl rfl (fun _ => rfl) fun _ hc => .inl hc

/-- Settles O45: every event keeps the invariants, and a step is at most one event and bookkeeping outside the block. -/
theorem stepKeepsTheInvariants : Obligations.StepKeepsTheInvariants := by
  intro s t hs h
  exact step_keeps (fun _ _ hst hb => hb.sameBlock hst) (fun _ _ _ hb hx => hb.exec hx) hs h

/-- Settles O49: the collected bytes are written (R18), and at `HOLD_DELIVER` they are as many as `P.len` says. -/
theorem deliveredBytesAreAllWritten : Obligations.DeliveredBytesAreAllWritten := by
  intro s hs hst hf
  have hh : s.halted = false := hs.running (by rw [hst]; nofun)
  have he : deliverEnabled s = true := (deliverEnabled_iff s).2 ⟨hst, hf, hh⟩
  have hw : s.p.buf.written s.p.len.toNat = true :=
    hs.countDone (.inr hst) ▸ hs.bytesWritten (by simp [hst, inPayload])
  refine ⟨(deposit s).setResult .silent, ?_, fun i hi => ⟨?_, (Memory.written_iff _ _).1 hw i hi⟩⟩
  · simp [Machine.exec, execDeliver, he]
  · simpa [receivedFrame] using Memory.getElem?_prefixBytes _ hw hi

/-- Settles O47. -/
theorem resetMeetsTheInvariants : Obligations.ResetMeetsTheInvariants :=
  ⟨blockInv_resetBlock State.reset, fun _ => trivial, rfl, rfl, rfl, rfl, rfl, rfl, rfl⟩

end Sys2Proof.Machine
end

section
/-! PROOFS, family 10_state.md. `P.acc` is the checksum of the covered bytes received so far (R17, R81, R83): one byte by
the rules of 42_parser.md, a whole frame as its bytes one by one, every event, every step. -/

namespace Sys2Proof.Machine

/-! ### The accumulator over one byte -/

/-- What `AccTracksWith` says in the three states in which payload bytes stand in the buffer (R81, R83). -/
def PayloadTracks (flags : Byte) (p : Parser) : Prop :=
  match p.variant with
  | .v1 =>
    hi8 p.len = 0 ∧ hi8 p.cmd = 0 ∧
      p.acc = xor8Frame (lo8 p.len) (lo8 p.cmd) (p.buf.prefixBytes p.count.toNat)
  | .v2 => p.acc = crc8 (v2Header flags p ++ p.buf.prefixBytes p.count.toNat)

theorem accTracksWith_iff_payloadTracks {f : Byte} {p : Parser} (h : inPayload p.state = true) :
    AccTracksWith f p ↔ PayloadTracks f p := by
  have hs : p.state = .collectPayload ∨ p.state = .waitChecksum ∨ p.state = .holdDeliver := by
    simpa [inPayload, or_assoc] using h
  unfold AccTracksWith
  rcases hs with hs | hs | hs <;> simp only [hs] <;> rfl

/-- In `WAIT_FLAGS` the flags byte is still to come, so the claim does not speak of it. -/
theorem AccTracksWith.of_waitFlags {f g : Byte} {p : Parser} (h : AccTracksWith f p) (hs : p.state = .waitFlags) :
    AccTracksWith g p := by
  unfold AccTracksWith at h ⊢
  simpa only [hs] using h

theorem accTracksWith_of_quiet {f : Byte} {p : Parser} (hs : p.state = .waitStart ∨ p.state = .halted) :
    AccTracksWith f p := by
  unfold AccTracksWith
  rcases hs with hs | hs <;> simp only [hs]

theorem inPayload_afterHeader (len : U16) : inPayload (afterHeader len) = true := by
  rcases afterHeader_cases len with ⟨-, e⟩ | ⟨-, e⟩ <;> rw [e] <;> rfl

theorem inPayload_effPayload (b : Byte) (p : Parser) : inPayload (effPayload b p).state = true := by
  rcases effPayload_state_cases b p with ⟨-, e⟩ | ⟨-, e⟩ <;> rw [e] <;> rfl

/-- R105: the command byte ends the V1 header; nothing of the payload is summed yet. -/
theorem payloadTracks_effV1Cmd (f b : Byte) {p : Parser} (hv : p.variant = .v1) (hl : p.len = zext16 p.acc) :
    PayloadTracks f (effV1Cmd b p) := by
  simp [PayloadTracks, effV1Cmd, hv, hl, xor8Frame]

/-- R111: the high length byte ends the V2 header. -/
theorem payloadTracks_effV2LenHi {f : Byte} (b : Byte) {p : Parser} (hv : p.variant = .v2) (hl : hi8 p.len = 0)
    (ha : p.acc = crc8 [f, lo8 p.cmd, hi8 p.cmd, lo8 p.len]) : PayloadTracks f (effV2LenHi b p) := by
  simp [PayloadTracks, effV2LenHi, hv, orHigh_eq_joinLE b hl, v2Header, ha, crc8]

/-- R112: the stored payload byte is the next of the summed bytes. -/
theorem PayloadTracks.effPayload {f : Byte} {p : Parser} (h : PayloadTracks f p) (b : Byte)
    (hc : p.count.toNat < Config.payloadBufBytes) : PayloadTracks f (effPayload b p) := by
  have hbytes : (p.buf.write p.count.toNat b).prefixBytes (p.count + 1).toNat =
      p.buf.prefixBytes p.count.toNat ++ [b] := by
    rw [toNat_count_succ hc, Memory.prefixBytes_write]
  unfold PayloadTracks at h ⊢
  cases hv : p.variant <;> simp only [hv, Machine.effPayload, accStep, hbytes] at h ⊢
  · obtain ⟨hl, hcmd, ha⟩ := h
    exact ⟨hl, hcmd, by rw [xor8Frame_snoc, ha]⟩
  · rw [← List.append_assoc, crc8_snoc, h]; rfl

/-- Every taken byte keeps the claim; the one taken in `WAIT_FLAGS` becomes its flags byte (R107). -/
theorem AccTracksWith.parserAfter {f b : Byte} {p q : Parser} (h : AccTracksWith f p)
    (hq : parserAfter b p = some q) : AccTracksWith (if p.state = .waitFlags then b else f) q := by
  unfold Machine.parserAfter at hq
  cases hs : p.state <;>
    simp only [hs, Option.some.injEq, reduceCtorEq, ↓reduceIte] at hq ⊢ <;>
    unfold AccTracksWith at h <;> simp only [hs] at h
  case waitStart | waitType => subst hq; (repeat' split) <;> trivial
  case waitDirection | waitXDirection =>
    subst hq
    split
    · exact h
    · split
      · exact h
      · trivial
  case waitLen => subst hq; exact ⟨h, rfl⟩
  case waitCmd =>
    subst hq
    exact (accTracksWith_iff_payloadTracks (inPayload_afterHeader _)).2 (payloadTracks_effV1Cmd f b h.1 h.2)
  case waitFlags => subst hq; exact ⟨h, rfl⟩
  case waitCmdLo =>
    obtain ⟨hv, ha⟩ := h
    subst hq
    exact ⟨hv, hi8_zext16 b, by simp [effV2CmdLo, ha, crc8]⟩
  case waitCmdHi =>
    obtain ⟨hv, hc, ha⟩ := h
    subst hq
    exact ⟨hv, by simp [effV2CmdHi, ha, orHigh_eq_joinLE b hc, crc8]⟩
  case waitLenLo =>
    obtain ⟨hv, ha⟩ := h
    subst hq
    exact ⟨hv, hi8_zext16 b, by simp [effV2LenLo, ha, crc8]⟩
  case waitLenHi =>
    obtain ⟨hv, hl, ha⟩ := h
    subst hq
    exact (accTracksWith_iff_payloadTracks (inPayload_afterHeader _)).2 (payloadTracks_effV2LenHi b hv hl ha)
  case collectPayload =>
    obtain ⟨hc, hq⟩ := Option.ite_none_right_eq_some.1 hq
    cases hq
    have h : PayloadTracks f p := h
    exact (accTracksWith_iff_payloadTracks (inPayload_effPayload b p)).2 (h.effPayload b hc)
  case waitChecksum =>
    subst hq
    split
    · exact h
    · trivial

/-! ### Events of one byte -/

/-- `HALTED` is the state while halted (R25). -/
theorem BlockInv.not_waitFlags_of_halted {s : State} (hb : BlockInv s) (h : s.halted = true) :
    s.p.state ≠ .waitFlags := by
  rw [hb.haltedIff.1 h]; nofun

/-- `RX_BYTE` takes the byte, or leaves the parser alone, which it never does in `WAIT_FLAGS`. -/
theorem BlockInv.exec_rxByte_parser {b : Byte} {s t : State} (hb : BlockInv s)
    (h : Machine.exec (.rxByte b) s = .next t) :
    Machine.parserAfter b s.p = some t.p ∨ (t.p = s.p ∧ s.p.state ≠ .waitFlags) := by
  have h : unlessHalted s (Machine.rxRule b s) = .next t := h
  rcases unlessHalted_cases s (Machine.rxRule b s) with ⟨hh, e⟩ | ⟨-, e⟩ <;> rw [e] at h
  · cases h; exact .inr ⟨rfl, hb.not_waitFlags_of_halted hh⟩
  · cases hq : Machine.parserAfter b s.p with
    | some q => rw [rxRule_eq hq] at h; cases h; exact .inl rfl
    | none =>
      rcases rxRule_none hq with ⟨hs, e⟩ | ⟨hs, e⟩ | ⟨-, e⟩ <;> rw [e] at h <;> cases h
      · exact .inr ⟨rfl, by rw [hs]; nofun⟩
      · exact .inr ⟨rfl, by rw [hs]; nofun⟩

theorem AccTracksWith.rxByte {f b : Byte} {s t : State} (hb : BlockInv s) (h : AccTracksWith f s.p)
    (hx : exec (.rxByte b) s = .next t) : AccTracksWith (if s.p.state = .waitFlags then b else f) t.p := by
  rcases hb.exec_rxByte_parser hx with hq | ⟨hp, hw⟩
  · exact h.parserAfter hq
  · rw [if_neg hw, hp]; exact h

/-- A receive row is `RX_BYTE` on its byte, or it is not performed (30_encoding.md R68; log 4). -/
theorem exec_receiveRow {i : Instr} {st : PState} {b : Byte} (hi : encode i = some (.rxByte st b)) (s : State) :
    exec i s = exec (.rxByte b) s ∨ ∃ r, exec i s = .next (s.setResult r) := by
  have row : ∃ fits body, exec i s = rxRow st fits body s ∧
      (s.p.state = st → fits = true → body s = rxRule b s) := by
    cases i <;> cases hi <;> refine ⟨_, _, rfl, fun hs hf => ?_⟩ <;> simp_all [rxRule]
  obtain ⟨fits, body, hx, hbody⟩ := row
  rcases rxRow_cases st fits body s with ⟨-, e⟩ | ⟨-, -, e⟩ | ⟨hh, hs, hf, e⟩ <;> rw [e] at hx
  · exact .inr ⟨_, hx⟩
  · exact .inr ⟨_, hx⟩
  · refine .inl ?_
    rw [hx, hbody hs hf]
    simp [Machine.exec, execRxByte, hh]

/-! ### A frame as its bytes one by one -/

theorem deliver_of_settle (s : State) : settle s = s ∨ exec .deliver s = .next (settle s) := by
  cases he : deliverEnabled s
  · exact .inl (settle_of_not_enabled he)
  · refine .inr ?_
    rw [settle_of_enabled he]
    simp [exec, execDeliver, he]

theorem BlockInv.settle {s : State} (h : BlockInv s) : BlockInv (settle s) := by
  rcases deliver_of_settle s with e | e
  · rwa [e]
  · exact h.exec e

theorem AccTracksWith.settle {f : Byte} {s : State} (h : AccTracksWith f s.p) : AccTracksWith f (settle s).p := by
  cases he : deliverEnabled s
  · rwa [settle_of_not_enabled he]
  · rw [settle_of_enabled he]; exact accTracksWith_of_quiet (.inl rfl)

theorem settle_state_waitFlags (s : State) : (settle s).p.state = .waitFlags ↔ s.p.state = .waitFlags := by
  cases he : deliverEnabled s
  · rw [settle_of_not_enabled he]
  · rw [settle_of_enabled he]
    simp [((deliverEnabled_iff s).1 he).1]

/-- Under the invariants `RX_BYTE` completes: a payload byte finds its index in the buffer (R45). -/
theorem BlockInv.exec_rxByte_next {s : State} (h : BlockInv s) (b : Byte) :
    ∃ t, Machine.exec (.rxByte b) s = .next t := by
  show ∃ t, unlessHalted s (Machine.rxRule b s) = .next t
  rcases unlessHalted_cases s (Machine.rxRule b s) with ⟨-, e⟩ | ⟨-, e⟩ <;> rw [e]
  · exact ⟨_, rfl⟩
  · cases hq : Machine.parserAfter b s.p with
    | some q => exact ⟨_, rxRule_eq hq⟩
    | none =>
      rcases rxRule_none hq with ⟨-, e⟩ | ⟨-, e⟩ | ⟨hs, -⟩
      · exact ⟨_, e⟩
      · exact ⟨_, e⟩
      · have hc := h.payloadInv.count_lt_of_collect hs
        simp [Machine.parserAfter, hs, hc] at hq

theorem BlockInv.exec_rxByte_settle {s : State} (h : BlockInv s) (b : Byte) :
    Machine.exec (.rxByte b) (Machine.settle s) = .next (Machine.takeByte s b) := by
  obtain ⟨t, ht⟩ := h.settle.exec_rxByte_next b
  simp [Machine.takeByte, ht, after]

theorem BlockInv.takeByte {s : State} (h : BlockInv s) (b : Byte) : BlockInv (Machine.takeByte s b) :=
  h.settle.exec (h.exec_rxByte_settle b)

theorem AccTracksWith.takeByte {f : Byte} {s : State} (hb : BlockInv s) (h : AccTracksWith f s.p) (b : Byte) :
    AccTracksWith (if s.p.state = .waitFlags then b else f) (Machine.takeByte s b).p := by
  have hx := h.settle.rxByte hb.settle (hb.exec_rxByte_settle b)
  simpa only [settle_state_waitFlags] using hx

/-- The claim over a byte sequence, with the flags byte of `flagsAfter`. -/
theorem AccTracksWith.foldl_takeByte (bs : List Byte) {f : Byte} {s : State} (hb : BlockInv s)
    (h : AccTracksWith f s.p) :
    BlockInv (bs.foldl Machine.takeByte s) ∧ AccTracksWith (flagsAfter bs s f) (bs.foldl Machine.takeByte s).p := by
  induction bs generalizing s f with
  | nil => exact ⟨hb, h⟩
  | cons b bs ih => exact ih (hb.takeByte b) (h.takeByte hb b)

/-- Where no byte can be taken there is nothing to deliver either: a delivery makes room for a byte. -/
theorem deliverEnabled_of_not_byteEnabled {s : State} (h : byteEnabled (settle s) = false) :
    deliverEnabled s = false := by
  by_contra hd
  have hd := eq_true_of_ne_false hd
  obtain ⟨-, -, hh⟩ := (deliverEnabled_iff s).1 hd
  simp [settle_of_enabled hd, byteEnabled, hh] at h

/-- A byte that cannot be taken changes the result only. -/
theorem takeByte_of_not_enabled {s : State} (h : byteEnabled (settle s) = false) (b : Byte) :
    ∃ r, takeByte s b = s.setResult r := by
  have hs := settle_of_not_enabled (deliverEnabled_of_not_byteEnabled h)
  rw [hs] at h
  have hx : exec (.rxByte b) s = unlessHalted s (rxRule b s) := rfl
  rw [takeByte, hs, hx]
  rcases unlessHalted_cases s (rxRule b s) with ⟨-, e⟩ | ⟨hh, e⟩ <;> rw [e]
  · exact ⟨_, rfl⟩
  · have hst : s.p.state = .holdDeliver ∨ s.p.state = .halted := by
      simpa [byteEnabled, hh, or_iff_not_imp_left] using h
    rcases hst with hst | hst <;> simp only [rxRule, hst] <;> exact ⟨_, rfl⟩

/-- Bytes that cannot be taken do not move the flags byte. -/
theorem flagsAfter_of_not_enabled (bs : List Byte) (f : Byte) {s : State} (h : byteEnabled (settle s) = false)
    (hw : s.p.state ≠ .waitFlags) : flagsAfter bs s f = f := by
  induction bs generalizing s with
  | nil => rfl
  | cons b bs ih =>
    have hd := deliverEnabled_of_not_byteEnabled h
    obtain ⟨r, hr⟩ := takeByte_of_not_enabled h b
    rw [flagsAfter_cons, if_neg hw, hr]
    refine ih ?_ hw
    rw [settle_of_not_enabled hd] at h
    rwa [settle_of_not_enabled (s := s.setResult r) hd]

theorem BlockInv.not_waitFlags_of_not_enabled {s : State} (hb : BlockInv s)
    (h : byteEnabled (Machine.settle s) = false) : s.p.state ≠ .waitFlags := by
  intro hs
  have hd := deliverEnabled_of_not_byteEnabled h
  have hh : s.halted = false := hb.running (by rw [hs]; nofun)
  simp [settle_of_not_enabled hd, byteEnabled, hh, hs] at h

/-- The parser after a received frame row: unmoved while halted, else that of the state `RX` reached, unless no byte at
all was taken. -/
theorem receive_parser {bs : List Byte} {s t : State} (h : receive bs s = .next t) :
    (s.halted = true ∧ t.p = s.p) ∨
      ∃ u rest, rxBytes bs s = .next (u, rest) ∧ t.p = if rest.length = bs.length then s.p else u.p := by
  unfold receive at h
  rcases unlessHalted_cases s _ with ⟨hh, e⟩ | ⟨-, e⟩ <;> rw [e] at h
  · cases h; exact .inl ⟨hh, rfl⟩
  · cases hr : rxBytes bs s with
    | next ur =>
      refine .inr ⟨ur.1, ur.2, rfl, ?_⟩
      rw [hr] at h
      simp only at h
      split at h <;> cases h
      · rw [if_pos ‹_›]; rfl
      · rw [if_neg ‹_›]; rfl
    | fault r => rw [hr] at h; cases h
    | refused r => rw [hr] at h; cases h

theorem AccTracksWith.receive {f : Byte} {bs : List Byte} {s t : State} (hb : BlockInv s) (h : AccTracksWith f s.p)
    (hx : receive bs s = .next t) : AccTracksWith (flagsAfter bs s f) t.p := by
  rcases receive_parser hx with ⟨hh, hp⟩ | ⟨u, rest, hr, hp⟩
  · rw [hp]; exact accTracksWith_of_quiet (.inr (hb.haltedIff.1 hh))
  · obtain ⟨bytes, rfl, -, hrest, hu⟩ := rxBytes_takeByte bs s u rest hr
    obtain ⟨hb', h'⟩ := h.foldl_takeByte bytes hb
    have hflags : flagsAfter (bytes ++ rest) s f = flagsAfter bytes s f := by
      rw [flagsAfter_append]
      rcases hrest with rfl | hn
      · rfl
      · exact flagsAfter_of_not_enabled rest _ hn (hb'.not_waitFlags_of_not_enabled hn)
    rw [hflags, hp]
    split
    · rename_i hlen
      have hnil : bytes = [] := by simpa using hlen
      rw [hnil]; exact h
    · have hup := congrArg State.p (hu .silent)
      simp only [State.setResult_p] at hup
      rw [hup]; exact h'.settle

/-! ### Every event -/

/-- The events of the reader: a byte class, a received frame, or one of its three events (30_encoding.md R73). -/
theorem reader_cases {i : Instr} (h : i.agent = .reader) :
    (∃ st b, encode i = some (.rxByte st b)) ∨
    (∃ bs, encode i = some (.frame bs) ∧ ∀ s, exec i s = receive bs s) ∨
    (∃ b, i = .rxByte b) ∨ i = .deliver ∨ i = .rxFail := by
  cases i <;> simp [Instr.agent] at h <;> simp [encode]
  case frameV1RxResponse | frameV1RxRequest | frameV2RxResponse | frameV2RxRequest => intro s; rfl

/-- The other agents leave the parser alone or reset it (R116, R190). -/
theorem exec_parser_of_not_reader {i : Instr} {s t : State} (ha : i.agent ≠ .reader) (h : exec i s = .next t) :
    t.p = s.p ∨ t.p = Parser.atReset := by
  cases exec_moved h with
  | byte _ _ _ hr _ _ _ _ => exact absurd hr ha
  | received _ _ _ _ _ hr _ _ _ => exact absurd hr ha
  | deliver _ => exact absurd rfl ha
  | lost _ => exact absurd rfl ha
  | reset => exact .inr rfl
  | _ => exact .inl rfl

theorem receivedBytes_of_not_reader {i : Instr} (h : i.agent ≠ .reader) : receivedBytes i = [] := by
  simp [receivedBytes, h]

theorem receivedBytes_of_encode {i : Instr} {st : PState} {b : Byte} (hi : encode i = some (.rxByte st b)) :
    receivedBytes i = [b] := by
  cases i <;> cases hi <;> rfl

/-- A byte offered to a state whose parser does not move is no flags byte the claim speaks of. -/
theorem AccTracksWith.ite_waitFlags {f b : Byte} {p : Parser} (h : AccTracksWith f p) :
    AccTracksWith (if p.state = .waitFlags then b else f) p := by
  split
  · exact h.of_waitFlags ‹_›
  · exact h

theorem AccTracksWith.exec {f : Byte} {i : Instr} {s t : State} (hb : BlockInv s) (h : AccTracksWith f s.p)
    (hx : exec i s = .next t) : AccTracksWith (flagsAfter (receivedBytes i) s f) t.p := by
  by_cases ha : i.agent = .reader
  · rcases reader_cases ha with ⟨st, b, hi⟩ | ⟨bs, hi, he⟩ | ⟨b, rfl⟩ | rfl | rfl
    · rw [receivedBytes_of_encode hi, flagsAfter_cons, flagsAfter_nil]
      rcases exec_receiveRow hi s with e | ⟨r, e⟩ <;> rw [e] at hx
      · exact h.rxByte hb hx
      · cases hx; exact h.ite_waitFlags
    · have hbytes : receivedBytes i = bs := by simp [receivedBytes, ha, hi]
      rw [hbytes]
      exact h.receive hb (he s ▸ hx)
    · exact h.rxByte hb hx
    · have hx : execDeliver s = .next t := hx
      rcases execDeliver_cases s with ⟨-, e⟩ | ⟨-, e⟩ <;> rw [e] at hx <;> cases hx
      · exact accTracksWith_of_quiet (.inl rfl)
      · exact h
    · have hx : unlessHalted s (enterHalt s) = .next t := hx
      rcases unlessHalted_cases s (enterHalt s) with ⟨-, e⟩ | ⟨-, e⟩ <;> rw [e] at hx <;> cases hx
      · exact h
      · exact accTracksWith_of_quiet (.inr rfl)
  · rw [receivedBytes_of_not_reader ha]
    rcases exec_parser_of_not_reader ha hx with hp | hp <;> rw [hp]
    · exact h
    · exact accTracksWith_of_quiet (.inl rfl)

/-! ### Every step -/

theorem SameBlock.deliverEnabled {s t : State} (h : SameBlock s t) : deliverEnabled t = deliverEnabled s := by
  simp [Machine.deliverEnabled, h.p, h.slot, h.halted]

/-- `takeByte` reads the block's tuple only. -/
theorem SameBlock.settle {s t : State} (h : SameBlock s t) : SameBlock (settle s) (settle t) := by
  cases hd : Machine.deliverEnabled s
  · rwa [settle_of_not_enabled hd, settle_of_not_enabled (h.deliverEnabled.trans hd)]
  · rw [settle_of_enabled hd, settle_of_enabled (h.deliverEnabled.trans hd)]
    exact ⟨congrArg (Parser.goto · _) h.p, by simp [h.p], h.mux, h.fifo, h.halted, h.obs⟩

theorem SameBlock.symm {s t : State} (h : SameBlock s t) : SameBlock t s :=
  ⟨h.p.symm, h.slot.symm, h.mux.symm, h.fifo.symm, h.halted.symm, h.obs.symm⟩

theorem SameBlock.trans {s t u : State} (h : SameBlock s t) (k : SameBlock t u) : SameBlock s u :=
  ⟨k.p.trans h.p, k.slot.trans h.slot, k.mux.trans h.mux, k.fifo.trans h.fifo, k.halted.trans h.halted,
    k.obs.trans h.obs⟩

theorem sameBlock_after_rxRule_of_none {b : Byte} {s : State} (h : parserAfter b s.p = none) :
    SameBlock s (after s (rxRule b s)) := by
  rcases rxRule_none h with ⟨-, e⟩ | ⟨-, e⟩ | ⟨-, e⟩ <;> rw [e] <;> exact ⟨rfl, rfl, rfl, rfl, rfl, rfl⟩

theorem SameBlock.after_rxByte {s t : State} (h : SameBlock s t) (b : Byte) :
    SameBlock (after s (exec (.rxByte b) s)) (after t (exec (.rxByte b) t)) := by
  show SameBlock (after s (unlessHalted s (rxRule b s))) (after t (unlessHalted t (rxRule b t)))
  cases hh : s.halted
  · rw [unlessHalted_of_running hh, unlessHalted_of_running (h.halted.trans hh)]
    cases hq : parserAfter b s.p with
    | some q =>
      rw [rxRule_eq hq, rxRule_eq (s := t) (h.p ▸ hq)]
      exact ⟨rfl, h.slot, h.mux, h.fifo, h.halted, by simp [after, h.p, h.obs]⟩
    | none =>
      exact (sameBlock_after_rxRule_of_none hq).symm.trans
        (h.trans (sameBlock_after_rxRule_of_none (s := t) (h.p ▸ hq)))
  · rw [unlessHalted_of_halted hh, unlessHalted_of_halted (h.halted.trans hh)]
    exact ⟨h.p, h.slot, h.mux, h.fifo, h.halted, h.obs⟩

theorem SameBlock.takeByte {s t : State} (h : SameBlock s t) (b : Byte) : SameBlock (takeByte s b) (takeByte t b) :=
  h.settle.after_rxByte b

theorem SameBlock.flagsAfter {s t : State} (h : SameBlock s t) (bs : List Byte) (f : Byte) :
    flagsAfter bs t f = flagsAfter bs s f := by
  induction bs generalizing s t f with
  | nil => rfl
  | cons b bs ih => rw [flagsAfter_cons, flagsAfter_cons, h.p]; exact ih (h.takeByte b) _

theorem receivedBytes_of_consumerMay {i : Instr} (h : i.consumerMay = true) : receivedBytes i = [] := by
  refine receivedBytes_of_not_reader fun ha => ?_
  simp [Instr.consumerMay, ha] at h

/-- The class the receive opcode map gives a byte is coded by that byte (30_encoding.md R68). -/
theorem encode_of_decodeRx {st : PState} {acc b : Byte} {i : Instr} (h : decodeRx st acc b = .ok i) :
    encode i = some (.rxByte st b) := by
  cases st <;> simp only [decodeRx] at h <;> (repeat' split at h) <;> cases h <;> simp_all [encode]

theorem receivedBytes_rxInstr (s : State) (b : Byte) : receivedBytes (rxInstr s b) = [b] := by
  unfold rxInstr
  split
  · exact receivedBytes_of_encode (encode_of_decodeRx ‹_›)
  · rfl

/-- The block is left alone and nothing is received, or it is moved by one event, which receives the bytes `bs`. -/
def MovedReceiving (bs : List Byte) (s t : State) : Prop :=
  (bs = [] ∧ SameBlock s t) ∨ ∃ i, receivedBytes i = bs ∧ MovedBy i s t

theorem MovedReceiving.of_sameBlock {bs : List Byte} {s s' t : State} (hs : SameBlock s s')
    (h : MovedReceiving bs s' t) : MovedReceiving bs s t := by
  rcases h with ⟨hb, h⟩ | ⟨i, hb, s'', u, h1, h2, h3⟩
  · exact .inl ⟨hb, hs.trans h⟩
  · exact .inr ⟨i, hb, s'', u, hs.trans h1, h2, h3⟩

theorem runConsumer_receives {s t : State} (h : runConsumer s = .next t) : MovedReceiving [] s t := by
  rcases runConsumer_cases h with h | ⟨i, hi, h⟩
  · exact .inl ⟨rfl, h⟩
  · exact .inr ⟨i, receivedBytes_of_consumerMay hi, h⟩

/-- An offered event of the consumer may be run as another call of the consumer, which receives nothing either. -/
theorem runOffered_receives {i : Instr} {s t : State} (h : runOffered i s = .next t) :
    MovedReceiving (receivedBytes i) s t := by
  rcases runOffered_cases i s with ⟨hm, -, e⟩ | ⟨hm, -, -, e⟩ | ⟨-, e⟩ <;> rw [e] at h
  · rw [receivedBytes_of_consumerMay hm]
    exact .of_sameBlock (s' := s.setConsumer (.calls [i])) ⟨rfl, rfl, rfl, rfl, rfl, rfl⟩ (runConsumer_receives h)
  · rw [receivedBytes_of_consumerMay hm]
    exact runConsumer_receives h
  · exact .inr ⟨i, rfl, movedBy_of_exec h⟩

/-- A step is at most one event, and that event receives the bytes of the turn. -/
theorem step_receives {s t : State} (h : step s = .next t) : MovedReceiving (turnBytes s) s t := by
  unfold step at h
  cases hs : s.io.schedule with
  | nil =>
    simp only [hs] at h
    cases h
    exact .inl ⟨by simp only [turnBytes, hs], .refl s⟩
  | cons turn rest =>
    simp only [hs] at h
    refine MovedReceiving.of_sameBlock (s' := s.setSchedule rest) ⟨rfl, rfl, rfl, rfl, rfl, rfl⟩ ?_
    cases turn with
    | rx =>
      rcases runRx_cases h with ⟨hrx, rfl⟩ | ⟨b, r, hrx, h⟩ | ⟨bs, r, hrx, h⟩ <;>
        simp only [State.setSchedule_io_rx] at hrx <;> simp only [turnBytes, hs, hrx]
      · exact .inl ⟨rfl, .refl _⟩
      · exact .inr ⟨_, receivedBytes_rxInstr _ b, h⟩
      · exact .inr ⟨_, rfl, h⟩
    | consumer => simpa only [turnBytes, hs] using runConsumer_receives h
    | offer i => simpa only [turnBytes, hs] using runOffered_receives h
    | word c =>
      simp only [runTurn, runWord, State.setSchedule_p] at h
      cases hd : decode s.p.acc c with
      | ok i => rw [hd] at h; simpa only [turnBytes, hs, hd] using runOffered_receives h
      | error e => rw [hd] at h; cases h

theorem AccTracksWith.step {f : Byte} {s t : State} (hb : BlockInv s) (h : AccTracksWith f s.p)
    (hx : step s = .next t) : AccTracksWith (flagsAfter (turnBytes s) s f) t.p := by
  rcases step_receives hx with ⟨e, hst⟩ | ⟨i, e, s', u, h1, h2, h3⟩
  · rw [e, hst.p]; exact h
  · rw [← e, h3.p, ← h1.flagsAfter]
    exact AccTracksWith.exec (hb.sameBlock h1) (h1.p ▸ h) h2

/-- Settles O46: one taken byte keeps the claim by the rule of its state; the other events leave the parser alone or in a
state without claim, a frame is its bytes one by one, and a step is at most one event. -/
theorem stepKeepsAccTracking : Obligations.StepKeepsAccTracking := by
  intro f s t hb h
  refine ⟨fun i hx => h.exec hb hx, fun hx => h.step hb hx, fun hs b hx => ?_, fun hs b hx => ⟨?_, ?_⟩⟩
  · simpa only [if_neg hs] using h.rxByte hb hx
  · simpa only [if_pos hs] using h.rxByte hb hx
  · rcases hb.exec_rxByte_parser hx with hq | ⟨-, hw⟩
    · simp only [parserAfter, hs, Option.some.injEq] at hq
      rw [← hq]; rfl
    · exact absurd hs hw

end Sys2Proof.Machine
end

section
/-! PROOFS, family 20_memory.md. The payload buffer: a payload byte is its only writer, and there is no index 65535
(20_memory.md R40, R45). Under the invariants of the block every event completes, and no step faults. -/

namespace Sys2Proof.Machine

/-! ### The buffer -/

/-- One byte writes the buffer only in `COLLECT_PAYLOAD`, at index `P.count` (R45, R112). -/
theorem read_parserAfter {b : Byte} {p q : Parser} (h : parserAfter b p = some q) {k : Nat}
    (hk : ¬ (p.state = .collectPayload ∧ k = p.count.toNat)) : q.buf.read k = p.buf.read k := by
  rcases parserAfter_cases h with ⟨hb, -, -⟩ | ⟨hb, -, -⟩ | ⟨hs, -, rfl⟩ | ⟨-, rfl⟩
  · rw [hb]
  · rw [hb]
  · exact Memory.read_write_other _ b fun e => hk ⟨hs, e⟩
  · rfl

/-- Settles O53: of the events that are no frame row only a taken byte writes the buffer. -/
theorem onlyPayloadBytesWriteTheBuffer : Obligations.OnlyPayloadBytesWriteTheBuffer := by
  intro i s t ha hf hx k hk
  cases exec_moved hx with
  | byte _ b q _ _ _ _ hq => exact read_parserAfter hq hk
  | received _ bs _ _ hi _ _ _ _ => exact absurd hi (hf bs)
  | reset => cases ha
  | _ => rfl

/-- Settles O10: the payload row finds no index 65535 in the buffer (R40). -/
theorem payloadByteBeyondBufferFaults : Obligations.PayloadByteBeyondBufferFaults := by
  intro s d hh hs hc
  have hcollect : collect d s = .fault .bufferIndex := by
    rcases collect_cases d s with ⟨hlt, -⟩ | ⟨-, e⟩
    · simp [hc] at hlt
    · exact e
  constructor
  · exact (rxRow_enabled (collect d) hh hs rfl).trans hcollect
  · show unlessHalted s (rxRule d s) = _
    rw [unlessHalted_of_running hh]
    simpa only [rxRule, hs] using hcollect

/-! ### Every event completes -/

theorem issue_next (cmd : U16) (p : List Byte) (s : State) : ∃ t, issue cmd p s = .next t := by
  rcases issue_cases cmd p s with ⟨-, e⟩ | ⟨-, -, e⟩ | ⟨-, -, -, e⟩ | ⟨-, -, _, -, e⟩ <;> exact ⟨_, e⟩

theorem transmit_next (v2 : Bool) (cmd : U16) (p : List Byte) (s : State) : ∃ t, transmit v2 cmd p s = .next t := by
  unfold transmit
  rcases unlessHalted_cases s (if selectsV2 s.mux.usesV2 cmd.toNat = v2 then issue cmd p s else hold s) with
    ⟨-, e⟩ | ⟨-, e⟩ <;> rw [e]
  · exact ⟨_, rfl⟩
  · split
    · exact issue_next cmd p s
    · exact ⟨_, rfl⟩

/-- The events of the consumer, the transport and the environment, and the pure functions, complete in every state. -/
theorem exec_next_of_not_reader {i : Instr} (ha : i.agent ≠ .reader) (s : State) : ∃ t, exec i s = .next t := by
  cases i with
  | frameV1Tx _ _ | frameV2Tx _ _ => exact transmit_next _ _ _ s
  | apiVersion | fcVariant | fcVersion | boardInfo | buildInfo | name => exact issue_next _ _ s
  | status | rc | statusEx | setRawRc | inavStatus2 | issue _ _ => exact issue_next _ _ s
  | reset => exact ⟨_, rfl⟩
  | take =>
    show ∃ t, execTake s = .next t
    rcases execTake_cases s with ⟨-, e⟩ | ⟨-, -, e⟩ | ⟨-, -, e⟩ <;> rw [e]
    · exact ⟨_, rfl⟩
    · exact ⟨_, rfl⟩
    · exact ⟨_, takeFrame_eq s⟩
  | cfgSetV2 v =>
    show ∃ t, unlessHalted s (finish (s.setMux { s.mux with usesV2 := v }) .ok) = .next t
    rcases unlessHalted_cases s (finish (s.setMux { s.mux with usesV2 := v }) .ok) with ⟨-, e⟩ | ⟨-, e⟩ <;>
      exact ⟨_, e⟩
  | txDrain n =>
    rcases execTxDrain_cases n s with ⟨-, e⟩ | ⟨-, -, e⟩ | ⟨-, -, -, e⟩ <;> exact ⟨_, e⟩
  | encodeV1 _ _ | encodeV2 _ _ | encode _ _ _ =>
    obtain ⟨r, e⟩ := returnBytes_next s _
    exact ⟨_, e⟩
  | _ => exact absurd rfl ha

/-- A byte that can be taken finds its index in the buffer (R45). -/
theorem BlockInv.rxRule_next {s : State} (h : BlockInv s) (he : byteEnabled s = true) (b : Byte) :
    ∃ t, Machine.rxRule b s = .next t := by
  obtain ⟨hh, -, -⟩ := (byteEnabled_iff s).1 he
  obtain ⟨t, ht⟩ := h.exec_rxByte_next b
  exact ⟨t, (unlessHalted_of_running hh (Machine.rxRule b s)).symm.trans ht⟩

theorem BlockInv.deliverIfEnabled {s : State} (h : BlockInv s) : BlockInv (deliverIfEnabled s) := by
  unfold Machine.deliverIfEnabled
  split
  · exact h.deposit ‹_›
  · exact h

/-- `RX` on any byte sequence goes as far as it can and does not fault (30_encoding.md R75). -/
theorem BlockInv.rxBytes_next (bs : List Byte) {s : State} (h : BlockInv s) :
    ∃ u rest, rxBytes bs s = .next (u, rest) := by
  induction bs generalizing s with
  | nil => exact ⟨_, _, rfl⟩
  | cons b bs ih =>
    simp only [rxBytes]
    split
    · rename_i he
      obtain ⟨t, ht⟩ := h.deliverIfEnabled.rxRule_next he b
      rw [ht]
      exact ih (h.deliverIfEnabled.rxRule he ht)
    · exact ⟨_, _, rfl⟩

/-- A received frame row that is not refused: held when no byte was taken, else the state `RX` reached, with the bytes
not taken in front of its RX stream (20_memory.md R41; log 5). -/
theorem receive_of_rxBytes {bs rest : List Byte} {s u : State} (hh : s.halted = false)
    (hr : rxBytes bs s = .next (u, rest)) :
    receive bs s = if rest.length = bs.length then .next (s.setResult .held)
      else .next ((u.setRx (rest.map RxItem.byte ++ u.io.rx)).setResult .silent) := by
  simp [receive, unlessHalted_of_running hh, hr]

/-- Every event completes in a state that meets the invariants. -/
theorem BlockInv.exec_next {s : State} (h : BlockInv s) (i : Instr) : ∃ t, Machine.exec i s = .next t := by
  by_cases ha : i.agent = .reader
  · rcases reader_cases ha with ⟨st, b, hi⟩ | ⟨bs, -, he⟩ | ⟨b, rfl⟩ | rfl | rfl
    · rcases exec_receiveRow hi s with e | ⟨r, e⟩
      · rw [e]; exact h.exec_rxByte_next b
      · exact ⟨_, e⟩
    · rw [he]
      cases hh : s.halted
      · obtain ⟨u, rest, hr⟩ := h.rxBytes_next bs
        rw [receive_of_rxBytes hh hr]
        split <;> exact ⟨_, rfl⟩
      · exact ⟨_, unlessHalted_of_halted hh _⟩
    · exact h.exec_rxByte_next b
    · rcases execDeliver_cases s with ⟨-, e⟩ | ⟨-, e⟩ <;> exact ⟨_, e⟩
    · rcases unlessHalted_cases s (enterHalt s) with ⟨-, e⟩ | ⟨-, e⟩ <;> exact ⟨_, e⟩
  · exact exec_next_of_not_reader ha s

/-! ### No step faults -/

/-- The outcome is no fault: a next state, or a refusal of the step. -/
def Faultless (o : Out) : Prop := ∀ r, o ≠ .fault r

theorem faultless_of_next {o : Out} (h : ∃ t, o = .next t) : Faultless o := by
  obtain ⟨t, rfl⟩ := h
  exact nofun

/-- What a step adds around an event raises no fault of its own. -/
theorem Faultless.keepRx {o : Out} (h : Faultless o) (rx : List RxItem) : Faultless (keepRx rx o) := by
  cases o with
  | next t => simp only [Machine.keepRx]; split <;> nofun
  | fault r => exact absurd rfl (h r)
  | refused r => nofun

theorem Faultless.keepCall {o : Out} (h : Faultless o) (c : Consumer) : Faultless (keepCall c o) := by
  cases o with
  | next t => simp only [Machine.keepCall]; split <;> nofun
  | fault r => exact absurd rfl (h r)
  | refused r => nofun

theorem Faultless.hostGoesOn {o : Out} (h : Faultless o) (ph : HostPhase) : Faultless (hostGoesOn ph o) := by
  cases o with
  | next t => nofun
  | fault r => exact absurd rfl (h r)
  | refused r => nofun

/-- A state that differs from one that meets the invariants in its inputs only. -/
theorem BlockInv.setIo {s : State} (h : BlockInv s) (io : Inputs) : BlockInv (s.setIo io) :=
  h.of_parser_eq rfl rfl (fun _ => rfl) fun _ hc => .inl hc

theorem BlockInv.faultless_exec {s : State} (h : BlockInv s) (i : Instr) : Faultless (Machine.exec i s) :=
  faultless_of_next (h.exec_next i)

theorem BlockInv.faultless_runRx {s : State} (h : BlockInv s) : Faultless (runRx s) := by
  unfold runRx
  split
  · nofun
  · exact ((h.setIo _).faultless_exec _).keepRx _
  · exact ((h.setIo _).faultless_exec _).keepRx _

theorem BlockInv.faultless_runConsumer {s : State} (h : BlockInv s) : Faultless (runConsumer s) := by
  unfold runConsumer
  split
  · nofun
  · split
    · exact ((h.setIo _).faultless_exec _).keepCall _
    · nofun
  · split
    · nofun
    · exact (h.faultless_exec _).hostGoesOn _

theorem BlockInv.faultless_runOffered {s : State} (h : BlockInv s) (i : Instr) : Faultless (runOffered i s) := by
  rcases runOffered_cases i s with ⟨-, -, e⟩ | ⟨-, -, -, e⟩ | ⟨-, e⟩ <;> rw [e]
  · exact (h.setIo _).faultless_runConsumer
  · exact h.faultless_runConsumer
  · exact h.faultless_exec i

theorem BlockInv.faultless_runTurn {s : State} (h : BlockInv s) (turn : Turn) : Faultless (runTurn turn s) := by
  cases turn with
  | rx => exact h.faultless_runRx
  | consumer => exact h.faultless_runConsumer
  | offer i => exact h.faultless_runOffered i
  | word c =>
    simp only [runTurn, runWord]
    split
    · exact h.faultless_runOffered _
    · nofun

/-- Settles O48: a payload byte always finds its index, so that no event faults, and a step adds no fault. -/
theorem everyEventCompletesUnderTheInvariants : Obligations.EveryEventCompletesUnderTheInvariants := by
  intro s h
  refine ⟨h.exec_next, ?_⟩
  unfold step
  split
  · nofun
  · exact (h.setIo _).faultless_runTurn _

end Sys2Proof.Machine
end

section
/-! PROOFS, family 20_memory.md. What a step runs: the item at the front of the RX stream (20_memory.md R41, R43), or an
offered event as the one consumer's call (R55); and that a byte the reader does not take stays in the transport. -/

namespace Sys2Proof.Machine

/-! ### The receive rows and their byte -/

/-- A receive row holds in its state, for a byte of its class, and its effect there is the rule of that byte
(30_encoding.md R68; log 4). -/
theorem exec_eq_rxRow {i : Instr} {st : PState} {b : Byte} (hi : encode i = some (.rxByte st b)) (s : State) :
    ∃ body, exec i s = rxRow st (i.wellFormed && i.fitsAcc s.p.acc) body s ∧
      (s.p.state = st → (i.wellFormed && i.fitsAcc s.p.acc) = true → body s = rxRule b s) := by
  have row : ∃ fits body, exec i s = rxRow st fits body s ∧ fits = (i.wellFormed && i.fitsAcc s.p.acc) ∧
      (s.p.state = st → fits = true → body s = rxRule b s) := by
    cases i <;> cases hi <;> refine ⟨_, _, rfl, by simp [Instr.wellFormed, Instr.fitsAcc], fun hs hf => ?_⟩ <;>
      simp_all [rxRule]
  obtain ⟨fits, body, hx, rfl, hbody⟩ := row
  exact ⟨body, hx, hbody⟩

/-- A receive row is refused while halted (60_exceptions.md R180). -/
theorem exec_receiveRow_of_halted {i : Instr} {st : PState} {b : Byte} (hi : encode i = some (.rxByte st b))
    {s : State} (hh : s.halted = true) : exec i s = .next (s.setResult (.refused .refusedHalted)) := by
  obtain ⟨body, hx, -⟩ := exec_eq_rxRow hi s
  rw [hx, rxRow, unlessHalted_of_halted hh, refuse_eq]

/-- The class the receive opcode map gives a byte is one the byte is in. -/
theorem fits_of_decodeRx {st : PState} {acc b : Byte} {i : Instr} (h : decodeRx st acc b = .ok i) :
    (i.wellFormed && i.fitsAcc acc) = true := by
  cases st <;> simp only [decodeRx] at h <;> (repeat' split at h) <;> cases h <;>
    simp_all [Instr.wellFormed, Instr.fitsAcc]

/-- The row the receive opcode map gives for a byte runs the rule of the parser's state on it (R68, R100). -/
theorem exec_of_decodeRx {s : State} {b : Byte} {i : Instr} (hh : s.halted = false)
    (h : decodeRx s.p.state s.p.acc b = .ok i) : exec i s = rxRule b s := by
  have hfits := fits_of_decodeRx h
  obtain ⟨body, hx, hbody⟩ := exec_eq_rxRow (encode_of_decodeRx h) s
  rw [hx, rxRow_enabled body hh rfl hfits, hbody rfl hfits]

/-! ### One turn -/

theorem step_of_nil {s : State} (h : s.io.schedule = []) : step s = .next s := by
  simp only [step, h]

theorem step_of_cons {s : State} {turn : Turn} {sched : List Turn} (h : s.io.schedule = turn :: sched) :
    step s = runTurn turn (s.setSchedule sched) := by
  simp only [step, h]

theorem runRx_nil {s : State} (h : s.io.rx = []) : runRx s = .next s := by
  simp only [runRx, h]

theorem runRx_byte {s : State} {b : Byte} {rest : List RxItem} (h : s.io.rx = .byte b :: rest) :
    runRx s = keepRx s.io.rx (exec (rxInstr s b) (s.setRx rest)) := by
  simp only [runRx, h]

theorem runRx_fail {s : State} {bytes : List Byte} {rest : List RxItem} (h : s.io.rx = .fail bytes :: rest) :
    runRx s = keepRx s.io.rx (exec .rxFail (s.setRx rest)) := by
  simp only [runRx, h]

/-- An item whose event was not performed is still at the front of the RX stream (log 16). -/
theorem keepRx_setResult {s : State} {r : Result} (hr : notPerformed r = true) (rest : List RxItem) :
    keepRx s.io.rx (.next ((s.setRx rest).setResult r)) = .next (s.setResult r) := by
  simp only [keepRx, State.setResult_result, hr, if_true]
  rfl

/-- A performed event has consumed its item. -/
theorem keepRx_of_performed {o : Out} (h : ∀ t, o = .next t → notPerformed t.result = false) (rx : List RxItem) :
    keepRx rx o = o := by
  cases o with
  | next t => simp [keepRx, h t rfl]
  | fault r => rfl
  | refused r => rfl

/-- A byte that can be taken is performed (42_parser.md R100). -/
theorem rxRule_performed {b : Byte} {s t : State} (he : byteEnabled s = true) (h : rxRule b s = .next t) :
    notPerformed t.result = false := by
  obtain ⟨-, hd, hl⟩ := (byteEnabled_iff s).1 he
  cases hq : parserAfter b s.p with
  | some q => rw [rxRule_eq hq] at h; cases h; rfl
  | none =>
    rcases rxRule_none hq with ⟨hs, -⟩ | ⟨hs, -⟩ | ⟨-, e⟩
    · exact absurd hs hd
    · exact absurd hs hl
    · rw [e] at h; cases h

/-- The receive opcode map has a class for a byte only where one can be taken (30_encoding.md R68). -/
theorem byteEnabled_of_decodeRx {s : State} {b : Byte} {i : Instr} (hh : s.halted = false)
    (h : decodeRx s.p.state s.p.acc b = .ok i) : byteEnabled s = true := by
  refine (byteEnabled_iff s).2 ⟨hh, fun hs => ?_, fun hs => ?_⟩ <;> simp [hs, decodeRx] at h

/-- A decoded byte at the front of the RX stream: its row runs, and the byte is gone (20_memory.md R41). -/
theorem runRx_of_decode {s : State} {b : Byte} {rest : List RxItem} {i : Instr} (hrx : s.io.rx = .byte b :: rest)
    (hh : s.halted = false) (hd : decode s.p.acc (.rxByte s.p.state b) = .ok i) :
    runRx s = exec i (s.setRx rest) := by
  have hi : rxInstr s b = i := by simp only [rxInstr, hd]
  have hd' : decodeRx (s.setRx rest).p.state (s.setRx rest).p.acc b = .ok i := hd
  rw [runRx_byte hrx, hi]
  refine keepRx_of_performed (fun t ht => ?_) _
  rw [exec_of_decodeRx (s := s.setRx rest) hh hd'] at ht
  exact rxRule_performed (byteEnabled_of_decodeRx (s := s.setRx rest) hh hd') ht

/-- A failing read at the front of the RX stream: `RX_FAIL` runs, and the item is gone (R43). -/
theorem runRx_of_fail {s : State} {bytes : List Byte} {rest : List RxItem} (hrx : s.io.rx = .fail bytes :: rest)
    (hh : s.halted = false) : runRx s = exec .rxFail (s.setRx rest) := by
  have hx : exec .rxFail (s.setRx rest) = .next (lost (s.setRx rest)) :=
    unlessHalted_of_running (s := s.setRx rest) hh _
  rw [runRx_fail hrx]
  refine keepRx_of_performed (fun t ht => ?_) _
  rw [hx] at ht
  cases ht
  rfl

/-! ### An offered event -/

/-- No call of the consumer touches the inputs. -/
theorem exec_io_of_consumerMay {i : Instr} {s t : State} (hm : i.consumerMay = true) (h : exec i s = .next t) :
    t.io = s.io := by
  cases exec_moved h with
  | received _ _ _ _ _ ha _ _ _ => simp [Instr.consumerMay, ha] at hm
  | reset => cases hm
  | _ => rfl

theorem keepCall_of_held {t : State} (h : t.result = .held) (c : Consumer) :
    keepCall c (.next t) = .next ((t.setConsumer c).setWaiting true) := by
  simp only [keepCall, h, if_true]

theorem keepCall_of_performed {t : State} (h : t.result ≠ .held) (c : Consumer) :
    keepCall c (.next t) = .next (t.setWaiting false) := by
  simp only [keepCall, if_neg h]

/-- An event offered to a consumer without a call left is its next call (log 32). -/
theorem runOffered_of_no_calls {i : Instr} {s : State} (hm : i.consumerMay = true) (hc : s.io.consumer = .calls []) :
    runOffered i s = keepCall (.calls [i]) (exec i s) := by
  have hs : (s.setConsumer (.calls [i])).setConsumer (.calls []) = s := by rw [← hc]; rfl
  simp [runOffered, runConsumer, hm, hc, hs]

/-- An event the consumer is not suspended in, offered beside its calls, is run as it is (log 32). -/
theorem runOffered_beside {i : Instr} {s : State} (hc : s.io.consumer ≠ .calls []) (hh : heldCall s ≠ some i) :
    runOffered i s = exec i s := by
  simp [runOffered, hc, hh]

theorem runOffered_of_not_consumerMay {i : Instr} {s : State} (hm : i.consumerMay = false) :
    runOffered i s = exec i s := by
  simp [runOffered, hm]

/-- The call the consumer is suspended in, offered again, is the consumer's turn (R55; log 32). -/
theorem runOffered_of_held {i : Instr} {s : State} (hm : i.consumerMay = true) (hh : heldCall s = some i) :
    runOffered i s = runConsumer s := by
  have hc : s.io.consumer ≠ .calls [] := fun hc => by simp [heldCall, hc] at hh
  simp [runOffered, hm, hc, hh]

/-- An event offered, or a coded row that decodes to it. -/
theorem step_of_offered {s : State} {sched : List Turn} {turn : Turn} {i : Instr}
    (ht : turn = .offer i ∨ ∃ c, turn = .word c ∧ decode s.p.acc c = .ok i) (hs : s.io.schedule = turn :: sched) :
    step s = runOffered i (s.setSchedule sched) := by
  rw [step_of_cons hs]
  rcases ht with rfl | ⟨c, rfl, hd⟩
  · rfl
  · simp only [runTurn, runWord, State.setSchedule_p, hd]

/-- Settles O54: the reader's turn by its item, an offered event by the consumer's calls. -/
theorem stepRunsTheDecodedInstruction : Obligations.StepRunsTheDecodedInstruction := by
  intro s sched
  refine ⟨fun b rest i hs hrx hh hd => ?_, fun bytes rest hs hrx hh => ?_, fun hs hrx => ?_,
    fun turn i ht hs => ?_, step_of_nil⟩
  · rw [step_of_cons hs]; exact runRx_of_decode hrx hh hd
  · rw [step_of_cons hs]; exact runRx_of_fail hrx hh
  · rw [step_of_cons hs]; exact runRx_nil hrx
  · rw [step_of_offered ht hs]
    refine ⟨runOffered_of_not_consumerMay, fun hc hn => ?_, fun hm hc t hx => ?_, fun hm hw hcall => ?_⟩
    · exact runOffered_beside hc fun hh => hn ((heldCall_eq_some s i).1 hh)
    · have hrun := runOffered_of_no_calls (s := s.setSchedule sched) hm hc
      rw [hx] at hrun
      refine ⟨fun hr => ⟨hrun.trans (keepCall_of_performed hr _), ?_⟩, fun hr => hrun.trans (keepCall_of_held hr _)⟩
      rw [exec_io_of_consumerMay hm hx]
      exact hc
    · rw [step_of_cons (s := s.setSchedule (.consumer :: sched)) rfl]
      exact runOffered_of_held hm ((heldCall_eq_some s i).2 ⟨hw, hcall⟩)

/-! ### Bytes that are not taken -/

/-- In `HOLD_DELIVER` the receive opcode map has no class: the byte is `RX_BYTE` itself, and held (R100). -/
theorem runRx_of_holdDeliver {s : State} {b : Byte} {rest : List RxItem} (hrx : s.io.rx = .byte b :: rest)
    (hh : s.halted = false) (hs : s.p.state = .holdDeliver) : runRx s = .next (s.setResult .held) := by
  have hi : rxInstr s b = .rxByte b := by simp only [rxInstr, decode, decodeRx, hs]
  have hx : exec (.rxByte b) (s.setRx rest) = .next ((s.setRx rest).setResult .held) := by
    show unlessHalted _ (rxRule b (s.setRx rest)) = _
    rw [unlessHalted_of_running (s := s.setRx rest) hh]
    simp only [rxRule, State.setRx_p, hs, hold_eq]
  rw [runRx_byte hrx, hi, hx]
  exact keepRx_setResult rfl rest

/-- While halted a byte is refused, whatever its class (R180). -/
theorem exec_rxInstr_of_halted (s : State) (b : Byte) {u : State} (hh : u.halted = true) :
    exec (rxInstr s b) u = .next (u.setResult (.refused .refusedHalted)) := by
  unfold rxInstr
  split
  · exact exec_receiveRow_of_halted (encode_of_decodeRx ‹_›) hh
  · exact unlessHalted_of_halted hh _

/-- While halted no item of the RX stream is consumed (log 16). -/
theorem runRx_of_halted {s : State} {item : RxItem} {rest : List RxItem} (hrx : s.io.rx = item :: rest)
    (hh : s.halted = true) : runRx s = .next (s.setResult (.refused .refusedHalted)) := by
  cases item with
  | byte b =>
    rw [runRx_byte hrx, exec_rxInstr_of_halted s b (u := s.setRx rest) hh]
    exact keepRx_setResult rfl rest
  | fail bytes =>
    have hx : exec .rxFail (s.setRx rest) = .next ((s.setRx rest).setResult (.refused .refusedHalted)) :=
      unlessHalted_of_halted (s := s.setRx rest) hh _
    rw [runRx_fail hrx, hx]
    exact keepRx_setResult rfl rest

/-- `RX` itself leaves the RX stream and the other inputs alone. -/
theorem rxBytes_io {bs rest : List Byte} {s u : State} (h : rxBytes bs s = .next (u, rest)) : u.io = s.io := by
  refine rxBytes_induct (P := fun t => t.io = s.io) (fun _ ht _ => ht) (fun t t' b ht he hr => ?_) bs s rfl u rest h
  cases hq : parserAfter b t.p with
  | some q => rw [rxRule_eq hq] at hr; cases hr; exact ht
  | none =>
    rcases rxRule_none hq with ⟨-, e⟩ | ⟨-, e⟩ | ⟨-, e⟩ <;> rw [e] at hr <;> cases hr <;> exact ht

/-- A received frame row is `RX` on the bytes of its frame (R75; log 5). -/
theorem exec_eq_receive {i : Instr} {bs : List Byte} (ha : i.agent = .reader) (hi : encode i = some (.frame bs))
    (s : State) : exec i s = receive bs s := by
  rcases reader_cases ha with ⟨st, b, e⟩ | ⟨bs', e, hx⟩ | ⟨b, rfl⟩ | rfl | rfl
  · rw [hi] at e; cases e
  · rw [hi] at e; cases e; exact hx s
  all_goals cases hi

/-- With a validated frame waiting and the slot full `RX` takes no byte at all. -/
theorem receive_of_slot_full (bs : List Byte) {s : State} (hh : s.halted = false) (hs : s.p.state = .holdDeliver)
    (hf : s.slot.full = true) : receive bs s = .next (s.setResult .held) := by
  have hd : deliverIfEnabled s = s := by simp [deliverIfEnabled, deliverEnabled, hf]
  have hr : rxBytes bs s = .next (s, bs) := by
    cases bs with
    | nil => simp only [rxBytes, hd]
    | cons b bs => simp [rxBytes, hd, byteEnabled, hs]
  rw [receive_of_rxBytes hh hr, if_pos rfl]

/-- A frame row under the invariants: its bytes are taken one by one, as far as can be; the rest stands in front
of the RX stream (R41, R75; log 5). -/
theorem BlockInv.receive_byte_by_byte (bs : List Byte) {s : State} (h : BlockInv s) (hh : s.halted = false) :
    ∃ bytes rest : List Byte, bs = bytes ++ rest ∧
      (∀ k, k < bytes.length →
        byteEnabled (Machine.settle ((bytes.take k).foldl Machine.takeByte s)) = true) ∧
      (rest = [] ∨ byteEnabled (Machine.settle (bytes.foldl Machine.takeByte s)) = false) ∧
      (bytes = [] → receive bs s = .next (s.setResult .held)) ∧
      (bytes ≠ [] → receive bs s = .next (((Machine.settle (bytes.foldl Machine.takeByte s)).setRx
        (rest.map RxItem.byte ++ s.io.rx)).setResult .silent)) := by
  obtain ⟨u, rest, hr⟩ := h.rxBytes_next bs
  obtain ⟨bytes, rfl, htaken, hrest, hu⟩ := rxBytes_takeByte bs s u rest hr
  have hx := receive_of_rxBytes hh hr
  refine ⟨bytes, rest, rfl, htaken, hrest, fun hb => ?_, fun hb => ?_⟩
  · rw [hx, if_pos (by simp [hb])]
  · rw [hx, if_neg (by simpa using hb), rxBytes_io hr]
    exact congrArg (fun v : State => Host.Outcome.next (v.setRx (rest.map RxItem.byte ++ s.io.rx))) (hu .silent)

/-- Settles O56: an item whose event is not performed is put back, and a frame row is its bytes one by one. -/
theorem heldByteStaysInTheTransport : Obligations.HeldByteStaysInTheTransport := by
  intro s
  refine ⟨fun sched b rest hs hrx hh hst => ?_, fun sched item rest hs hrx hh => ?_, fun i bs ha hi hh => ?_⟩
  · rw [step_of_cons hs]; exact runRx_of_holdDeliver hrx hh hst
  · rw [step_of_cons hs]; exact runRx_of_halted hrx hh
  · rw [exec_eq_receive ha hi]
    refine ⟨receive_of_slot_full bs hh, fun hb => ?_⟩
    obtain ⟨bytes, rest, hbs, htaken, hrest, hnone, hsome⟩ := hb.receive_byte_by_byte bs hh
    exact ⟨bytes, rest, _, hbs, rfl, htaken, hrest, hnone, hsome⟩

end Sys2Proof.Machine
end


section
/-! PROOFS, family 30_encoding.md. The encoder and the decoder are inverse to each other (sections 1 to 5), so what a word
of the opcode table decodes to can be read off the encoder. -/

namespace Sys2Proof.Laws.RoundTrip

/-- The lemmas of the rows put together: decoding undoes encoding. -/
theorem forall_statement : ∀ i : Instr, Statement i
  | .frameV1Tx c p => frameV1Tx c p
  | .frameV2Tx c p => frameV2Tx c p
  | .frameV1RxResponse c p => frameV1RxResponse c p
  | .frameV1RxRequest c p => frameV1RxRequest c p
  | .frameV2RxResponse f c p => frameV2RxResponse f c p
  | .frameV2RxRequest f c p => frameV2RxRequest f c p
  | .rxStart => rxStart
  | .rxIgnore b => rxIgnore b
  | .rxTypeV1 => rxTypeV1
  | .rxTypeV2 => rxTypeV2
  | .rxTypeAbort b => rxTypeAbort b
  | .rxDirV1Response => rxDirV1Response
  | .rxDirV1Request => rxDirV1Request
  | .rxDirV1Abort b => rxDirV1Abort b
  | .rxV1Len l => rxV1Len l
  | .rxV1Cmd c => rxV1Cmd c
  | .rxDirV2Response => rxDirV2Response
  | .rxDirV2Request => rxDirV2Request
  | .rxDirV2Abort b => rxDirV2Abort b
  | .rxV2Flags f => rxV2Flags f
  | .rxV2CmdLo c => rxV2CmdLo c
  | .rxV2CmdHi c => rxV2CmdHi c
  | .rxV2LenLo l => rxV2LenLo l
  | .rxV2LenHi l => rxV2LenHi l
  | .rxPayload d => rxPayload d
  | .rxChecksumGood k => rxChecksumGood k
  | .rxChecksumBad k => rxChecksumBad k
  | .apiVersion => apiVersion
  | .fcVariant => fcVariant
  | .fcVersion => fcVersion
  | .boardInfo => boardInfo
  | .buildInfo => buildInfo
  | .name => name
  | .status => status
  | .rc => rc
  | .statusEx => statusEx
  | .setRawRc => setRawRc
  | .inavStatus2 => inavStatus2
  | .reset => reset
  | .rxByte b => rxByte b
  | .deliver => deliver
  | .rxFail => rxFail
  | .issue c p => issue c p
  | .take => take
  | .cfgSetV2 v => cfgSetV2 v
  | .txDrain n => txDrain n
  | .encodeV1 c p => encodeV1 c p
  | .encodeV2 c p => encodeV2 c p
  | .encode v c p => encode v c p

end Sys2Proof.Laws.RoundTrip

namespace Sys2Proof

open Sys2Proof.Machine

/-- Settles O39: the lemmas of Laws/PerInstr, row by row. -/
theorem decodeOfEncodeIsTheInstruction : Obligations.DecodeOfEncodeIsTheInstruction :=
  Laws.RoundTrip.forall_statement

theorem decode_of_encode {acc : Byte} {i : Instr} {c : Code} (hw : i.wellFormed = true) (ha : i.fitsAcc acc = true)
    (hi : encode i = some c) : decode acc c = .ok i :=
  Laws.RoundTrip.forall_statement i hw acc ha c hi

/-- The encoder tells well-formed rows apart up to `P.acc` (30_encoding.md R68). -/
theorem encode_injective_of_fitsAcc {acc : Byte} {i j : Instr} {c : Code} (hwi : i.wellFormed = true)
    (hwj : j.wellFormed = true) (hai : i.fitsAcc acc = true) (haj : j.fitsAcc acc = true)
    (hi : encode i = some c) (hj : encode j = some c) : i = j :=
  Except.ok.inj ((decode_of_encode hwi hai hi).symm.trans (decode_of_encode hwj haj hj))

/-! ### What the decoder reads -/

/-- What a decoder may answer for a coded form: a row of the table with its operands in range that is coded so. -/
def IsRowOf (acc : Byte) (c : Code) (i : Instr) : Prop :=
  encode i = some c ∧ i.wellFormed = true ∧ i.fitsAcc acc = true

/-- The split is at the given place, and nothing is lost. -/
theorem splitBody_eq_some {n : Nat} {bs p rest : List Byte} {k : Byte} (h : splitBody n bs = some (p, k, rest)) :
    p.length = n ∧ bs = p ++ k :: rest := by
  unfold splitBody at h
  cases hd : bs.drop n with
  | nil => simp [hd] at h
  | cons k' rest' =>
    simp only [hd, Option.some.injEq, Prod.mk.injEq] at h
    obtain ⟨rfl, rfl, rfl⟩ := h
    have hlen : bs.length - n = rest'.length + 1 := by rw [← List.length_drop, hd, List.length_cons]
    exact ⟨by rw [List.length_take]; omega, by rw [← hd, List.take_append_drop]⟩

theorem map_pair_eq_ok {r : Except DecodeError Instr} {i : Instr} {rest rest' : List Byte}
    (h : r.map (fun i => (i, rest)) = .ok (i, rest')) : r = .ok i ∧ rest' = rest := by
  cases r with
  | error e => cases h
  | ok j => cases h; exact ⟨rfl, rfl⟩

theorem isRowOf_of_v1Row {acc dir c : Byte} {p : List Byte} {i : Instr} (hp : p.length ≤ Config.v1LenMax)
    (h : v1Row dir c p = .ok i) : IsRowOf acc (.frame (v1Frame dir c p)) i := by
  unfold v1Row at h
  split_ifs at h with hd hd hd <;> cases h <;> subst hd <;> exact ⟨rfl, decide_eq_true hp, rfl⟩

theorem isRowOf_of_v2Row {acc dir f : Byte} {c : U16} {p : List Byte} {i : Instr} (hp : p.length ≤ Config.v2LenMax)
    (h : v2Row dir f c p = .ok i) : IsRowOf acc (.frame (v2Frame dir f c p)) i := by
  unfold v2Row at h
  split_ifs at h with hd hf hd hd <;> cases h <;> subst hd
  · subst hf
    exact ⟨rfl, decide_eq_true hp, rfl⟩
  all_goals exact ⟨rfl, decide_eq_true hp, rfl⟩

/-- A V1 body that is read is the rest of a V1 frame: its length byte counts the payload (R61). -/
theorem decodeV1_eq_ok {bs rest : List Byte} {i : Instr} (h : decodeV1 bs = .ok (i, rest)) :
    ∃ dir c p, p.length ≤ Config.v1LenMax ∧ v1Row dir c p = .ok i ∧
      Config.startByte :: Config.typeV1Byte :: bs = v1Frame dir c p ++ rest := by
  unfold decodeV1 at h
  split at h
  next dir l c body =>
    split at h
    · cases h
    next p k tail hs =>
      split_ifs at h with hk
      obtain ⟨hlen, rfl⟩ := splitBody_eq_some hs
      obtain ⟨hrow, rfl⟩ := map_pair_eq_ok h
      have hl : len8 p = l := by simp [len8, hlen]
      have := l.isLt
      exact ⟨dir, c, p, by simp only [Config.v1LenMax]; omega, hrow, by simp [v1Frame, hl, hk]⟩
  · cases h

/-- A V2 body that is read is the rest of a V2 frame: its two length bytes, low byte first, count the payload (R62). -/
theorem decodeV2_eq_ok {bs rest : List Byte} {i : Instr} (h : decodeV2 bs = .ok (i, rest)) :
    ∃ dir f c p, p.length ≤ Config.v2LenMax ∧ v2Row dir f c p = .ok i ∧
      Config.startByte :: Config.typeV2Byte :: bs = v2Frame dir f c p ++ rest := by
  unfold decodeV2 at h
  split at h
  next dir f c0 c1 l0 l1 body =>
    split at h
    · cases h
    next p k tail hs =>
      split_ifs at h with hk
      obtain ⟨hlen, rfl⟩ := splitBody_eq_some hs
      obtain ⟨hrow, rfl⟩ := map_pair_eq_ok h
      have hl : len16 p = joinLE l0 l1 := by simp [len16, hlen]
      have := (joinLE l0 l1).isLt
      exact ⟨dir, f, joinLE c0 c1, p, by simp only [Config.v2LenMax]; omega, hrow,
        by simp [v2Frame, v2Covered, hl, hk]⟩
  · cases h

/-- A frame read at the front of a byte sequence is the frame of its row (R60). -/
theorem isRowOf_of_decodeFrame {acc : Byte} {bs rest : List Byte} {i : Instr} (h : decodeFrame bs = .ok (i, rest)) :
    ∃ fr, bs = fr ++ rest ∧ IsRowOf acc (.frame fr) i := by
  unfold decodeFrame at h
  split at h
  next s t body =>
    split_ifs at h with hs h1 h2
    · obtain ⟨dir, c, p, hp, hrow, hbs⟩ := decodeV1_eq_ok h
      rw [not_not] at hs
      exact ⟨_, by rw [hs, h1, hbs], isRowOf_of_v1Row hp hrow⟩
    · obtain ⟨dir, f, c, p, hp, hrow, hbs⟩ := decodeV2_eq_ok h
      rw [not_not] at hs
      exact ⟨_, by rw [hs, h2, hbs], isRowOf_of_v2Row hp hrow⟩
  · cases h

theorem isRowOf_of_decodeRx {st : PState} {acc b : Byte} {i : Instr} (h : decodeRx st acc b = .ok i) :
    IsRowOf acc (.rxByte st b) i :=
  ⟨encode_of_decodeRx h, Bool.and_eq_true_iff.mp (fits_of_decodeRx h)⟩

/-- One line of a decoder's table: the line's own answer, or a later line's. -/
theorem ite_ok_eq_ok {q : Prop} [Decidable q] {j i : Instr} {later : Except DecodeError Instr}
    (h : (if q then .ok j else later) = .ok i) : (q ∧ j = i) ∨ later = .ok i := by
  split at h
  · exact .inl ⟨‹q›, Except.ok.inj h⟩
  · exact .inr h

theorem isRowOf_of_decodeCommandId {acc : Byte} {id : U16} {i : Instr} (h : decodeCommandId id = .ok i) :
    IsRowOf acc (.commandId id) i := by
  unfold decodeCommandId at h
  iterate 11
    rcases ite_ok_eq_ok h with ⟨rfl, rfl⟩ | h
    · exact ⟨rfl, rfl, rfl⟩
  cases h

theorem isRowOf_of_decode {acc : Byte} {c : Code} {i : Instr} (h : decode acc c = .ok i) : IsRowOf acc c i := by
  cases c with
  | frame bs =>
    cases hf : decodeFrame bs with
    | error e => simp [decode, hf] at h
    | ok r =>
      obtain ⟨j, rest⟩ := r
      cases rest with
      | nil =>
        simp only [decode, hf, Except.ok.injEq] at h
        subst h
        obtain ⟨fr, hbs, hrow⟩ := isRowOf_of_decodeFrame (acc := acc) hf
        rwa [hbs, List.append_nil]
      | cons b tail => simp [decode, hf] at h
  | rxByte st b => exact isRowOf_of_decodeRx h
  | commandId id => exact isRowOf_of_decodeCommandId h

/-- Settles O40: each of the three decoders answers rows of its coded form only; decoding undoes encoding, so two rows
of one coded form are one. -/
theorem encodeOfDecodeIsTheCodedForm : Obligations.EncodeOfDecodeIsTheCodedForm := fun _ _ =>
  ⟨fun _ h => isRowOf_of_decode h,
    fun _ _ hwi hwj hai haj hi hj => encode_injective_of_fitsAcc hwi hwj hai haj hi hj⟩

/-! ### Words of the opcode table -/

/-- A table word whose coded form is a row's decodes to the row (`P.acc` at its reset value). -/
theorem decodeTableWord_of_encode {nbits w : Nat} {i : Instr} {c : Code} (hw : i.wellFormed = true)
    (ha : i.fitsAcc Config.crcInit = true) (hi : encode i = some c) (hc : tableCode nbits w = some c) :
    decodeTableWord nbits w = some i := by
  simp only [decodeTableWord, hc, decode_of_encode hw ha hi]

/-- Settles O41: each word, padded to a frame where it is a header (log 19), is what the encoder writes for its row; the
V2 frames with their checksum evaluated. -/
theorem tableWordsDecodeToTheirRows : Obligations.TableWordsDecodeToTheirRows :=
  ⟨decodeTableWord_of_encode rfl rfl rfl rfl,
    decodeTableWord_of_encode rfl rfl rfl (by decide +kernel),
    decodeTableWord_of_encode rfl rfl rfl rfl,
    decodeTableWord_of_encode rfl rfl rfl (by decide +kernel),
    decodeTableWord_of_encode rfl rfl rfl rfl,
    decodeTableWord_of_encode rfl rfl rfl rfl,
    decodeTableWord_of_encode rfl rfl rfl rfl,
    decodeTableWord_of_encode rfl rfl rfl rfl,
    decode_of_encode rfl rfl rfl,
    decode_of_encode rfl rfl (by decide +kernel),
    decode_of_encode rfl rfl rfl⟩

end Sys2Proof
end


section
/-! PROOFS, family 30_encoding.md. A receive row outside its state or class is not enabled (R68), and what the query
rows queue (R71, R75). -/

namespace Sys2Proof.Machine

/-! ### Rows that are not enabled -/

/-- A receive row in another state, or for a byte outside its class. -/
theorem rxRow_held {st : PState} {fits : Bool} {s : State} (body : State → Out) (hh : s.halted = false)
    (hf : s.p.state ≠ st ∨ fits = false) : rxRow st fits body s = .next (s.setResult .held) := by
  have hn : ¬ (s.p.state = st ∧ fits = true) := by
    rcases hf with hs | hf
    · exact fun h => hs h.1
    · simp [hf]
  rw [rxRow, unlessHalted_of_running hh, if_neg hn, hold_eq]

/-- Settles O12: a receive row's class is its operand check together with its condition on `P.acc`. -/
theorem receiveRowHeldOutsideItsState : Obligations.ReceiveRowHeldOutsideItsState := by
  intro s i st b hh hi hout
  obtain ⟨body, hx, -⟩ := exec_eq_rxRow hi s
  rw [hx]
  exact rxRow_held body hh (by simpa only [Bool.and_eq_false_iff] using hout)

/-! ### The query rows -/

/-- A command-id row other than `SET_RAW_RC` is the pseudo-operation `QUERY` (R71, R75; log 7). -/
theorem exec_of_commandIdOf {i : Instr} {id : U16} (hi : commandIdOf i = some id) (hne : i ≠ .setRawRc) (s : State) :
    exec i s = query id s := by
  cases i <;> cases hi
  case setRawRc => exact absurd rfl hne
  all_goals rfl

/-- The selection rule (41_encoder.md R92), with the bound written out. -/
theorem enc_eq_ite (u : Bool) (cmd : Nat) (p : List Byte) :
    enc u cmd p = if u = true ∨ 255 < cmd then encV2 cmd p else encV1 cmd p := by
  simp [enc, selectsV2]

/-- A payload that fits the smaller format is always encoded, whatever the id. -/
theorem enc_isSome (u : Bool) (cmd : U16) {p : List Byte} (hp : p.length ≤ Config.v1LenMax) :
    ∃ bs, enc u cmd.toNat p = some bs := by
  have := cmd.isLt
  simp only [Config.v1LenMax] at hp
  rw [enc_eq_ite]
  split_ifs with hv
  · exact ⟨_, encV2_eq_some (by simp only [Config.v2CmdMax]; omega) (by simp only [Config.v2LenMax]; omega)⟩
  · exact ⟨_, encV1_eq_some (by simp only [Config.v1CmdMax]; omega) hp⟩

theorem issue_of_awaiting (cmd : U16) (p : List Byte) {s : State} (hh : s.halted = false)
    (ha : s.mux.awaiting = true) : issue cmd p s = .next (s.setResult (.refused .refusedBusy)) := by
  rw [issue, unlessHalted_of_running hh, if_pos ha, refuse_eq]

theorem issue_of_enc {cmd : U16} {p bs : List Byte} {s : State} (hh : s.halted = false)
    (ha : s.mux.awaiting = false) (he : enc s.mux.usesV2 cmd.toNat p = some bs) :
    issue cmd p s = .next (issued cmd bs s) := by
  simp [issue, issued, txAppend, hh, ha, he]

/-- Settles O27: a query row is `QUERY`, and an empty payload fits both formats, so only the halt and an outstanding
request refuse it. -/
theorem queryRowsQueueTheirRequest : Obligations.QueryRowsQueueTheirRequest := by
  intro s i id hmem
  obtain ⟨hid, hne⟩ : commandIdOf i = some id ∧ i ≠ .setRawRc := by fin_cases hmem <;> decide
  have hx : exec i s = issue id [] s := exec_of_commandIdOf hid hne s
  rw [hx]
  refine ⟨rfl, issue_of_awaiting id [], fun hh ha => ?_⟩
  obtain ⟨bs, hbs⟩ := enc_isSome s.mux.usesV2 id (p := []) (Nat.zero_le _)
  exact ⟨bs, by rw [← enc_eq_ite, hbs], issue_of_enc hh ha hbs⟩

end Sys2Proof.Machine
end

section
/-! PROOFS, family 40_checksum.md. `crc8` is linear over XOR, and no single changed byte leaves a checksum as it was
(R86). For CRC-8 both rest on one round of R82: it is linear and injective. -/

namespace Sys2Proof.Machine

/-! ### Linearity -/

theorem crcRounds_xor (n : Nat) (a b : Byte) : crcRounds n (a ^^^ b) = crcRounds n a ^^^ crcRounds n b := by
  induction n generalizing a b with
  | zero => rfl
  | succ n ih => rw [crcRounds, crcRound_xor, ih]; rfl

theorem crc8Step_xor (acc acc' b b' : Byte) :
    crc8Step (acc ^^^ acc') (b ^^^ b') = crc8Step acc b ^^^ crc8Step acc' b' := by
  have regroup : (acc ^^^ acc') ^^^ (b ^^^ b') = (acc ^^^ b) ^^^ (acc' ^^^ b') := by ac_rfl
  simp only [crc8Step_eq, regroup, crcRounds_xor]

/-- Linearity from any two accumulators, as the induction meets others than the seed of R83. -/
theorem foldl_crc8Step_zipWith_xor {s t : List Byte} (h : s.length = t.length) (acc acc' : Byte) :
    (List.zipWith (fun a b => a ^^^ b) s t).foldl crc8Step (acc ^^^ acc') =
      s.foldl crc8Step acc ^^^ t.foldl crc8Step acc' := by
  induction s generalizing t acc acc' with
  | nil => rw [List.eq_nil_of_length_eq_zero h.symm]; rfl
  | cons x s ih =>
    cases t with
    | nil => cases h
    | cons y t =>
      simp only [List.zipWith_cons_cons, List.foldl_cons]
      rw [crc8Step_xor, ih (Nat.succ.inj h)]

/-- Settles O43: the seed 0x00 is the XOR of two seeds. -/
theorem crcIsLinearOverXor : Obligations.CrcIsLinearOverXor := by
  unfold Obligations.CrcIsLinearOverXor
  intro s t h
  exact foldl_crc8Step_zipWith_xor h Config.crcInit Config.crcInit

/-! ### One changed byte -/

/-- The polynomial's constant term is 1, so the bit that the shift drops comes back as bit 0. -/
theorem getLsbD_crcRound_zero (c : Byte) : (crcRound c).getLsbD 0 = c.getLsbD 7 := by
  rw [crcRound_eq]
  cases c.getLsbD 7 <;> simp [Config.crcPoly]

theorem shiftLeft_one_inj {a b : Byte} (h : a <<< 1 = b <<< 1) (h7 : a.getLsbD 7 = b.getLsbD 7) : a = b := by
  refine BitVec.eq_of_getLsbD_eq fun i hi => ?_
  obtain rfl | hlt : i = 7 ∨ i + 1 < 8 := by omega
  · exact h7
  · have hbit := congrArg (BitVec.getLsbD · (i + 1)) h
    simpa [hlt, BitVec.getLsbD_eq_getElem hi] using hbit

theorem crcRound_injective : Function.Injective crcRound := by
  intro a b h
  have h7 : a.getLsbD 7 = b.getLsbD 7 := by
    rw [← getLsbD_crcRound_zero, h, getLsbD_crcRound_zero]
  rw [crcRound_eq, crcRound_eq, h7, BitVec.xor_left_inj] at h
  exact shiftLeft_one_inj h h7

theorem crcRounds_injective (n : Nat) : Function.Injective (crcRounds n) := by
  induction n with
  | zero => exact fun _ _ h => h
  | succ n ih => exact ih.comp crcRound_injective

/-- A step that keeps two accumulators apart whatever byte it takes, and two bytes apart whatever the accumulator.
A fold of such a step comes out differently when one byte is changed, for either checksum (R86). -/
structure Separates (step : Byte → Byte → Byte) : Prop where
  acc : ∀ b, Function.Injective fun acc => step acc b
  byte : ∀ acc, Function.Injective (step acc)

theorem separates_xor8Step : Separates xor8Step where
  acc b _ _ h := (BitVec.xor_left_inj b).1 h
  byte acc _ _ h := (BitVec.xor_right_inj acc).1 h

/-- `crc8_step` depends on the XOR of its operands only (R82), and its rounds lose nothing. -/
theorem separates_crc8Step : Separates crc8Step where
  acc b _ _ h := separates_xor8Step.acc b (crcRounds_injective 8 h)
  byte acc _ _ h := separates_xor8Step.byte acc (crcRounds_injective 8 h)

namespace Separates

variable {step : Byte → Byte → Byte}

/-- Accumulators that differ still differ after any bytes they both take. -/
theorem foldl_ne (hs : Separates step) {acc acc' : Byte} (h : acc ≠ acc') (post : List Byte) :
    post.foldl step acc ≠ post.foldl step acc' := by
  induction post generalizing acc acc' with
  | nil => exact h
  | cons b post ih => exact ih ((hs.acc b).ne h)

theorem foldl_append_cons_ne (hs : Separates step) {a b : Byte} (h : a ≠ b) (acc : Byte) (pre post : List Byte) :
    (pre ++ a :: post).foldl step acc ≠ (pre ++ b :: post).foldl step acc := by
  simp only [List.foldl_append, List.foldl_cons]
  exact hs.foldl_ne ((hs.byte _).ne h) post

end Separates

/-- Settles O44: both checksums are folds of a step that separates; the V1 command and length bytes are the first step's
two operands (R81). -/
theorem oneChangedByteChangesTheChecksum : Obligations.OneChangedByteChangesTheChecksum := by
  unfold Obligations.OneChangedByteChangesTheChecksum
  intro pre post a b hab
  refine ⟨?_, fun l c => ?_, fun l => ?_, fun c => ?_⟩
  · exact separates_crc8Step.foldl_append_cons_ne hab Config.crcInit pre post
  · exact separates_xor8Step.foldl_append_cons_ne hab (xor8Step l c) pre post
  · exact separates_xor8Step.foldl_ne ((separates_xor8Step.byte l).ne hab) post
  · exact separates_xor8Step.foldl_ne ((separates_xor8Step.acc c).ne hab) post

/-! ### The step itself -/

/-- Settles O42: the step and its rounds are R82's loop by definition, and 0x00 is XOR's neutral element. -/
theorem crcStepDependsOnTheXorOnly : Obligations.CrcStepDependsOnTheXorOnly := by
  unfold Obligations.CrcStepDependsOnTheXorOnly
  refine ⟨fun acc b => ?_, fun _ => rfl, fun _ _ => rfl, ?_⟩
  · simp [crc8Step_eq]
  · decide

end Sys2Proof.Machine
end

section
/-! PROOFS, family 41_encoder.md. What the three encode functions return (R90 to R94), and the transmitted frame rows,
which queue one of their frames (43_mux.md R131; log 6). -/

namespace Sys2Proof.Machine

/-! ### The fields of a frame -/

@[simp] theorem lo8_ofNat (n : Nat) : lo8 (BitVec.ofNat 16 n) = BitVec.ofNat 8 n := by
  apply BitVec.eq_of_toNat_eq
  simp only [lo8, BitVec.toNat_setWidth, BitVec.toNat_ofNat]
  omega

@[simp] theorem hi8_ofNat (n : Nat) : hi8 (BitVec.ofNat 16 n) = BitVec.ofNat 8 (n / 256) := by
  apply BitVec.eq_of_toNat_eq
  simp only [hi8, BitVec.toNat_setWidth, BitVec.toNat_ushiftRight, BitVec.toNat_ofNat, Nat.shiftRight_eq_div_pow]
  omega

/-- The covered bytes of a V2 frame, id and length as natural numbers (R91). -/
theorem v2Covered_ofNat (flags : Byte) (cmd : Nat) (p : List Byte) :
    v2Covered flags (BitVec.ofNat 16 cmd) p =
      [flags, BitVec.ofNat 8 cmd, BitVec.ofNat 8 (cmd / 256),
        BitVec.ofNat 8 p.length, BitVec.ofNat 8 (p.length / 256)] ++ p := by
  simp [v2Covered, len16]

@[simp] theorem length_v1Frame (dir cmd : Byte) (p : List Byte) : (v1Frame dir cmd p).length = p.length + 6 := by
  simp [v1Frame]

@[simp] theorem length_v2Frame (dir flags : Byte) (cmd : U16) (p : List Byte) :
    (v2Frame dir flags cmd p).length = p.length + 9 := by
  simp [v2Frame, v2Covered]

/-! ### The encode functions -/

theorem encV1_eq_none {cmd : Nat} {p : List Byte} (h : Config.v1CmdMax < cmd ∨ Config.v1LenMax < p.length) :
    encV1 cmd p = none := if_pos h

theorem encV2_eq_none {cmd : Nat} {p : List Byte} (h : Config.v2CmdMax < cmd ∨ Config.v2LenMax < p.length) :
    encV2 cmd p = none := if_pos h

theorem exec_encodeV1 (cmd : Nat) (p : List Byte) (s : State) :
    exec (.encodeV1 cmd p) s = returnBytes s (encV1 cmd p) := rfl

theorem exec_encodeV2 (cmd : Nat) (p : List Byte) (s : State) :
    exec (.encodeV2 cmd p) s = returnBytes s (encV2 cmd p) := rfl

theorem exec_encode (u : Bool) (cmd : Nat) (p : List Byte) (s : State) :
    exec (.encode u cmd p) s = returnBytes s (enc u cmd p) := rfl

@[simp] theorem returnBytes_some (s : State) (bs : List Byte) :
    returnBytes s (some bs) = .next (s.setResult (.bytes bs)) := rfl

@[simp] theorem returnBytes_none (s : State) :
    returnBytes s none = .next (s.setResult (.refused .refusedRange)) := rfl

/-- Settles O24: the frame of R61 with direction `'<'`, or the refusal, as the operands fit. -/
theorem encodeV1ReturnsFrameOrRefuses : Obligations.EncodeV1ReturnsFrameOrRefuses := by
  intro s cmd p
  rw [exec_encodeV1]
  refine ⟨fun hc hp => ?_, fun h => ?_⟩
  · rw [encV1_eq_some hc hp, returnBytes_some]
    rfl
  · rw [encV1_eq_none h, returnBytes_none]

/-- Settles O25: the frame of R62 with direction `'<'` and flags 0, its covered bytes being the body, or the refusal. -/
theorem encodeV2ReturnsFrameOrRefuses : Obligations.EncodeV2ReturnsFrameOrRefuses := by
  intro s cmd p
  rw [exec_encodeV2]
  refine ⟨fun hc hp => ⟨_, v2Covered_ofNat Config.encFlags cmd p, ?_⟩, fun h => ?_⟩
  · rw [encV2_eq_some hc hp, returnBytes_some]
    rfl
  · rw [encV2_eq_none h, returnBytes_none]

theorem enc_eq_encV2 {u : Bool} {cmd : Nat} (h : u = true ∨ 255 < cmd) (p : List Byte) :
    enc u cmd p = encV2 cmd p := by
  rw [enc_eq_ite, if_pos h]

theorem enc_eq_encV1 {u : Bool} {cmd : Nat} (h : ¬ (u = true ∨ 255 < cmd)) (p : List Byte) :
    enc u cmd p = encV1 cmd p := by
  rw [enc_eq_ite, if_neg h]

/-- Settles O26: `ENCODE` is the function that R92 selects, and that function completes with a frame of its format when
its operands fit. -/
theorem encodeSelectsTheFormat : Obligations.EncodeSelectsTheFormat := by
  intro s u cmd p
  rw [exec_encode, exec_encodeV1, exec_encodeV2]
  refine ⟨fun hv => by rw [enc_eq_encV2 hv], fun hu hc => by rw [enc_eq_encV1 (by simp [hu, hc])], ?_⟩
  intro hc hp hfit
  by_cases hv : u = true ∨ 255 < cmd
  · exact ⟨_, by rw [enc_eq_encV2 hv, encV2_eq_some hc hp, returnBytes_some], by rw [length_v2Frame, if_pos hv]⟩
  · have hc1 : cmd ≤ 255 := by omega
    have hp1 : p.length ≤ 255 := (or_assoc.2 hfit).resolve_left hv
    exact ⟨_, by rw [enc_eq_encV1 hv, encV1_eq_some hc1 hp1, returnBytes_some], by rw [length_v1Frame, if_neg hv]⟩

/-! ### The transmitted frame rows -/

/-- Where R92 selects the row's format the row is the `ISSUE` of its operands: the halt refuses both alike. -/
theorem transmit_of_selected {v2 : Bool} {cmd : U16} {s : State} (hv : selectsV2 s.mux.usesV2 cmd.toNat = v2)
    (p : List Byte) : transmit v2 cmd p s = issue cmd p s := by
  cases hh : s.halted <;> simp [transmit, issue, hv, hh]

theorem transmit_held {v2 : Bool} {cmd : U16} {s : State} (hh : s.halted = false)
    (hv : selectsV2 s.mux.usesV2 cmd.toNat ≠ v2) (p : List Byte) :
    transmit v2 cmd p s = .next (s.setResult .held) := by
  rw [transmit, unlessHalted_of_running hh, if_neg hv, hold_eq]

theorem selectsV2_eq_true {u : Bool} {cmd : Nat} : selectsV2 u cmd = true ↔ u = true ∨ 255 < cmd := by
  simp [selectsV2]

/-- A one-byte id is in V1's range, so the control bit alone decides (R92). -/
@[simp] theorem selectsV2_byte (u : Bool) (c : Byte) : selectsV2 u c.toNat = u := by
  have : ¬ 255 < c.toNat := by have := c.isLt; omega
  simp [selectsV2, this]

/-- What `ENCODE` makes of the operands of a V1 row. -/
theorem enc_zext16 (c : Byte) {p : List Byte} (hp : p.length ≤ 255) :
    enc false (zext16 c).toNat p = some (v1Frame Config.dirTx c p) := by
  have hc : c.toNat ≤ 255 := by have := c.isLt; omega
  rw [toNat_zext16, enc_eq_encV1 (by simp [hc]), encV1_eq_some hc hp, BitVec.ofNat_toNat, BitVec.setWidth_eq]

/-- What `ENCODE` makes of the operands of a V2 row, in the selected format. -/
theorem enc_toNat {u : Bool} {c : U16} (hv : u = true ∨ 255 < c.toNat) {p : List Byte} (hp : p.length ≤ 65535) :
    enc u c.toNat p = some (v2Frame Config.dirTx Config.encFlags c p) := by
  have hc : c.toNat ≤ 65535 := by have := c.isLt; omega
  rw [enc_eq_encV2 hv, encV2_eq_some hc hp, BitVec.ofNat_toNat, BitVec.setWidth_eq]

/-- Settles O29: in the selected format a row is `ISSUE`, whose frame is then the row's; in the other it is held. -/
theorem transmittedFrameRowsQueueTheirFrame : Obligations.TransmittedFrameRowsQueueTheirFrame := by
  intro s
  refine ⟨fun c p hu => ?_, fun c p hv => ?_, fun c p hh hu => ?_, fun c p hh hu hc => ?_⟩
  · have hx : exec (.frameV1Tx c p) s = issue (zext16 c) p s :=
      transmit_of_selected (by rw [toNat_zext16, selectsV2_byte, hu]) p
    rw [hx]
    exact ⟨rfl, issue_of_awaiting _ p, fun hh ha hp => issue_of_enc hh ha (by rw [hu, enc_zext16 c hp])⟩
  · have hx : exec (.frameV2Tx c p) s = issue c p s := transmit_of_selected (selectsV2_eq_true.2 hv) p
    rw [hx]
    exact ⟨rfl, issue_of_awaiting c p, fun hh ha hp => issue_of_enc hh ha (enc_toNat hv hp)⟩
  · exact transmit_held hh (by simp [hu]) p
  · exact transmit_held hh (by simp [selectsV2_eq_true, hu, hc]) p

end Sys2Proof.Machine
end

section
/-! PROOFS, family 42_parser.md. What each receive row, `RX_BYTE` and `DELIVER` do, rule by rule (R100 to R114, R118),
and that no event of the other agents writes a parser register (R116). -/

namespace Sys2Proof.Machine

/-! ### The receive rows, by the state they hold in -/

/-- Settles O3: the parser is in `WAIT_START` already, so that going there changes nothing. -/
theorem waitStartAdvancesOrIgnores : Obligations.WaitStartAdvancesOrIgnores := by
  intro s hh hs
  refine ⟨rxRow_enabled _ hh hs rfl, fun b hb => ?_⟩
  have hp : effIgnore s.p = s.p := by rw [effIgnore, ← hs]; rfl
  have hx : exec (.rxIgnore b) s = parserOnly effIgnore s := rxRow_enabled _ hh hs (bne_iff_ne.2 hb)
  rw [hx, parserOnly_eq, hp]
  rfl

/-- A default class holds the bytes that are in neither specific class of its state (30_encoding.md R68). -/
theorem outside_both {a b c : Byte} (ha : b ≠ a) (hc : b ≠ c) : (b != a && b != c) = true := by
  simp [ha, hc]

/-- Settles O4: in its state, for a byte of its class, a row is its effect by definition. -/
theorem waitTypeSelectsBranchOrAborts : Obligations.WaitTypeSelectsBranchOrAborts := fun _ hh hs =>
  ⟨rxRow_enabled _ hh hs rfl, rxRow_enabled _ hh hs rfl, fun _ h1 h2 => rxRow_enabled _ hh hs (outside_both h1 h2)⟩

/-- Settles O5, as O4 for the V1 direction byte. -/
theorem v1DirectionSetsIsResponseOrAborts : Obligations.V1DirectionSetsIsResponseOrAborts := fun _ hh hs =>
  ⟨rxRow_enabled _ hh hs rfl, rxRow_enabled _ hh hs rfl, fun _ h1 h2 => rxRow_enabled _ hh hs (outside_both h1 h2)⟩

/-- Settles O6, as O4 for the V2 direction byte. -/
theorem v2DirectionSetsIsResponseOrAborts : Obligations.V2DirectionSetsIsResponseOrAborts := fun _ hh hs =>
  ⟨rxRow_enabled _ hh hs rfl, rxRow_enabled _ hh hs rfl, fun _ h1 h2 => rxRow_enabled _ hh hs (outside_both h1 h2)⟩

/-- Settles O7: every byte is in the class of these two rows. -/
theorem v1HeaderBytesSetLenCmdAcc : Obligations.V1HeaderBytesSetLenCmdAcc := fun _ hh =>
  ⟨fun hs _ => rxRow_enabled _ hh hs rfl, fun hs _ => rxRow_enabled _ hh hs rfl⟩

/-- Settles O8: every byte is in the class of these five rows. -/
theorem v2HeaderBytesSetCmdLenAcc : Obligations.V2HeaderBytesSetCmdLenAcc := fun _ hh =>
  ⟨fun hs _ => rxRow_enabled _ hh hs rfl, fun hs _ => rxRow_enabled _ hh hs rfl, fun hs _ => rxRow_enabled _ hh hs rfl,
    fun hs _ => rxRow_enabled _ hh hs rfl, fun hs _ => rxRow_enabled _ hh hs rfl⟩

theorem accStep_eq_ite (v : Variant) (acc b : Byte) :
    accStep v acc b = if v = .v1 then acc ^^^ b else crc8Step acc b := by
  cases v <;> rfl

/-- Settles O9: the buffer after the byte is the old one with one write. -/
theorem payloadByteStoredAndSummed : Obligations.PayloadByteStoredAndSummed := by
  intro s d hh hs hc
  refine ⟨s.p.buf.write s.p.count.toNat d, ?_, Memory.read_write_same _ _ d, fun i hi => Memory.read_write_other _ d hi⟩
  have hx : exec (.rxPayload d) s = collect d s := rxRow_enabled _ hh hs rfl
  rw [hx, collect, if_pos hc, parserOnly_eq, effPayload, accStep_eq_ite]
  rfl

/-- Settles O11: `P.acc` tells the two classes apart. -/
theorem checksumByteValidatesOrRecords : Obligations.ChecksumByteValidatesOrRecords := fun _ hh hs =>
  ⟨rxRow_enabled _ hh hs (beq_self_eq_true _), fun _ hk => rxRow_enabled _ hh hs (bne_iff_ne.2 hk)⟩

/-! ### RX_BYTE -/

theorem exec_rxByte_of_running {s : State} (hh : s.halted = false) (b : Byte) : exec (.rxByte b) s = rxRule b s :=
  unlessHalted_of_running hh _

theorem exec_rxByte_of_parserAfter {s : State} {b : Byte} {q : Parser} (hh : s.halted = false)
    (hq : parserAfter b s.p = some q) : exec (.rxByte b) s = .next (byteTaken b q s) :=
  (exec_rxByte_of_running hh b).trans (rxRule_eq hq)

/-- Settles O13: the row of the byte's class and `RX_BYTE` are both the rule of the parser's state. -/
theorem rxByteRunsTheRowOfItsClass : Obligations.RxByteRunsTheRowOfItsClass := fun _ b _ hh hd =>
  (exec_rxByte_of_running hh b).trans (exec_of_decodeRx hh hd).symm

/-- Settles O14: outside the two states that take no byte a rule stops at index 65535 only. -/
theorem rxByteHeldRefusedOrAccepted : Obligations.RxByteHeldRefusedOrAccepted := by
  intro s b
  refine ⟨fun hh => unlessHalted_of_halted hh _, fun hh hs => ?_, fun hh hd hl hc => ?_⟩
  · rw [exec_rxByte_of_running hh]
    simp only [rxRule, hs, hold_eq]
  · cases hq : parserAfter b s.p with
    | some q => exact ⟨_, exec_rxByte_of_parserAfter hh hq, rfl⟩
    | none =>
      rcases rxRule_none hq with ⟨hs, -⟩ | ⟨hs, -⟩ | ⟨hs, -⟩
      · exact absurd hs hd
      · exact absurd hs hl
      · simp [parserAfter, hs, hc hs] at hq

/-- A byte that is accepted moves the state by the rule of `P.state`. -/
theorem byteTaken_of_exec_rxByte {s t : State} {b : Byte} (hh : s.halted = false) (hd : s.p.state ≠ .holdDeliver)
    (hl : s.p.state ≠ .halted) (hx : exec (.rxByte b) s = .next t) :
    ∃ q, parserAfter b s.p = some q ∧ t = byteTaken b q s := by
  cases hq : parserAfter b s.p with
  | some q => rw [exec_rxByte_of_parserAfter hh hq] at hx; cases hx; exact ⟨q, rfl, rfl⟩
  | none =>
    rw [exec_rxByte_of_running hh] at hx
    rcases rxRule_none hq with ⟨hs, -⟩ | ⟨hs, -⟩ | ⟨-, e⟩
    · exact absurd hs hd
    · exact absurd hs hl
    · rw [e] at hx; cases hx

/-- The transition relation of R118 on the parser registers: the next state, and the registers a state may write. -/
theorem parserAfter_transition {b : Byte} {p q : Parser} (h : parserAfter b p = some q) :
    (q.state =
      match p.state with
      | .waitStart => if b = 0x24 then .waitType else .waitStart
      | .waitType => if b = 0x4D then .waitDirection else if b = 0x58 then .waitXDirection else .waitStart
      | .waitDirection => if b = 0x3E ∨ b = 0x21 then .waitLen else .waitStart
      | .waitLen => .waitCmd
      | .waitCmd => if p.len = 0 then .waitChecksum else .collectPayload
      | .waitXDirection => if b = 0x3E ∨ b = 0x21 then .waitFlags else .waitStart
      | .waitFlags => .waitCmdLo
      | .waitCmdLo => .waitCmdHi
      | .waitCmdHi => .waitLenLo
      | .waitLenLo => .waitLenHi
      | .waitLenHi => if q.len = 0 then .waitChecksum else .collectPayload
      | .collectPayload => if q.count = p.len then .waitChecksum else .collectPayload
      | .waitChecksum => if b = p.acc then .holdDeliver else .waitStart
      | .holdDeliver => .holdDeliver
      | .halted => .halted) ∧
    (q.variant ≠ p.variant → p.state = .waitType) ∧
    (q.isResponse ≠ p.isResponse → p.state = .waitDirection ∨ p.state = .waitXDirection) ∧
    (q.len ≠ p.len → p.state = .waitLen ∨ p.state = .waitLenLo ∨ p.state = .waitLenHi) ∧
    (q.cmd ≠ p.cmd → p.state = .waitCmd ∨ p.state = .waitCmdLo ∨ p.state = .waitCmdHi) ∧
    (q.count ≠ p.count → p.state = .waitCmd ∨ p.state = .waitLenHi ∨ p.state = .collectPayload) ∧
    (q.acc ≠ p.acc →
      p.state ≠ .waitStart ∧ p.state ≠ .waitType ∧ p.state ≠ .waitDirection ∧
        p.state ≠ .waitXDirection ∧ p.state ≠ .waitChecksum) := by
  unfold parserAfter at h
  cases hs : p.state <;> simp only [hs, Option.some.injEq, reduceCtorEq] at h
  case collectPayload =>
    obtain ⟨-, h⟩ := Option.ite_none_right_eq_some.1 h
    cases h
    exact ⟨rfl, fun h => absurd rfl h, fun h => absurd rfl h, fun h => absurd rfl h, fun h => absurd rfl h,
      fun _ => .inr (.inr rfl), fun _ => ⟨nofun, nofun, nofun, nofun, nofun⟩⟩
  all_goals
    subst h
    simp only [effStart, effIgnore, effTypeV1, effTypeV2, effDirV1, effDirV2, effAbort, effV1Len, effV1Cmd, effV2Flags,
      effV2CmdLo, effV2CmdHi, effV2LenLo, effV2LenHi, afterHeader]
    (repeat' split) <;> simp_all

/-- Settles O15: the byte is taken by the rule of `P.state`, which is the table's row; the buffer and
`OBS` have laws of their own. -/
theorem rxByteFollowsTransitionRelation : Obligations.RxByteFollowsTransitionRelation := by
  intro s t b hh hd hl hx
  obtain ⟨q, hq, rfl⟩ := byteTaken_of_exec_rxByte hh hd hl hx
  obtain ⟨hstate, hv, hr, hlen, hcmd, hcount, hacc⟩ := parserAfter_transition hq
  refine ⟨hstate, hv, hr, hlen, hcmd, hcount, hacc, fun i hi => ?_, fun ho => ?_, rfl, rfl, rfl, rfl, rfl, rfl⟩
  · exact not_not.1 fun hk => hi (read_parserAfter hq hk)
  · by_contra hn
    exact ho (by simp [byteTaken, obsAfter, hn])

/-! ### DELIVER -/

/-- Settles O16: the payload copied is the first `P.len` bytes of the buffer. -/
theorem deliverDepositsTheFrame : Obligations.DeliverDepositsTheFrame := by
  intro s
  rw [← deliverEnabled_iff]
  rcases execDeliver_cases s with ⟨he, hx⟩ | ⟨he, hx⟩
  · refine ⟨fun _ _ _ => ⟨s.p.buf.prefixBytes s.p.len.toNat, hx, Memory.length_prefixBytes _ _, fun i b hi hb => ?_⟩,
      fun hn => absurd he hn⟩
    simp [Memory.prefixBytes, hi, hb]
  · refine ⟨fun hs hf hh => ?_, fun _ => hx⟩
    rw [(deliverEnabled_iff s).2 ⟨hs, hf, hh⟩] at he
    cases he

/-! ### The other agents -/

/-- Settles O51: of the ways an event moves the state those of the reader and `RESET` are no event of the other
agents. -/
theorem consumerAndTransportLeaveTheParserAlone : Obligations.ConsumerAndTransportLeaveTheParserAlone := by
  intro i s t ha hx
  have hreader : i.agent ≠ .reader := by rintro h; simp [h] at ha
  cases exec_moved hx with
  | byte _ _ _ hr _ _ _ _ => exact absurd hr hreader
  | received _ _ _ _ _ hr _ _ _ => exact absurd hr hreader
  | deliver _ => exact absurd rfl hreader
  | lost _ => exact absurd rfl hreader
  | reset => rcases ha with h | h | h <;> cases h
  | result _ _ => simp
  | issued _ _ _ hc _ => simp [issued, hc]
  | taken _ _ => simp [taken, Instr.agent]
  | configured _ _ => simp [Instr.agent]
  | drained _ _ _ _ => simp [Instr.agent]

end Sys2Proof.Machine
end

section
/-! PROOFS, family 42_parser.md. The registers over a sequence of taken bytes: a frame's header, its payload and its
checksum byte (sections 2 to 5), and what a received frame row leaves (sections 6 and 7). -/

namespace Sys2Proof.Machine

/-! ### A sequence of taken bytes -/

/-- The bytes are taken one after the other: the registers go from `p` to `q`, and `obs` is what is recorded. -/
inductive Takes : Parser → List Byte → Parser → List Condition → Prop
  | nil (p : Parser) : Takes p [] p []
  | cons {b : Byte} {bs : List Byte} {p q r : Parser} {obs : List Condition} (hq : parserAfter b p = some q)
      (h : Takes q bs r obs) : Takes p (b :: bs) r (obsAfter b p ++ obs)

/-- Outside `WAIT_CHECKSUM` a byte records nothing (R113). -/
theorem obsAfter_of_not_waitChecksum {b : Byte} {p : Parser} (h : p.state ≠ .waitChecksum) : obsAfter b p = [] := by
  simp [obsAfter, h]

namespace Takes

/-- A byte before the checksum. -/
theorem quiet {b : Byte} {bs : List Byte} {p q r : Parser} {obs : List Condition} (hs : p.state ≠ .waitChecksum)
    (hq : Machine.parserAfter b p = some q) (h : Takes q bs r obs) : Takes p (b :: bs) r obs := by
  simpa [obsAfter_of_not_waitChecksum hs] using cons hq h

theorem append {as bs : List Byte} {p q r : Parser} {o o' : List Condition} (h : Takes p as q o)
    (h' : Takes q bs r o') : Takes p (as ++ bs) r (o ++ o') := by
  induction h with
  | nil p => exact h'
  | cons hq _ ih => rw [List.append_assoc]; exact cons hq (ih h')

/-- Bytes taken before the checksum byte, and the checksum byte (R113). -/
theorem snoc_checksum {as : List Byte} {p q : Parser} (h : Takes p as q []) (hs : q.state = .waitChecksum) (k : Byte) :
    Takes p (as ++ [k]) (q.goto (if k = q.acc then .holdDeliver else .waitStart)) (obsAfter k q) := by
  have hk : Machine.parserAfter k q = some (q.goto (if k = q.acc then .holdDeliver else .waitStart)) := by
    simp only [Machine.parserAfter, hs]
  simpa using h.append (cons hk (nil _))

end Takes

/-! ### The payload -/

/-- The bytes written one after the other from index `n` on (20_memory.md R45). -/
def Memory.store : Memory → Nat → List Byte → Memory
  | m, _, [] => m
  | m, n, b :: bs => store (m.write n b) (n + 1) bs

theorem Memory.read_store (bs : List Byte) (m : Memory) (n k : Nat) :
    (m.store n bs).read k = if n ≤ k ∧ k < n + bs.length then bs[k - n]? else m.read k := by
  induction bs generalizing m n with
  | nil => rw [if_neg (by simp)]; rfl
  | cons b bs ih =>
    rw [store, ih, Memory.read_write, List.length_cons]
    rcases Nat.lt_trichotomy k n with h | rfl | h
    · rw [if_neg (by omega), if_neg (by omega), if_neg (by omega)]
    · simp
    · obtain ⟨j, rfl⟩ := Nat.exists_eq_add_of_lt h
      have hj : n + j + 1 - n = j + 1 := by omega
      have hj' : n + j + 1 - (n + 1) = j := by omega
      rw [hj, hj', List.getElem?_cons_succ, if_neg (show ¬ n + j + 1 = n by omega)]
      congr 1
      exact propext (by omega)

/-- The stored bytes are the next of the collected ones. -/
theorem Memory.prefixBytes_store (bs : List Byte) (m : Memory) (n : Nat) :
    (m.store n bs).prefixBytes (n + bs.length) = m.prefixBytes n ++ bs := by
  induction bs generalizing m n with
  | nil => simp [store]
  | cons b bs ih =>
    have hlen : n + (b :: bs).length = n + 1 + bs.length := by rw [List.length_cons]; omega
    rw [store, hlen, ih, Memory.prefixBytes_write, List.append_assoc, List.singleton_append]

/-- The registers when the whole payload `bytes` is in, over the buffer `m` (R112): its checksum byte is awaited. -/
def collected (m : Memory) (v : Variant) (resp : Bool) (len cmd : U16) (acc : Byte) (bytes : List Byte) : Parser :=
  { state := .waitChecksum, variant := v, isResponse := resp, len := len, cmd := cmd, count := len, acc := acc,
    buf := m.store 0 bytes }

/-- From any point of the payload its remaining bytes are stored and summed (R112). -/
theorem takes_payload (bytes : List Byte) {p : Parser} (hs : p.state = afterPayload p.count p.len)
    (hl : p.count.toNat + bytes.length = p.len.toNat) :
    Takes p bytes
      { p with
        state := .waitChecksum
        count := p.len
        acc := bytes.foldl (accStep p.variant) p.acc
        buf := p.buf.store p.count.toNat bytes } [] := by
  induction bytes generalizing p with
  | nil =>
    have hc : p.count = p.len := BitVec.eq_of_toNat_eq hl
    rw [afterPayload, if_pos hc] at hs
    obtain ⟨st, _, _, _, _, cnt, _, _⟩ := p
    cases hs
    cases hc
    exact .nil _
  | cons b bytes ih =>
    rw [List.length_cons] at hl
    have hlen := p.len.isLt
    have hc : p.count ≠ p.len := fun h => by rw [h] at hl; omega
    have hidx : p.count.toNat < Config.payloadBufBytes := by simp only [Config.payloadBufBytes]; omega
    rw [afterPayload, if_neg hc] at hs
    have hq : parserAfter b p = some (effPayload b p) := by simp only [parserAfter, hs, if_pos hidx]
    have hsucc : (effPayload b p).count.toNat = p.count.toNat + 1 := toNat_count_succ hidx
    have hrest := ih (p := effPayload b p) rfl (by rw [hsucc]; show _ = p.len.toNat; omega)
    rw [hsucc] at hrest
    exact .quiet (by rw [hs]; nofun) hq hrest

/-- "When payload length is 0, skip payload collection" (R66): the header ends as a payload byte does. -/
theorem afterHeader_eq_afterPayload (len : U16) : afterHeader len = afterPayload 0 len := by
  simp only [afterHeader, afterPayload, eq_comm]

/-- The whole payload, after the last header byte. -/
theorem takes_whole_payload {m : Memory} {v : Variant} {resp : Bool} {len cmd : U16} {acc : Byte} {bytes : List Byte}
    (hl : bytes.length = len.toNat) :
    Takes ⟨afterHeader len, v, resp, len, cmd, 0, acc, m⟩ bytes
      (collected m v resp len cmd (bytes.foldl (accStep v) acc) bytes) [] := by
  rw [afterHeader_eq_afterPayload]
  exact takes_payload bytes (p := ⟨_, _, _, _, _, _, _, _⟩) rfl (by simpa using hl)

/-! ### The bytes before the checksum -/

/-- A direction byte that the receiver takes: `'>'` or `'!'` (30_encoding.md R64). -/
def Receivable (d : Byte) : Prop := d = Config.dirResponse ∨ d = Config.dirRequest

/-- A V1 frame up to its payload, whatever its bytes (R101 to R105, R112). -/
theorem takes_v1 {p : Parser} (hs : p.state = .waitStart) {d : Byte} (hd : Receivable d) (l c : Byte)
    {bytes : List Byte} (hl : bytes.length = l.toNat) :
    Takes p ([Config.startByte, Config.typeV1Byte, d, l, c] ++ bytes)
      (collected p.buf .v1 (d == Config.dirResponse) (zext16 l) (zext16 c) (xor8Frame l c bytes) bytes) [] := by
  have hheader : Takes p [Config.startByte, Config.typeV1Byte, d, l, c]
      ⟨afterHeader (zext16 l), .v1, d == Config.dirResponse, zext16 l, zext16 c, 0, xor8Step l c, p.buf⟩ [] := by
    refine .quiet (q := effStart p) (by rw [hs]; nofun) (by simp only [parserAfter, hs]; rfl) (.quiet nofun rfl ?_)
    rcases hd with rfl | rfl <;> exact .quiet nofun rfl (.quiet nofun rfl (.quiet nofun rfl (.nil _)))
  exact hheader.append (takes_whole_payload (by rw [toNat_zext16, hl]))

/-- A V2 frame up to its payload, whatever its bytes (R101, R102, R106 to R112). -/
theorem takes_v2 {p : Parser} (hs : p.state = .waitStart) {d : Byte} (hd : Receivable d) (f c0 c1 l0 l1 : Byte)
    {bytes : List Byte} (hl : bytes.length = (joinLE l0 l1).toNat) :
    Takes p ([Config.startByte, Config.typeV2Byte, d, f, c0, c1, l0, l1] ++ bytes)
      (collected p.buf .v2 (d == Config.dirResponse) (joinLE l0 l1) (joinLE c0 c1)
        (crc8 ([f, c0, c1, l0, l1] ++ bytes)) bytes) [] := by
  have hheader : Takes p [Config.startByte, Config.typeV2Byte, d, f, c0, c1, l0, l1]
      ⟨afterHeader (joinLE l0 l1), .v2, d == Config.dirResponse, joinLE l0 l1, joinLE c0 c1, 0,
        crc8 [f, c0, c1, l0, l1], p.buf⟩ [] := by
    refine .quiet (q := effStart p) (by rw [hs]; nofun) (by simp only [parserAfter, hs]; rfl) (.quiet nofun rfl ?_)
    rcases hd with rfl | rfl <;>
      exact .quiet nofun rfl (.quiet nofun rfl (.quiet nofun rfl (.quiet nofun rfl (.quiet nofun rfl
        (.quiet nofun rfl (.nil _))))))
  rw [crc8_append]
  exact hheader.append (takes_whole_payload hl)

/-! ### The checksum byte -/

section

variable {p : Parser} {header : List Byte} {m : Memory} {v : Variant} {resp : Bool} {len cmd : U16} {acc : Byte}
  {bytes : List Byte}

/-- R113, match: the frame is validated, and nothing is recorded. -/
theorem Takes.checksum_good (h : Takes p header (collected m v resp len cmd acc bytes) []) :
    Takes p (header ++ [acc]) ((collected m v resp len cmd acc bytes).goto .holdDeliver) [] := by
  simpa [obsAfter, collected] using h.snoc_checksum rfl acc

/-- R113, mismatch: the record, and back to `WAIT_START`. -/
theorem Takes.checksum_bad (h : Takes p header (collected m v resp len cmd acc bytes) []) {k : Byte} (hk : k ≠ acc) :
    Takes p (header ++ [k]) ((collected m v resp len cmd acc bytes).goto .waitStart)
      [.checksumMismatch v cmd len acc k] := by
  simpa [obsAfter, collected, hk] using h.snoc_checksum rfl k

/-- The Frame of a whole payload (R20, R114). -/
theorem receivedFrame_collected (hl : len.toNat = bytes.length) (st : PState) :
    receivedFrame ((collected m v resp len cmd acc bytes).goto st) = ⟨resp, len, cmd, bytes⟩ := by
  have hbytes := m.prefixBytes_store bytes 0
  rw [Nat.zero_add, Memory.prefixBytes_zero, List.nil_append] at hbytes
  simp [receivedFrame, collected, hl, hbytes]

end

/-! ### Received frame rows -/

/-- The state after bytes that take the registers to `q` and record `obs`. -/
def bytesTaken (q : Parser) (obs : List Condition) (s : State) : State :=
  ((s.setObs (s.obs ++ obs)).setP q).setResult .silent

theorem bytesTaken_bytesTaken (q r : Parser) (o o' : List Condition) (s : State) :
    bytesTaken r o' (bytesTaken q o s) = bytesTaken r (o ++ o') s := by
  simp only [bytesTaken, State.setResult_obs, State.setP_obs, State.setObs_obs, List.append_assoc]
  rfl

/-- `RX` takes the bytes and then delivers, if that is enabled (30_encoding.md R75). -/
theorem Takes.rxBytes {p q : Parser} {bs : List Byte} {obs : List Condition} (h : Takes p bs q obs) {s : State}
    (hp : s.p = p) (hh : s.halted = false) (hne : bs ≠ []) :
    rxBytes bs s = .next (deliverIfEnabled (bytesTaken q obs s), []) := by
  induction h generalizing s with
  | nil p => exact absurd rfl hne
  | @cons b bs _ q r obs hq h ih =>
    subst hp
    rw [rxBytes_cons hh hq]
    show Machine.rxBytes bs (bytesTaken q (obsAfter b s.p) s) = _
    cases bs with
    | nil => cases h; rw [List.append_nil]; rfl
    | cons c cs =>
      rw [ih (s := bytesTaken q (obsAfter b s.p) s) rfl hh (List.cons_ne_nil c cs), bytesTaken_bytesTaken]

/-- A frame row with the right checksum byte: the frame is validated, and deposited when the slot is free (R113,
R114). -/
theorem receive_validates {s : State} {header : List Byte} {v : Variant} {resp : Bool} {len cmd : U16} {acc : Byte}
    {bytes : List Byte} (hh : s.halted = false)
    (h : Takes s.p header (collected s.p.buf v resp len cmd acc bytes) []) (hl : len.toNat = bytes.length) :
    ∃ t, receive (header ++ [acc]) s = .next t ∧
      t.p.variant = v ∧ t.p.isResponse = resp ∧ t.p.len.toNat = bytes.length ∧ t.p.cmd = cmd ∧
      t.p.count = t.p.len ∧ t.p.acc = acc ∧
      (∀ k, t.p.buf.read k = if k < bytes.length then bytes[k]? else s.p.buf.read k) ∧
      (s.slot.full = false → t.p.state = .waitStart ∧ t.slot = ⟨true, ⟨resp, len, cmd, bytes⟩⟩) ∧
      (s.slot.full = true → t.p.state = .holdDeliver ∧ t.slot = s.slot) ∧
      t.mux = s.mux ∧ t.fifo = s.fifo ∧ t.halted = false ∧ t.obs = s.obs ∧ t.host = s.host ∧ t.io = s.io := by
  have hread : ∀ k, (s.p.buf.store 0 bytes).read k = if k < bytes.length then bytes[k]? else s.p.buf.read k := by
    intro k
    simpa using Memory.read_store bytes s.p.buf 0 k
  have he : deliverEnabled (bytesTaken ((collected s.p.buf v resp len cmd acc bytes).goto .holdDeliver) [] s) =
      !s.slot.full := by
    simp [deliverEnabled, bytesTaken, hh]
  have hx := receive_of_rxBytes hh (h.checksum_good.rxBytes rfl hh (by simp))
  rw [if_neg (by simp), deliverIfEnabled, he] at hx
  refine ⟨_, hx, ?_⟩
  cases hf : s.slot.full
  · exact ⟨rfl, rfl, hl, rfl, rfl, rfl, hread,
      fun _ => ⟨rfl, congrArg (Slot.mk true) (receivedFrame_collected hl .holdDeliver)⟩, nofun, rfl, rfl, hh,
      List.append_nil _, rfl, rfl⟩
  · exact ⟨rfl, rfl, hl, rfl, rfl, rfl, hread, nofun, fun _ => ⟨rfl, rfl⟩, rfl, rfl, hh, List.append_nil _, rfl, rfl⟩

/-- A V1 frame before its checksum byte. -/
theorem takes_v1Frame {q : Parser} (hs : q.state = .waitStart) {d : Byte} (hd : Receivable d) (c : Byte)
    {p : List Byte} (hp : p.length ≤ Config.v1LenMax) :
    Takes q ([Config.startByte, Config.typeV1Byte, d, len8 p, c] ++ p)
      (collected q.buf .v1 (d == Config.dirResponse) (len16 p) (zext16 c) (xor8Frame (len8 p) c p) p) [] :=
  zext16_len8 hp ▸ takes_v1 hs hd (len8 p) c (toNat_len8 hp).symm

/-- A V2 frame before its checksum byte. -/
theorem takes_v2Frame {q : Parser} (hs : q.state = .waitStart) {d : Byte} (hd : Receivable d) (f : Byte) (c : U16)
    {p : List Byte} (hp : p.length ≤ Config.v2LenMax) :
    Takes q ([Config.startByte, Config.typeV2Byte, d] ++ v2Covered f c p)
      (collected q.buf .v2 (d == Config.dirResponse) (len16 p) c (crc8 (v2Covered f c p)) p) [] := by
  have hl : p.length = (joinLE (lo8 (len16 p)) (hi8 (len16 p))).toNat := by rw [joinLE_lo_hi, toNat_len16 hp]
  have h := takes_v2 hs hd f (lo8 c) (hi8 c) (lo8 (len16 p)) (hi8 (len16 p)) hl
  rwa [joinLE_lo_hi, joinLE_lo_hi] at h

/-- Settles O30: a V1 frame row is `RX` on its frame, whose bytes lead to its own checksum. -/
theorem receivedV1FrameRowsValidate : Obligations.ReceivedV1FrameRowsValidate := by
  intro s c p hh hs hp i resp hmem
  obtain ⟨d, hd, hx, rfl⟩ : ∃ d, Receivable d ∧ exec i s = receive (v1Frame d c p) s ∧
      resp = (d == Config.dirResponse) := by
    fin_cases hmem
    · exact ⟨_, .inl rfl, rfl, rfl⟩
    · exact ⟨_, .inr rfl, rfl, rfl⟩
  have hp2 : p.length ≤ Config.v2LenMax := by simp only [Config.v2LenMax]; omega
  rw [hx]
  exact receive_validates hh (takes_v1Frame hs hd c hp) (toNat_len16 hp2)

/-- Settles O31: the same for a V2 frame row. -/
theorem receivedV2FrameRowsValidate : Obligations.ReceivedV2FrameRowsValidate := by
  intro s f c p hh hs hp i resp hmem
  obtain ⟨d, hd, hx, rfl⟩ : ∃ d, Receivable d ∧ exec i s = receive (v2Frame d f c p) s ∧
      resp = (d == Config.dirResponse) := by
    fin_cases hmem
    · exact ⟨_, .inl rfl, rfl, rfl⟩
    · exact ⟨_, .inr rfl, rfl, rfl⟩
  have hcov : v2Covered f c p = [f, c.setWidth 8, (c >>> 8).setWidth 8, BitVec.ofNat 8 p.length,
      BitVec.ofNat 8 (p.length / 256)] ++ p := by
    rw [← lo8_ofNat, ← hi8_ofNat]; rfl
  rw [hx, ← hcov]
  exact receive_validates hh (takes_v2Frame hs hd f c hp) (toNat_len16 hp)

end Sys2Proof.Machine
end

section
/-! PROOFS, family 42_parser.md. The parser as a function of the received bytes (section 8): what it reads depends on
the bytes since `WAIT_START` only, so a dropped frame leaves no trace in what follows (R119, R120). -/

namespace Sys2Proof.Machine

/-! ### One byte of the parser as a function -/

/-- Between two bytes of `parse` (R119): not halted, the slot taken empty, and no validated frame waiting. -/
structure Receiving (s : State) : Prop where
  running : s.halted = false
  free : s.slot.full = false
  notHeld : s.p.state ≠ .holdDeliver
  notHalted : s.p.state ≠ .halted
  payload : PayloadInv s.p

/-- The state after a validated frame is delivered and taken. -/
def handedOver (s : State) : State := taken ((deposit s).setResult .silent)

/-- A byte finds a rule in every state but the two that take none. -/
theorem PayloadInv.parserAfter_some {p : Parser} (h : PayloadInv p) (hd : p.state ≠ .holdDeliver)
    (hl : p.state ≠ .halted) (b : Byte) : ∃ q, Machine.parserAfter b p = some q := by
  unfold Machine.parserAfter
  cases hs : p.state
  case holdDeliver => exact absurd hs hd
  case halted => exact absurd hs hl
  case collectPayload => exact ⟨_, if_pos (h.count_lt_of_collect hs)⟩
  all_goals exact ⟨_, rfl⟩

/-- A taken byte hands out the frame it validates, and nothing else. -/
theorem pump_eq {b : Byte} {s : State} {q : Parser} (hh : s.halted = false) (hf : s.slot.full = false)
    (hq : parserAfter b s.p = some q) :
    pump b s = if q.state = .holdDeliver then (handedOver (byteTaken b q s), [receivedFrame q])
      else (byteTaken b q s, []) := by
  have hx := exec_rxByte_of_parserAfter hh hq
  by_cases hs : q.state = .holdDeliver
  · have he : deliverEnabled (byteTaken b q s) = true := (deliverEnabled_iff _).2 ⟨hs, hf, hh⟩
    have ht : exec .take ((deposit (byteTaken b q s)).setResult .silent) = .next (handedOver (byteTaken b q s)) := by
      rcases execTake_cases ((deposit (byteTaken b q s)).setResult .silent) with ⟨h, -⟩ | ⟨-, h, -⟩ | ⟨-, -, h⟩
      · exact absurd (hh.symm.trans h) nofun
      · exact absurd h nofun
      · exact h.trans (takeFrame_eq _)
    simp only [pump, hx, after, settle_of_enabled he, ht, if_pos hs]
    rfl
  · have he : deliverEnabled (byteTaken b q s) = false :=
      eq_false_of_ne_true fun h => hs ((deliverEnabled_iff _).1 h).1
    have hslot : (byteTaken b q s).slot.full = false := hf
    simp only [pump, hx, after, settle_of_not_enabled he, hslot, if_neg hs]
    rfl

theorem receiving_reset : Receiving State.reset :=
  ⟨rfl, rfl, nofun, nofun, .of_not_inPayload rfl rfl⟩

theorem Receiving.pump {s : State} (h : Receiving s) (b : Byte) : Receiving (pump b s).1 := by
  obtain ⟨q, hq⟩ := h.payload.parserAfter_some h.notHeld h.notHalted b
  have hinv := h.payload.parserAfter hq
  rw [pump_eq h.running h.free hq]
  split_ifs with hs
  · exact ⟨h.running, rfl, nofun, nofun, .of_not_inPayload hinv.bufWf rfl⟩
  · exact ⟨h.running, h.free, hs, parserAfter_state_ne_halted hq, hinv⟩

/-! ### A byte sequence -/

theorem parseFrom_cons (b : Byte) (bs : List Byte) (s : State) :
    parseFrom (b :: bs) s =
      ((parseFrom bs (pump b s).1).1, (pump b s).2 ++ (parseFrom bs (pump b s).1).2) := rfl

theorem parseFrom_append (as bs : List Byte) (s : State) :
    parseFrom (as ++ bs) s =
      ((parseFrom bs (parseFrom as s).1).1, (parseFrom as s).2 ++ (parseFrom bs (parseFrom as s).1).2) := by
  induction as generalizing s with
  | nil => rfl
  | cons b as ih => simp only [List.cons_append, parseFrom_cons, ih, List.append_assoc]

theorem Receiving.parseFrom {s : State} (h : Receiving s) (bs : List Byte) : Receiving (parseFrom bs s).1 := by
  induction bs generalizing s with
  | nil => exact h
  | cons b bs ih => exact ih (h.pump b)

/-- Bytes that the parser takes without a frame before the last of them. -/
theorem Takes.parseFrom {p q : Parser} {bs : List Byte} {obs : List Condition} (h : Takes p bs q obs) {s : State}
    (hp : s.p = p) (hh : s.halted = false) (hf : s.slot.full = false) (hne : bs ≠ []) :
    parseFrom bs s = if q.state = .holdDeliver then (handedOver (bytesTaken q obs s), [receivedFrame q])
      else (bytesTaken q obs s, []) := by
  induction h generalizing s with
  | nil p => exact absurd rfl hne
  | @cons b bs _ q r obs hq h ih =>
    subst hp
    rw [parseFrom_cons, pump_eq hh hf hq]
    cases h with
    | nil => rw [List.append_nil]; split_ifs <;> rfl
    | @cons c cs _ q' _ obs hq' h =>
      have hs : q.state ≠ .holdDeliver := fun hs => by simp [parserAfter, hs] at hq'
      have htail := ih (s := byteTaken b q s) rfl hh hf (List.cons_ne_nil c cs)
      rw [if_neg hs, htail]
      have hall : bytesTaken r (obsAfter c q ++ obs) (byteTaken b q s) =
        bytesTaken r (obsAfter b s.p ++ (obsAfter c q ++ obs)) s := bytesTaken_bytesTaken q r _ _ s
      rw [hall]
      split_ifs <;> rfl

/-! ### What the parser reads of its registers -/

/-- The registers that the state still reads agree (R101 to R114): the others are written before they are read. Of the
buffer it is the collected bytes. -/
def Agree (p q : Parser) : Prop :=
  q.state = p.state ∧
    match p.state with
    | .waitStart | .waitType | .halted => True
    | .waitDirection | .waitXDirection => q.variant = p.variant
    | .waitLen | .waitFlags => q.variant = p.variant ∧ q.isResponse = p.isResponse
    | .waitCmd => q.variant = p.variant ∧ q.isResponse = p.isResponse ∧ q.len = p.len ∧ q.acc = p.acc
    | .waitCmdLo => q.variant = p.variant ∧ q.isResponse = p.isResponse ∧ q.acc = p.acc
    | .waitCmdHi | .waitLenLo =>
      q.variant = p.variant ∧ q.isResponse = p.isResponse ∧ q.cmd = p.cmd ∧ q.acc = p.acc
    | .waitLenHi =>
      q.variant = p.variant ∧ q.isResponse = p.isResponse ∧ q.len = p.len ∧ q.cmd = p.cmd ∧ q.acc = p.acc
    | .collectPayload | .waitChecksum | .holdDeliver =>
      (∃ m, q = { p with buf := m }) ∧ q.buf.prefixBytes p.count.toNat = p.buf.prefixBytes p.count.toNat

theorem agree_of_waitStart {p q : Parser} (hp : p.state = .waitStart) (hq : q.state = .waitStart) : Agree p q := by
  simp only [Agree, hp, hq, and_self]

theorem agree_iff_of_inPayload {p q : Parser} (h : inPayload p.state = true) :
    Agree p q ↔
      (∃ m, q = { p with buf := m }) ∧ q.buf.prefixBytes p.count.toNat = p.buf.prefixBytes p.count.toNat := by
  have hs : p.state = .collectPayload ∨ p.state = .waitChecksum ∨ p.state = .holdDeliver := by
    simpa [inPayload, or_assoc] using h
  have hiff : Agree p q ↔ q.state = p.state ∧ (∃ m, q = { p with buf := m }) ∧
      q.buf.prefixBytes p.count.toNat = p.buf.prefixBytes p.count.toNat := by
    unfold Agree
    rcases hs with hs | hs | hs <;> simp only [hs]
  refine hiff.trans ⟨fun h => h.2, fun h => ⟨?_, h⟩⟩
  obtain ⟨⟨m, rfl⟩, -⟩ := h
  rfl

theorem Agree.inPayload_eq {p q : Parser} (h : Agree p q) : inPayload q.state = inPayload p.state := by rw [h.1]

/-- A payload byte goes to the same index and enters the same sum (R112). -/
theorem Agree.effPayload {p q : Parser} (h : Agree p q) (hs : p.state = .collectPayload)
    (hc : p.count.toNat < Config.payloadBufBytes) (b : Byte) : Agree (effPayload b p) (effPayload b q) := by
  obtain ⟨⟨m, rfl⟩, hm⟩ := (agree_iff_of_inPayload (by simp [hs, inPayload])).1 h
  refine (agree_iff_of_inPayload (inPayload_effPayload b p)).2 ⟨⟨_, rfl⟩, ?_⟩
  simp only [Machine.effPayload, toNat_count_succ hc, Memory.prefixBytes_write]
  exact congrArg (· ++ [b]) hm

/-- The registers that agree before a byte decide those that are read after it. -/
theorem Agree.parserAfter {b : Byte} {p q p' q' : Parser} (h : Agree p q) (hp : parserAfter b p = some p')
    (hq : parserAfter b q = some q') : Agree p' q' := by
  have hst := h.1
  unfold Machine.parserAfter at hp hq
  rw [hst] at hq
  cases hs : p.state <;> simp only [hs, Option.some.injEq, reduceCtorEq] at hp hq <;>
    (have h' := h.2; simp only [hs] at h')
  case collectPayload =>
    obtain ⟨⟨m, rfl⟩, -⟩ := h'
    obtain ⟨hc, hp⟩ := Option.ite_none_right_eq_some.1 hp
    obtain ⟨-, hq⟩ := Option.ite_none_right_eq_some.1 hq
    cases hp
    cases hq
    exact h.effPayload hs hc b
  case waitChecksum =>
    obtain ⟨⟨m, rfl⟩, hm⟩ := h'
    subst hp hq
    by_cases hb : b = p.acc
    · simp only [if_pos hb]
      exact (agree_iff_of_inPayload rfl).2 ⟨⟨m, rfl⟩, hm⟩
    · simp only [if_neg hb]
      exact agree_of_waitStart rfl rfl
  all_goals subst hp hq
  case waitCmd =>
    obtain ⟨hv, hr, hl, ha⟩ := h'
    refine (agree_iff_of_inPayload (inPayload_afterHeader _)).2 ⟨⟨q.buf, ?_⟩, rfl⟩
    simp only [effV1Cmd, hv, hr, hl, ha]
  case waitLenHi =>
    obtain ⟨hv, hr, hl, hc, ha⟩ := h'
    refine (agree_iff_of_inPayload (inPayload_afterHeader _)).2 ⟨⟨q.buf, ?_⟩, rfl⟩
    simp only [effV2LenHi, hv, hr, hl, hc, ha]
  all_goals
    (repeat' split) <;>
    simp [Agree, effStart, effIgnore, effTypeV1, effTypeV2, effDirV1, effDirV2, effAbort, effV1Len, effV2Flags,
      effV2CmdLo, effV2CmdHi, effV2LenLo, h']

/-- At the end of a frame the registers that agree are all that `DELIVER` reads (R114). -/
theorem Agree.receivedFrame {p q : Parser} (h : Agree p q) (hp : PayloadInv p) (hs : p.state = .holdDeliver) :
    receivedFrame q = receivedFrame p := by
  obtain ⟨⟨m, rfl⟩, hm⟩ := (agree_iff_of_inPayload (by simp [hs, inPayload])).1 h
  rw [hp.countDone (.inr hs)] at hm
  simp only [Machine.receivedFrame, hm]

theorem Receiving.pump_agree {s t : State} (hs : Receiving s) (ht : Receiving t) (h : Agree s.p t.p) (b : Byte) :
    (Machine.pump b t).2 = (Machine.pump b s).2 ∧ Agree (Machine.pump b s).1.p (Machine.pump b t).1.p := by
  obtain ⟨p, hp⟩ := hs.payload.parserAfter_some hs.notHeld hs.notHalted b
  obtain ⟨q, hq⟩ := ht.payload.parserAfter_some ht.notHeld ht.notHalted b
  have hpq := h.parserAfter hp hq
  rw [pump_eq hs.running hs.free hp, pump_eq ht.running ht.free hq, hpq.1]
  split_ifs with hd
  · exact ⟨congrArg ([·]) (hpq.receivedFrame (hs.payload.parserAfter hp) hd), agree_of_waitStart rfl rfl⟩
  · exact ⟨rfl, hpq⟩

/-- What is delivered depends on the registers that are still read only. -/
theorem Receiving.parseFrom_agree {s t : State} (hs : Receiving s) (ht : Receiving t) (h : Agree s.p t.p)
    (bs : List Byte) : (Machine.parseFrom bs t).2 = (Machine.parseFrom bs s).2 := by
  induction bs generalizing s t with
  | nil => rfl
  | cons b bs ih =>
    obtain ⟨hframes, hagree⟩ := hs.pump_agree ht h b
    rw [parseFrom_cons, parseFrom_cons, hframes, ih (hs.pump b) (ht.pump b) hagree]

/-- After bytes that end in `WAIT_START` the rest is parsed as from reset (R119). -/
theorem parse_append_of_waitStart {a : List Byte} (b : List Byte)
    (h : (parseFrom a State.reset).1.p.state = .waitStart) : parse (a ++ b) = parse a ++ parse b := by
  rw [parse, parseFrom_append]
  exact congrArg (parse a ++ ·)
    (receiving_reset.parseFrom_agree (receiving_reset.parseFrom a) (agree_of_waitStart rfl h) b)

/-- Settles O34: a fold over the bytes, and in `WAIT_START` no register is read before it is written. -/
theorem parseContinuesFromWaitStart : Obligations.ParseContinuesFromWaitStart := fun a b =>
  ⟨by rw [parse, parseFrom_append]; rfl, parse_append_of_waitStart b⟩

/-! ### Whole frames -/

/-- Bytes of a frame with its right checksum byte: the frame is handed out. -/
theorem parse_of_collected {header : List Byte} {v : Variant} {resp : Bool} {len cmd : U16} {acc : Byte}
    {bytes : List Byte} (h : Takes State.reset.p header (collected [] v resp len cmd acc bytes) [])
    (hl : len.toNat = bytes.length) : parse (header ++ [acc]) = [⟨resp, len, cmd, bytes⟩] := by
  rw [parse, h.checksum_good.parseFrom rfl rfl rfl (by simp), if_pos (goto_state _ _)]
  exact congrArg ([·]) (receivedFrame_collected hl .holdDeliver)

/-- Bytes that leave the parser in `WAIT_START`: nothing is handed out, what is recorded is what they record, and the
rest is parsed as if they had not been there. -/
theorem Takes.dropped {bs : List Byte} {q : Parser} {obs : List Condition} (h : Takes State.reset.p bs q obs)
    (hq : q.state = .waitStart) (hne : bs ≠ []) (g : List Byte) :
    (Machine.parseFrom bs State.reset).1.obs = obs ∧ parse (bs ++ g) = parse g := by
  have hx := h.parseFrom (s := State.reset) rfl rfl rfl hne
  rw [if_neg (by rw [hq]; nofun)] at hx
  refine ⟨by rw [hx]; rfl, ?_⟩
  rw [parse_append_of_waitStart g (by rw [hx]; exact hq), parse, hx]
  rfl

/-- The same bytes with another checksum byte: one mismatch, and the frame is dropped. -/
theorem mismatch_of_collected {header : List Byte} {v : Variant} {resp : Bool} {len cmd : U16} {acc k : Byte}
    {bytes : List Byte} (h : Takes State.reset.p header (collected [] v resp len cmd acc bytes) []) (hk : k ≠ acc)
    (g : List Byte) :
    (∃ cmd len computed received, (parseFrom (header ++ [k]) State.reset).1.obs =
      [.checksumMismatch v cmd len computed received]) ∧ parse (header ++ [k] ++ g) = parse g := by
  obtain ⟨hobs, hparse⟩ := (h.checksum_bad hk).dropped rfl (by simp) g
  exact ⟨⟨_, _, _, _, hobs⟩, hparse⟩

theorem parse_v1Frame {d : Byte} (hd : Receivable d) (c : Byte) {p : List Byte} (hp : p.length ≤ Config.v1LenMax) :
    parse (v1Frame d c p) = [⟨d == Config.dirResponse, len16 p, zext16 c, p⟩] :=
  parse_of_collected (takes_v1Frame rfl hd c hp)
    (toNat_len16 (by simp only [Config.v1LenMax, Config.v2LenMax] at hp ⊢; omega))

theorem parse_v2Frame {d : Byte} (hd : Receivable d) (f : Byte) (c : U16) {p : List Byte}
    (hp : p.length ≤ Config.v2LenMax) :
    parse (v2Frame d f c p) = [⟨d == Config.dirResponse, len16 p, c, p⟩] :=
  parse_of_collected (takes_v2Frame rfl hd f c hp) (toNat_len16 hp)

/-- Settles O32: replacing the direction byte of the encoded frame gives the received frame with that direction. -/
theorem roundTripV1ThroughTheParser : Obligations.RoundTripV1ThroughTheParser := by
  intro c p hc hp
  have hcmd : zext16 (BitVec.ofNat 8 c) = BitVec.ofNat 16 c := by
    apply BitVec.eq_of_toNat_eq
    rw [toNat_zext16, BitVec.toNat_ofNat, BitVec.toNat_ofNat]
    omega
  have hparse : ∀ d, Receivable d → parse ((v1Frame Config.dirTx (BitVec.ofNat 8 c) p).set 2 d) =
      [⟨d == Config.dirResponse, len16 p, BitVec.ofNat 16 c, p⟩] := fun d hd =>
    hcmd ▸ parse_v1Frame hd (BitVec.ofNat 8 c) hp
  exact ⟨_, encV1_eq_some hc hp, hparse _ (.inl rfl), hparse _ (.inr rfl)⟩

/-- Settles O33: the same in V2, where the encoder's flags byte is 0. -/
theorem roundTripV2ThroughTheParser : Obligations.RoundTripV2ThroughTheParser := by
  intro c p hc hp
  have hparse : ∀ d, Receivable d → parse ((v2Frame Config.dirTx Config.encFlags (BitVec.ofNat 16 c) p).set 2 d) =
      [⟨d == Config.dirResponse, len16 p, BitVec.ofNat 16 c, p⟩] := fun d hd =>
    parse_v2Frame hd Config.encFlags (BitVec.ofNat 16 c) hp
  exact ⟨_, encV2_eq_some hc hp, hparse _ (.inl rfl), hparse _ (.inr rfl)⟩

/-! ### A changed byte -/

/-- One byte changed among covered bytes and their checksum: the checksum byte does not fit the covered bytes (R86). -/
theorem Separates.set_covered {step : Byte → Byte → Byte} (hs : Separates step) {acc b : Byte} {covered : List Byte}
    {j : Nat} (hj : j < covered.length + 1) (hb : (covered ++ [covered.foldl step acc])[j]? ≠ some b) :
    ∃ k, (covered ++ [covered.foldl step acc]).set j b = covered.set j b ++ [k] ∧
      k ≠ (covered.set j b).foldl step acc := by
  rcases Nat.lt_succ_iff_lt_or_eq.1 hj with hj | rfl
  · have hne : covered[j] ≠ b := fun h =>
      hb ((List.getElem?_append_left hj).trans (List.getElem?_eq_some_iff.2 ⟨hj, h⟩))
    have hsplit : covered = covered.take j ++ covered[j] :: covered.drop (j + 1) := by simp
    refine ⟨_, List.set_append_left j b hj, ?_⟩
    rw [List.set_eq_take_append_cons_drop, if_pos hj]
    conv_lhs => rw [hsplit]
    exact hs.foldl_append_cons_ne hne acc _ _
  · refine ⟨b, ?_, fun h => hb ?_⟩
    · rw [List.set_append_right _ _ (Nat.le_refl _), List.set_eq_of_length_le (Nat.le_refl _)]
      simp
    · rw [h, List.set_eq_of_length_le (Nat.le_refl _)]
      simp

/-- Settles O35: the changed byte is one that the checksum covers, or the checksum. -/
theorem corruptedV1FrameIsDroppedAndResynced : Obligations.CorruptedV1FrameIsDroppedAndResynced := by
  intro d c p g k b hd hp hk hlen hb
  obtain ⟨j, rfl⟩ := Nat.exists_eq_add_of_le' hk
  rw [length_v1Frame] at hlen
  obtain ⟨sum, hset, hsum⟩ := separates_xor8Step.set_covered (acc := len8 p) (covered := c :: p) (j := j) (b := b)
    (by rw [List.length_cons]; omega) hb
  obtain ⟨c', p', hcov⟩ := List.exists_cons_of_ne_nil (l := (c :: p).set j b) (by simp)
  have hp' : p'.length = (len8 p).toNat := by
    rw [toNat_len8 hp]
    simpa using (congrArg List.length hcov).symm
  have hframe : (v1Frame d c p).set (j + 4) b =
      [Config.startByte, Config.typeV1Byte, d, len8 p, c'] ++ p' ++ [sum] := by
    rw [hcov] at hset
    exact congrArg ([Config.startByte, Config.typeV1Byte, d, len8 p] ++ ·) hset
  rw [hcov] at hsum
  rw [hframe]
  exact mismatch_of_collected (takes_v1 rfl hd (len8 p) c' hp') hsum g

/-- A change outside the length bytes leaves covered bytes of the same length. -/
theorem v2Covered_set (f b : Byte) (c : U16) (p : List Byte) {j : Nat} (hj : j = 0 ∨ j = 1 ∨ j = 2 ∨ 5 ≤ j) :
    ∃ f' c0 c1 p', (v2Covered f c p).set j b = [f', c0, c1, lo8 (len16 p), hi8 (len16 p)] ++ p' ∧
      p'.length = p.length := by
  rcases hj with rfl | rfl | rfl | hj
  · exact ⟨b, lo8 c, hi8 c, p, rfl, rfl⟩
  · exact ⟨f, b, hi8 c, p, rfl, rfl⟩
  · exact ⟨f, lo8 c, b, p, rfl, rfl⟩
  · obtain ⟨i, rfl⟩ := Nat.exists_eq_add_of_le' hj
    exact ⟨f, lo8 c, hi8 c, p.set i b, rfl, List.length_set⟩

/-- Settles O36: the same in V2, where the length bytes are covered too. -/
theorem corruptedV2FrameIsDroppedAndResynced : Obligations.CorruptedV2FrameIsDroppedAndResynced := by
  intro d f c p g k b hd hp hk hlen hb
  obtain ⟨j, rfl⟩ := Nat.exists_eq_add_of_le' (show 3 ≤ k by omega)
  rw [length_v2Frame] at hlen
  obtain ⟨sum, hset, hsum⟩ := separates_crc8Step.set_covered (acc := Config.crcInit) (covered := v2Covered f c p)
    (j := j) (b := b) (by simp only [v2Covered, List.length_append, List.length_cons, List.length_nil]; omega) hb
  obtain ⟨f', c0, c1, p', hcov, hp'⟩ := v2Covered_set f b c p (j := j) (by omega)
  have hlen' : p'.length = (joinLE (lo8 (len16 p)) (hi8 (len16 p))).toNat := by
    rw [joinLE_lo_hi, toNat_len16 hp, hp']
  have hframe : (v2Frame d f c p).set (j + 3) b =
      [Config.startByte, Config.typeV2Byte, d, f', c0, c1, lo8 (len16 p), hi8 (len16 p)] ++ p' ++ [sum] := by
    rw [hcov] at hset
    exact congrArg ([Config.startByte, Config.typeV2Byte, d] ++ ·) hset
  rw [hcov] at hsum
  rw [hframe]
  exact mismatch_of_collected (takes_v2 rfl hd f' c0 c1 _ _ hlen') hsum g

/-! ### A changed start, type or direction byte -/

/-- The bytes bring the parser to `WAIT_START`, and nothing is recorded. -/
def Skips (p : Parser) (bs : List Byte) : Prop := ∃ q, Takes p bs q [] ∧ q.state = .waitStart

theorem Skips.cons {b : Byte} {bs : List Byte} {p q : Parser} (hs : p.state ≠ .waitChecksum)
    (hq : parserAfter b p = some q) (h : Skips q bs) : Skips p (b :: bs) :=
  h.imp fun _ hr => ⟨.quiet hs hq hr.1, hr.2⟩

/-- In `WAIT_START` only 0x24 advances (R101). -/
theorem skips_of_no_start {p : Parser} (hs : p.state = .waitStart) {bs : List Byte} (h : Config.startByte ∉ bs) :
    Skips p bs := by
  induction bs generalizing p with
  | nil => exact ⟨p, .nil p, hs⟩
  | cons b bs ih =>
    obtain ⟨hb, hbs⟩ := not_or.1 (List.mem_cons.not.1 h)
    have hq : parserAfter b p = some (effIgnore p) := by simp only [parserAfter, hs, if_neg (Ne.symm hb)]
    exact .cons (by rw [hs]; nofun) hq (ih rfl hbs)

/-- A frame with its start, type or direction byte changed is skipped when no 0x24 follows (R115, R120 (d)). -/
theorem skips_of_changed_lead {t d b : Byte} {rest : List Byte} {k : Nat} (hd : Receivable d)
    (ht : t = Config.typeV1Byte ∨ t = Config.typeV2Byte) (hrest : Config.startByte ∉ rest)
    (hk : (k = 0 ∧ b ≠ 0x24) ∨ (k = 1 ∧ b ≠ 0x4D ∧ b ≠ 0x58) ∨ (k = 2 ∧ b ≠ 0x3E ∧ b ≠ 0x21)) :
    Skips State.reset.p ((Config.startByte :: t :: d :: rest).set k b) := by
  have hd' : Config.startByte ≠ d := by rcases hd with rfl | rfl <;> decide
  have ht' : Config.startByte ≠ t := by rcases ht with rfl | rfl <;> decide
  rcases hk with ⟨rfl, hb⟩ | ⟨rfl, hb1, hb2⟩ | ⟨rfl, hb1, hb2⟩
  · refine skips_of_no_start rfl (bs := b :: t :: d :: rest) ?_
    simp only [List.mem_cons, not_or]
    exact ⟨hb.symm, ht', hd', hrest⟩
  · have hq : parserAfter b (effStart State.reset.p) = some (effAbort (effStart State.reset.p)) :=
      congrArg some ((if_neg hb1).trans (if_neg hb2))
    refine .cons (q := effStart State.reset.p) nofun rfl (.cons nofun hq (skips_of_no_start rfl ?_))
    simp only [List.mem_cons, not_or]
    exact ⟨hd', hrest⟩
  · obtain ⟨p, hp, hs⟩ : ∃ p, parserAfter t (effStart State.reset.p) = some p ∧
        (p.state = .waitDirection ∨ p.state = .waitXDirection) := by
      rcases ht with rfl | rfl
      · exact ⟨_, rfl, .inl rfl⟩
      · exact ⟨_, rfl, .inr rfl⟩
    have hq : parserAfter b p = some (effAbort p) := by
      rcases hs with hs | hs <;> simp only [parserAfter, hs, if_neg hb1, if_neg hb2]
    have hne : p.state ≠ .waitChecksum := by rcases hs with hs | hs <;> simp [hs]
    exact .cons (q := effStart State.reset.p) nofun rfl (.cons nofun hp (.cons hne hq (skips_of_no_start rfl hrest)))

/-- Settles O37: no byte left of the frame is a 0x24 that could begin another. -/
theorem corruptedPrefixByteSkipsTheFrame : Obligations.CorruptedPrefixByteSkipsTheFrame := by
  intro f g k b hf hk hrest
  obtain ⟨t, d, rest, ht, hd, rfl⟩ : ∃ t d rest, (t = Config.typeV1Byte ∨ t = Config.typeV2Byte) ∧ Receivable d ∧
      f = Config.startByte :: t :: d :: rest := by
    rcases hf with ⟨d, c, p, hd, rfl⟩ | ⟨d, fl, c, p, hd, rfl⟩
    · exact ⟨_, d, _, .inl rfl, hd, rfl⟩
    · exact ⟨_, d, _, .inr rfl, hd, rfl⟩
  obtain ⟨q, h, hq⟩ := skips_of_changed_lead hd ht hrest hk
  exact h.dropped hq (by simp) g

/-- Settles O50: after a V1 frame of two payload bytes, dropped for its checksum, and the first three bytes of another
the counter still holds 2, and the next length byte, 1, does not clear it (R104). -/
theorem countBoundFailsInWaitCmd : Obligations.CountBoundFailsInWaitCmd := by
  have hframe : Takes State.reset.p [0x24, 0x4D, 0x3E, 0x02, 0x00, 0x00, 0x00, 0xFF] _ _ :=
    (takes_v1 rfl (.inl rfl) 0x02 0x00 (bytes := [0x00, 0x00]) rfl).checksum_bad (k := 0xFF) (by decide)
  have hnext {p : Parser} (hs : p.state = .waitStart) :
      Takes p [0x24, 0x4D, 0x3E] (effDirV1 true (effTypeV1 (effStart p))) [] :=
    .quiet (q := effStart p) (by rw [hs]; nofun) (by simp only [parserAfter, hs]; rfl)
      (.quiet nofun rfl (.quiet nofun rfl (.nil _)))
  have hreach := (hframe.append (hnext rfl)).parseFrom (s := State.reset) rfl rfl rfl (by simp)
  rw [if_neg (by nofun)] at hreach
  exact ⟨_, _, ⟨_, congrArg Prod.fst hreach⟩, rfl, rfl, by decide⟩

end Sys2Proof.Machine
end

section
/-! PROOFS, family 43_mux.md. What `ISSUE`, `TAKE`, `CFG_SET_V2` and `TX_DRAIN` do (sections 2 to 5). -/

namespace Sys2Proof.Machine

/-! ### ISSUE -/

theorem exec_issue (cmd : U16) (p : List Byte) (s : State) : exec (.issue cmd p) s = issue cmd p s := rfl

theorem issue_of_halted (cmd : U16) (p : List Byte) {s : State} (hh : s.halted = true) :
    issue cmd p s = .next (s.setResult (.refused .refusedHalted)) := by
  rw [issue, unlessHalted_of_halted hh, refuse_eq]

/-- The range test is the last of the three (R131, R175). -/
theorem issue_of_out_of_range {cmd : U16} {p : List Byte} {s : State} (hh : s.halted = false)
    (ha : s.mux.awaiting = false) (he : enc s.mux.usesV2 cmd.toNat p = none) :
    issue cmd p s = .next (s.setResult (.refused .refusedRange)) := by
  simp [issue, hh, ha, he]

/-- Settles O20: the accepted case and the three refusals, by the outcome of each test. -/
theorem issueQueuesOneFrameOrRefuses : Obligations.IssueQueuesOneFrameOrRefuses := by
  intro s cmd p
  rw [exec_issue]
  exact ⟨fun hh ha _ he => issue_of_enc hh ha he, issue_of_halted cmd p, issue_of_awaiting cmd p,
    issue_of_out_of_range⟩

/-! ### TAKE -/

theorem exec_take (s : State) : exec .take s = execTake s := rfl

theorem exec_take_of_halted {s : State} (hh : s.halted = true) :
    exec .take s = .next (s.setResult (.refused .refusedHalted)) :=
  unlessHalted_of_halted hh _

/-- Held, with no timeout (R132). -/
theorem exec_take_of_empty {s : State} (hh : s.halted = false) (hf : s.slot.full = false) :
    exec .take s = .next (s.setResult .held) := by
  simp [exec_take, execTake, hh, hf]

theorem exec_take_of_full {s : State} (hh : s.halted = false) (hf : s.slot.full = true) :
    exec .take s = .next (taken s) := by
  rw [exec_take, execTake, unlessHalted_of_running hh, if_pos hf, takeFrame_eq, taken]

/-- R133: a request is outstanding, and the 16-bit ids are equal. -/
theorem solicited_iff (m : Mux) (f : Frame) : solicited m f = true ↔ m.awaiting = true ∧ f.cmd = m.lastCmd := by
  simp [solicited]

/-- A solicited frame leaves no record. -/
theorem taken_of_solicited {s : State} (h : solicited s.mux s.slot.frame = true) :
    taken s = ((s.setSlot { s.slot with full := false }).setMux { s.mux with awaiting := false }).setResult
      (.taken s.slot.frame true) := by
  rw [taken, h, if_pos rfl, List.append_nil]
  rfl

theorem taken_of_unsolicited {s : State} (h : solicited s.mux s.slot.frame = false) :
    taken s = (((s.setObs (s.obs ++ [.unsolicited s.mux.lastCmd s.slot.frame.cmd s.mux.awaiting])).setSlot
      { s.slot with full := false }).setMux { s.mux with awaiting := false }).setResult
      (.taken s.slot.frame false) := by
  rw [taken, h, if_neg nofun]

/-- Settles O21: by the halt flag, the slot, and whether its frame is solicited. -/
theorem takeHandsOutOneFrame : Obligations.TakeHandsOutOneFrame := by
  intro s
  refine ⟨fun hh hf ha hc => ?_, fun hh hf hn => ?_, exec_take_of_empty, exec_take_of_halted⟩
  · rw [exec_take_of_full hh hf, taken_of_solicited ((solicited_iff _ _).2 ⟨ha, hc⟩)]
  · rw [← solicited_iff, Bool.not_eq_true] at hn
    rw [exec_take_of_full hh hf, taken_of_unsolicited hn]

/-! ### CFG_SET_V2 and TX_DRAIN -/

/-- Settles O22: the halt flag alone decides between the write and the refusal. -/
theorem cfgSetV2WritesTheControlBit : Obligations.CfgSetV2WritesTheControlBit := fun _ _ =>
  ⟨fun hh => unlessHalted_of_running hh _, fun hh => unlessHalted_of_halted hh _⟩

theorem exec_txDrain (n : Nat) (s : State) : exec (.txDrain n) s = execTxDrain n s := rfl

/-- Settles O23: the bytes handed over and the bytes left are the queue cut at `n`. -/
theorem txDrainTakesOldestBytes : Obligations.TxDrainTakesOldestBytes := by
  intro s n hh
  rw [exec_txDrain]
  rcases execTxDrain_cases n s with ⟨hh', -⟩ | ⟨-, hn, hx⟩ | ⟨-, h1, h2, hx⟩
  · rw [hh] at hh'
    cases hh'
  · exact ⟨fun h1 h2 => absurd ⟨h1, h2⟩ hn, fun _ => hx⟩
  · exact ⟨fun _ _ => ⟨s.fifo.take n, s.fifo.drop n, List.take_append_drop n s.fifo, List.length_take_of_le h2, hx⟩,
      fun hn => absurd ⟨h1, h2⟩ hn⟩

end Sys2Proof.Machine
end

section
/-! PROOFS, family 43_mux.md. The consumer's turn: the next call of its list, or the event of the documented host's point
(43_mux.md R132, 44_host_sequences.md R150, R151). -/

namespace Sys2Proof.Machine

/-! ### The consumer as a list of calls -/

theorem runConsumer_nil {s : State} (h : s.io.consumer = .calls []) : runConsumer s = .next s := by
  simp only [runConsumer, h]

theorem runConsumer_call {s : State} {i : Instr} {rest : List Instr} (h : s.io.consumer = .calls (i :: rest))
    (hm : i.consumerMay = true) :
    runConsumer s = keepCall (.calls (i :: rest)) (exec i (s.setConsumer (.calls rest))) := by
  simp only [runConsumer, h, hm, if_true]

/-! ### The documented host -/

theorem runConsumer_host_quiet {s : State} {ph : HostPhase} (h : s.io.consumer = .host ph)
    (he : hostEvent s.host ph = none) : runConsumer s = .next (s.setConsumer (.host (hostQuiet ph))) := by
  simp only [runConsumer, h, he]

theorem runConsumer_host_event {s t : State} {ph : HostPhase} {i : Instr} (h : s.io.consumer = .host ph)
    (he : hostEvent s.host ph = some i) (hx : exec i s = .next t) : runConsumer s = .next (hostAfter ph t) := by
  simp only [runConsumer, h, he, hx, hostGoesOn]

/-- No call of the consumer touches the host's data: they are the host's own (R27, R116). -/
theorem exec_host_of_consumerMay {i : Instr} {s t : State} (hm : i.consumerMay = true) (h : exec i s = .next t) :
    t.host = s.host := by
  have ha : i.agent = .consumer ∨ i.agent = .transport ∨ i.agent = .pure := by
    cases he : i.agent <;> simp_all [Instr.consumerMay]
  obtain ⟨-, -, -, hhost, -⟩ := consumerAndTransportLeaveTheParserAlone i s t ha h
  exact hhost

/-- A held `TAKE` is waited for (R151). -/
theorem hostAfter_of_held {t : State} (h : t.result = .held) (ph : HostPhase) :
    hostAfter ph t = t.setWaiting true := by
  simp only [hostAfter, h]

theorem hostAfter_of_ok {t : State} (h : t.result = .ok) (ph : HostPhase) :
    hostAfter ph t = (t.setConsumer (.host (hostAfterOk t.host ph))).setWaiting false := by
  simp only [hostAfter, h]

theorem hostAfter_of_taken {t : State} {f : Frame} {sol : Bool} (h : t.result = .taken f sol) (ph : HostPhase) :
    hostAfter ph t = ((t.setHost (hostAfterTake f sol t.host ph).1).setConsumer
      (.host (hostAfterTake f sol t.host ph).2)).setWaiting false := by
  simp only [hostAfter, h]

/-- The process has ended (60_exceptions.md R180). -/
theorem hostAfter_of_refusedHalted {t : State} (h : t.result = .refused .refusedHalted) (ph : HostPhase) :
    hostAfter ph t = (t.setConsumer (.host .ended)).setWaiting false := by
  simp only [hostAfter, h]

/-- Any other refusal leaves the host where it is (log 24). -/
theorem hostAfter_of_refused {t : State} {c : Condition} (h : t.result = .refused c) (hc : c ≠ .refusedHalted)
    (ph : HostPhase) : hostAfter ph t = t.setWaiting false := by
  cases c with
  | refusedHalted => exact absurd rfl hc
  | _ => simp only [hostAfter, h]

/-- Settles O55: the consumer's turn by what the consumer is, and then by the result of its event. -/
theorem stepRunsTheConsumersNextCall : Obligations.StepRunsTheConsumersNextCall := by
  intro s sched hs
  have hturn : step s = runConsumer (s.setSchedule sched) := step_of_cons hs
  rw [hturn]
  refine ⟨fun i rest t hc hm hx => ?_, fun hc => runConsumer_nil hc,
    fun ph hc => ⟨fun he => runConsumer_host_quiet hc he, fun i t he hx => ?_⟩⟩
  · rw [runConsumer_call (s := s.setSchedule sched) hc hm, hx]
    exact ⟨fun hr => ⟨keepCall_of_performed hr _, by rw [exec_io_of_consumerMay hm hx]; rfl⟩,
      fun hr => keepCall_of_held hr _⟩
  · have hhost : t.host = s.host := exec_host_of_consumerMay (s := s.setSchedule sched) (hostEvent_consumerMay he) hx
    rw [runConsumer_host_event (s := s.setSchedule sched) hc he hx, ← hhost]
    exact ⟨fun hr => by rw [hostAfter_of_held hr], fun hr => by rw [hostAfter_of_ok hr],
      fun _ _ hr => by rw [hostAfter_of_taken hr], fun hr => by rw [hostAfter_of_refusedHalted hr],
      fun _ hr hn => by rw [hostAfter_of_refused hr hn]⟩

end Sys2Proof.Machine
end

section
/-! PROOFS, family 44_host_sequences.md. The documented host's data: the transmit buffer (R157, R158), the `RC` decode
(R159), the packed versions (R152, R154), the status selection and the status decode (R160 to R162). -/

namespace Sys2Proof.Machine

/-! ### The transmit buffer -/

theorem channelPulse_eq (m : List (Nat × U16)) (ch : Nat) : channelPulse m ch = (m.lookup ch).getD 1759 := by
  unfold channelPulse
  cases m.lookup ch <;> rfl

theorem txSlots_eq (m : List (Nat × U16)) :
    txSlots m = (List.range 18).map fun i => (m.lookup (i + 1)).getD 1759 := by
  simp only [txSlots, channelPulse_eq]

/-- Where the two bytes of a value stand. -/
theorem getElem?_flatMap_lo8_hi8 {vs : List U16} {v : U16} {i : Nat} (h : vs[i]? = some v) :
    (vs.flatMap fun v => [lo8 v, hi8 v])[2 * i]? = some (lo8 v) ∧
      (vs.flatMap fun v => [lo8 v, hi8 v])[2 * i + 1]? = some (hi8 v) := by
  induction vs generalizing i with
  | nil => cases h
  | cons w vs ih =>
    cases i with
    | zero => cases h; exact ⟨rfl, rfl⟩
    | succ i => exact ih h

theorem length_txBuffer (m : List (Nat × U16)) : (txBuffer m).length = 36 := by
  simp [txBuffer, txSlots_eq, Function.comp_def]

/-- A transmit buffer fits both formats. -/
theorem length_txBuffer_le (m : List (Nat × U16)) : (txBuffer m).length ≤ Config.v1LenMax := by
  simp only [length_txBuffer, Config.v1LenMax]
  omega

/-- Settles O58: slot i is channel i + 1's pulse, and its two bytes stand at twice its place. -/
theorem transmitBufferIsEighteenLittleEndianSlots : Obligations.TransmitBufferIsEighteenLittleEndianSlots := by
  intro m
  refine ⟨length_txBuffer m, fun i hi => ⟨_, rfl, ?_⟩⟩
  have hslot : (txSlots m)[i]? = some ((m.lookup (i + 1)).getD 1759) := by simp [txSlots_eq, hi]
  exact getElem?_flatMap_lo8_hi8 hslot

/-- The row is the `ISSUE` of id 200 with the transmit buffer (R157). -/
theorem exec_setRawRc (s : State) : exec .setRawRc s = issue 200 (txBuffer s.host.overrides) s := rfl

/-- The frame that carries a transmit buffer in V1 format (R90, R158). -/
theorem enc_txBuffer_v1 (m : List (Nat × U16)) :
    enc false 200 (txBuffer m) = some (v1Frame Config.dirTx 200 (txBuffer m)) :=
  enc_zext16 200 (length_txBuffer_le m)

/-- Settles O28: 36 bytes fit both formats, so only the halt and an outstanding request refuse the request. -/
theorem setRawRcQueuesTheTransmitBuffer : Obligations.SetRawRcQueuesTheTransmitBuffer := by
  intro s
  rw [exec_setRawRc]
  refine ⟨rfl, issue_of_awaiting 200 _, fun hh ha => ?_⟩
  obtain ⟨bs, hbs⟩ := enc_isSome s.mux.usesV2 200 (length_txBuffer_le s.host.overrides)
  refine ⟨bs, hbs, issue_of_enc hh ha hbs, fun hu => ?_⟩
  have hframe : v1Frame Config.dirTx 200 (txBuffer s.host.overrides) = bs := by
    rw [hu] at hbs
    exact Option.some.inj ((enc_txBuffer_v1 _).symm.trans hbs)
  rw [← hframe]
  exact ⟨by rw [length_v1Frame, length_txBuffer], by simp [v1Frame, len8, length_txBuffer]⟩

/-! ### The RC decode -/

/-- The two bytes of a 16-bit value as a number (R46, R65). -/
theorem joinLE_eq_ofNat (lo hi : Byte) : joinLE lo hi = BitVec.ofNat 16 (lo.toNat + 256 * hi.toNat) := by
  have hlo : BitVec.ofNat 8 (lo.toNat + 256 * hi.toNat) = lo := by
    apply BitVec.eq_of_toNat_eq
    simp only [BitVec.toNat_ofNat]
    omega
  have hhi : (lo.toNat + 256 * hi.toNat) / 256 = hi.toNat := by omega
  rw [← joinLE_lo_hi (BitVec.ofNat 16 _), lo8_ofNat, hi8_ofNat, hlo, hhi, BitVec.ofNat_toNat, BitVec.setWidth_eq]

theorem length_sint16s : ∀ pl : List Byte, (sint16s pl).length = pl.length / 2
  | [] => rfl
  | [_] => by simp [sint16s]
  | a :: b :: rest => by
    simp only [sint16s, List.length_cons, length_sint16s rest]
    omega

/-- Value `j` is read from the pair of bytes at twice its place (R159). -/
theorem getElem?_sint16s {lo hi : Byte} : ∀ {pl : List Byte} {j : Nat}, pl[2 * j]? = some lo →
    pl[2 * j + 1]? = some hi → (sint16s pl)[j]? = some (joinLE lo hi).toInt
  | [], _, hlo, _ => by cases hlo
  | [_], _, _, hhi => by simp at hhi
  | _ :: _ :: _, 0, hlo, hhi => by cases hlo; cases hhi; rfl
  | _ :: _ :: rest, j + 1, hlo, hhi => getElem?_sint16s (pl := rest) (j := j) hlo hhi

/-- Settles O59: the decode is the first sixteen of the signed pairs. -/
theorem rcDecodeReadsSignedPairs : Obligations.RcDecodeReadsSignedPairs := by
  intro pl
  refine ⟨by rw [rcDecode, List.length_take, length_sint16s], fun j lo hi hj hlo hhi => ?_⟩
  rw [rcDecode, List.getElem?_take_of_lt hj, getElem?_sint16s hlo hhi, joinLE_eq_ofNat]

/-! ### The versions and the status selection -/

theorem payloadAt_of_getElem? {payload : List Byte} {i : Nat} {b : Byte} (h : payload[i]? = some b) :
    payloadAt payload i = b := by
  rw [payloadAt, h, Option.getD_some]

/-- A field with one more byte at its low end. -/
theorem toNat_append_byte {n : Nat} (x : BitVec n) (b : Byte) : (x ++ b).toNat = x.toNat * 256 + b.toNat := by
  rw [BitVec.toNat_append, ← Nat.shiftLeft_add_eq_or_of_lt b.isLt, Nat.shiftLeft_eq]

/-- The packed api version, where the response has its two bytes (R152). -/
theorem apiVersionOf_eq {o : Config.HostOffsets} {payload : List Byte} {ma mi : Byte}
    (hma : payload[o.apiMajor]? = some ma) (hmi : payload[o.apiMinor]? = some mi) :
    apiVersionOf o payload = BitVec.ofNat 16 (256 * ma.toNat + mi.toNat) := by
  rw [apiVersionOf, payloadAt_of_getElem? hma, payloadAt_of_getElem? hmi, joinLE_eq_ofNat, Nat.add_comm]

theorem apiSaysV2_eq {o : Config.HostOffsets} {payload : List Byte} {ma : Byte}
    (hma : payload[o.apiMajor]? = some ma) : apiSaysV2 o payload = (ma == 2) := by
  rw [apiSaysV2, payloadAt_of_getElem? hma]

/-- The packed firmware version, where the response has its three bytes (R154). -/
theorem firmwareVersionOf_eq {o : Config.HostOffsets} {payload : List Byte} {ma mi pa : Byte}
    (hma : payload[o.fcvMajor]? = some ma) (hmi : payload[o.fcvMinor]? = some mi)
    (hpa : payload[o.fcvPatch]? = some pa) :
    firmwareVersionOf o payload = BitVec.ofNat 24 (65536 * ma.toNat + 256 * mi.toNat + pa.toNat) := by
  apply BitVec.eq_of_toNat_eq
  simp only [firmwareVersionOf, payloadAt_of_getElem? hma, payloadAt_of_getElem? hmi, payloadAt_of_getElem? hpa,
    toNat_append_byte, BitVec.toNat_ofNat]
  omega

/-- R161's two comparisons, as numbers. -/
theorem selectStatus_eq (api : U16) (fw : U24) :
    selectStatus api fw =
      if 0x0200 < api.toNat ∧ 0x010801 ≤ fw.toNat then .inav else if 0x0200 < api.toNat then .extended else .legacy :=
  rfl

/-- Settles O57: one threshold case after the other. -/
theorem statusSelectionThresholds : Obligations.StatusSelectionThresholds := by
  intro api fw
  rw [selectStatus_eq]
  refine ⟨fun ha hf => ?_, fun ha hf => ?_, fun ha => ?_⟩
  · rw [if_pos ⟨ha, hf⟩, statusInstr]
  · rw [if_neg (by omega), if_pos ha, statusInstr]
  · rw [if_neg (by omega), if_neg (by omega), statusInstr]

/-! ### The status decode -/

/-- The four bytes of a 32-bit field as a number, in its byte order (R162). -/
theorem toNat_u32At (be : Bool) {payload : List Byte} {ofs : Nat} {b0 b1 b2 b3 : Byte}
    (h0 : payload[ofs]? = some b0) (h1 : payload[ofs + 1]? = some b1) (h2 : payload[ofs + 2]? = some b2)
    (h3 : payload[ofs + 3]? = some b3) :
    (u32At be payload ofs).toNat =
      if be then ((b0.toNat * 256 + b1.toNat) * 256 + b2.toNat) * 256 + b3.toNat
      else ((b3.toNat * 256 + b2.toNat) * 256 + b1.toNat) * 256 + b0.toNat := by
  simp only [u32At, payloadAt_of_getElem? h0, payloadAt_of_getElem? h1, payloadAt_of_getElem? h2,
    payloadAt_of_getElem? h3]
  cases be <;> simp only [Bool.false_eq_true, if_true, if_false, toNat_append_byte]

theorem snapshotOf_armed {l : Config.StatusLayout} {payload : List Byte} {w : Byte}
    (h : payload[armedByteOfs l]? = some w) (v : StatusVariant) :
    (snapshotOf l v payload).armed = w.getLsbD 0 := by
  rw [snapshotOf, payloadAt_of_getElem? h]

end Sys2Proof.Machine
end

section
/-! PROOFS, family 44_host_sequences.md. The documented host's program: the handshake (section 2) and the loop
(section 3), point by point. -/

namespace Sys2Proof.Machine

/-! ### The handshake -/

/-- After a solicited response to `API_VERSION` (R152). -/
theorem hostAfterTake_apiTake {f : Frame} {ma mi : Byte} (hma : f.payload[Config.hostOffsets.apiMajor]? = some ma)
    (hmi : f.payload[Config.hostOffsets.apiMinor]? = some mi) (h : HostRegs) :
    hostAfterTake f true h .apiTake =
      ({ h with apiVersionRaw := BitVec.ofNat 16 (256 * ma.toNat + mi.toNat) }, .apiCfg (ma == 2)) := by
  simp only [hostAfterTake, if_true, apiVersionOf_eq hma hmi, apiSaysV2_eq hma]

/-- The host asks `BUILD_INFO` after `FC_VERSION`, solicited or not (R156). -/
theorem hostAfterTake_versionTake_snd (f : Frame) (sol : Bool) (h : HostRegs) :
    (hostAfterTake f sol h .versionTake).2 = .buildAsk := by
  cases sol <;> rfl

/-- After a solicited response to `FC_VERSION` (R154). -/
theorem hostAfterTake_versionTake {f : Frame} {ma mi pa : Byte}
    (hma : f.payload[Config.hostOffsets.fcvMajor]? = some ma) (hmi : f.payload[Config.hostOffsets.fcvMinor]? = some mi)
    (hpa : f.payload[Config.hostOffsets.fcvPatch]? = some pa) (h : HostRegs) :
    (hostAfterTake f true h .versionTake).1 =
      { h with firmwareVersion := BitVec.ofNat 24 (65536 * ma.toNat + 256 * mi.toNat + pa.toNat) } := by
  simp only [hostAfterTake, if_true, firmwareVersionOf_eq hma hmi hpa]

/-! ### The loop -/

/-- The override step is skipped with an empty map (R157). -/
theorem hostEvent_loopTop_of_empty {h : HostRegs} (he : h.overrides = []) : hostEvent h .loopTop = none := by
  simp only [hostEvent, he, List.isEmpty_nil, if_true]

theorem hostEvent_loopTop_of_ne_nil {h : HostRegs} (he : h.overrides ≠ []) :
    hostEvent h .loopTop = some .setRawRc := by
  rw [hostEvent, if_neg (by rwa [List.isEmpty_iff])]

/-- The host reports the values that it sent (R157). -/
theorem hostAfterTake_overrideTake (f : Frame) (sol : Bool) (h : HostRegs) :
    hostAfterTake f sol h .overrideTake =
      ({ h with reports := h.reports ++
          [.sent ((List.range 18).map fun i => (h.overrides.lookup (i + 1)).getD 1759)] }, .rcAsk) := by
  rw [← txSlots_eq]
  rfl

/-- After a frame that answers the status query: the report of its snapshot (R162). -/
theorem hostAfterTake_statusTake (f : Frame) (sol : Bool) (h : HostRegs) (v : StatusVariant) :
    hostAfterTake f sol h (.statusTake v) =
      ({ h with reports := h.reports ++
          [.status (snapshotOf (Config.statusLayout v) v f.payload)
            (Config.flagsNonTrivial (snapshotOf (Config.statusLayout v) v f.payload).armDisableFlags)] }, .sleep) :=
  rfl

/-- Settles O60: at each point the host's event and its next point are the program's by definition; what it records and
reports are the values of R152, R154, R157, R159 and R162. -/
theorem handshakeOrder : Obligations.HandshakeOrder := by
  intro h f sol
  refine ⟨⟨rfl, rfl, rfl, ⟨_, rfl, rfl, rfl⟩, fun _ _ hma hmi => hostAfterTake_apiTake hma hmi h, rfl⟩,
    ⟨rfl, rfl, rfl, rfl⟩,
    ⟨rfl, rfl, rfl, hostAfterTake_versionTake_snd f sol h,
      fun _ _ _ hma hmi hpa => hostAfterTake_versionTake hma hmi hpa h, rfl⟩,
    ⟨rfl, rfl, rfl, rfl⟩, ⟨rfl, rfl, rfl, rfl⟩, ⟨rfl, rfl, rfl, rfl⟩,
    ⟨fun he => ⟨hostEvent_loopTop_of_empty he, rfl⟩, hostEvent_loopTop_of_ne_nil, rfl, rfl,
      hostAfterTake_overrideTake f sol h⟩,
    ⟨rfl, rfl, rfl, rfl⟩, ⟨_, rfl, rfl, rfl⟩, ?_, rfl, rfl⟩
  rintro v l rfl
  exact ⟨rfl, _, hostAfterTake_statusTake f sol h v, rfl, fun _ hw => snapshotOf_armed hw v,
    fun _ _ _ _ h0 h1 h2 h3 => toNat_u32At _ h0 h1 h2 h3⟩

end Sys2Proof.Machine
end

section
/-! PROOFS, family 60_exceptions.md. The fatal halt (section 4): `RX_FAIL` enters it, and while it lasts every event but
`RESET`, `DELIVER` and the pure functions is refused. And what the reader writes of the other agents' registers (section
8): nothing. -/

namespace Sys2Proof.Machine

/-! ### What a received frame row leaves alone -/

/-- What belongs to the other agents, and the halt flag, are as they were (R186). -/
structure ReaderKeeps (s t : State) : Prop where
  mux : t.mux = s.mux
  fifo : t.fifo = s.fifo
  host : t.host = s.host
  halted : t.halted = s.halted

/-- The rule of a byte writes parser registers and `OBS` only (R100 to R113). -/
theorem ReaderKeeps.rxRule {b : Byte} {s t u : State} (h : ReaderKeeps s t) (hr : Machine.rxRule b t = .next u) :
    ReaderKeeps s u := by
  obtain ⟨hmux, hfifo, hhost, hhalted⟩ := h
  cases hq : parserAfter b t.p with
  | some q => rw [rxRule_eq hq] at hr; cases hr; exact ⟨hmux, hfifo, hhost, hhalted⟩
  | none =>
    rcases rxRule_none hq with ⟨-, e⟩ | ⟨-, e⟩ | ⟨-, e⟩ <;> rw [e] at hr <;> cases hr <;>
      exact ⟨hmux, hfifo, hhost, hhalted⟩

/-- So does the pseudo-operation `RX`, with its deposits (R75, R114). -/
theorem readerKeeps_rxBytes {bs rest : List Byte} {s u : State} (h : rxBytes bs s = .next (u, rest)) :
    ReaderKeeps s u :=
  rxBytes_induct (P := ReaderKeeps s) (fun _ ⟨hmux, hfifo, hhost, hhalted⟩ _ => ⟨hmux, hfifo, hhost, hhalted⟩)
    (fun _ _ _ ht _ hr => ht.rxRule hr) bs s ⟨rfl, rfl, rfl, rfl⟩ u rest h

/-- The bytes `RX` does not take are the last ones. -/
theorem rxBytes_suffix {bs rest : List Byte} {s u : State} (h : rxBytes bs s = .next (u, rest)) : rest <:+ bs := by
  obtain ⟨bytes, rfl, -⟩ := rxBytes_takeByte bs s u rest h
  exact List.suffix_append bytes rest

/-- Settles O52: of the ways an event moves the state, those of the reader are a byte, a deposit, the halt and `RX` on a
frame's bytes; only the last touches an input, the RX stream. -/
theorem readerLeavesTheMultiplexerAlone : Obligations.ReaderLeavesTheMultiplexerAlone := by
  intro i s t ha hx
  cases exec_moved hx with
  | result _ _ | byte _ _ _ _ _ _ _ _ | deliver _ =>
    exact ⟨rfl, rfl, rfl, fun hne => absurd rfl hne, rfl, rfl, rfl, fun hne => absurd rfl hne⟩
  | lost _ => exact ⟨rfl, rfl, rfl, fun _ => rfl, rfl, rfl, rfl, fun hne => absurd rfl hne⟩
  | received _ bs u rest hi _ _ hr hl =>
    obtain ⟨hmux, hfifo, hhost, hhalted⟩ := readerKeeps_rxBytes hr
    have hio : u.io = s.io := rxBytes_io hr
    refine ⟨hmux, hfifo, hhost, fun hne => absurd hhalted hne, ?_, ?_, ?_, fun _ =>
      ⟨bs, rest, hi, rxBytes_suffix hr, fun e => hl (congrArg List.length e), ?_⟩⟩ <;> simp [hio]
  | issued _ _ _ hc _ => rw [ha] at hc; cases hc
  | taken _ _ | configured _ _ | drained _ _ _ _ | reset => cases ha

/-! ### The fatal halt -/

/-- Settles O17: the entry to the halt, and the refusal of a second failure. -/
theorem rxFailHaltsTheBlock : Obligations.RxFailHaltsTheBlock := fun s =>
  ⟨fun hh => ⟨Config.exitStatus, exitStatus_ne_zero, (unlessHalted_of_running hh _).trans (enterHalt_eq s)⟩,
    fun hh => unlessHalted_of_halted hh _⟩

/-- The rows whose first line is the halt test (R180): all but `RESET`, `DELIVER` and the pure functions (log 8). -/
def haltTested : Instr → Bool
  | .reset | .deliver => false
  | .encodeV1 _ _ | .encodeV2 _ _ | .encode _ _ _ => false
  | _ => true

theorem exec_eq_unlessHalted {i : Instr} (hi : haltTested i = true) (s : State) :
    ∃ body, exec i s = unlessHalted s body := by
  cases i with
  | reset | deliver | encodeV1 _ _ | encodeV2 _ _ | encode _ _ _ => cases hi
  | _ => exact ⟨_, rfl⟩

theorem exec_of_halted {i : Instr} (hi : haltTested i = true) {s : State} (hh : s.halted = true) :
    exec i s = .next (s.setResult (.refused .refusedHalted)) := by
  obtain ⟨body, hx⟩ := exec_eq_unlessHalted hi s
  rw [hx, unlessHalted_of_halted hh, refuse_eq]

/-- `DELIVER` has no refusal: it is not enabled (R114, R180). -/
theorem exec_deliver_of_halted {s : State} (hh : s.halted = true) : exec .deliver s = .next (s.setResult .held) := by
  rcases execDeliver_cases s with ⟨he, -⟩ | ⟨-, hx⟩
  · obtain ⟨-, -, hrunning⟩ := (deliverEnabled_iff s).1 he
    rw [hh] at hrunning
    cases hrunning
  · exact hx

/-- Settles O18: the six events begin with the halt test, `DELIVER` is held. -/
theorem haltedRefusesEveryEvent : Obligations.HaltedRefusesEveryEvent := by
  intro s hh
  have refused : ∀ i, haltTested i = true → exec i s = .next (s.setResult (.refused .refusedHalted)) :=
    fun _ hi => exec_of_halted hi hh
  exact ⟨fun _ => refused _ rfl, refused _ rfl, fun _ _ => refused _ rfl, refused _ rfl, fun _ => refused _ rfl,
    fun _ => refused _ rfl, exec_deliver_of_halted hh⟩

/-- The rows without the halt test are event rows, which have no coded form (30_encoding.md R73). -/
theorem haltTested_of_encode {i : Instr} {c : Code} (h : encode i = some c) : haltTested i = true := by
  cases i with
  | reset | deliver | encodeV1 _ _ | encodeV2 _ _ | encode _ _ _ => cases h
  | _ => rfl

/-- Settles O19: every coded row begins with the halt test. -/
theorem haltedRefusesEveryCodedRow : Obligations.HaltedRefusesEveryCodedRow := fun _ _ _ hh hi =>
  exec_of_halted (haltTested_of_encode hi) hh

end Sys2Proof.Machine
end

section
/-! PROOFS, family 70_reset_and_hazards.md. What `RESET` leaves (section 1), and the block's own frames looped back to
its parser (section 3, R200). -/

namespace Sys2Proof.Machine

/-! ### The block's own frames -/

/-- Every frame of `ENCODE`, of either format, has the direction byte `'<'` at offset 2 (R61, R62). -/
theorem lead_of_enc {u : Bool} {cmd : Nat} {p bs : List Byte} (h : enc u cmd p = some bs) :
    ∃ t rest, (t = Config.typeV1Byte ∨ t = Config.typeV2Byte) ∧
      bs = Config.startByte :: t :: Config.dirTx :: rest := by
  rw [enc_eq_ite] at h
  split at h
  · obtain ⟨-, hbs⟩ := Option.ite_none_left_eq_some.1 h
    exact ⟨_, _, .inr rfl, (Option.some.inj hbs).symm⟩
  · obtain ⟨-, hbs⟩ := Option.ite_none_left_eq_some.1 h
    exact ⟨_, _, .inl rfl, (Option.some.inj hbs).symm⟩

/-- Bytes that the parser skips from reset: nothing is handed out, nothing is recorded (R115). -/
theorem Skips.parseFrom_reset {bs : List Byte} (h : Skips State.reset.p bs) :
    parse bs = [] ∧ (parseFrom bs State.reset).1.obs = [] ∧ (parseFrom bs State.reset).1.p.state = .waitStart := by
  obtain ⟨q, htakes, hq⟩ := h
  rcases eq_or_ne bs [] with rfl | hne
  · exact ⟨rfl, rfl, rfl⟩
  · have hx := htakes.parseFrom (s := State.reset) rfl rfl rfl hne
    rw [if_neg (by rw [hq]; nofun)] at hx
    rw [parse, hx]
    exact ⟨rfl, rfl, hq⟩

/-- Settles O38: to the parser an own frame is a received frame whose direction byte is changed to 0x3C. -/
theorem ownFramesDeliverNothing : Obligations.OwnFramesDeliverNothing := by
  intro u cmd p bs henc hrest
  obtain ⟨t, rest, ht, rfl⟩ := lead_of_enc henc
  exact (skips_of_changed_lead (d := Config.dirResponse) (b := Config.dirTx) (k := 2) (.inl rfl) ht hrest
    (.inr (.inr ⟨rfl, by decide, by decide⟩))).parseFrom_reset

/-! ### `RESET` -/

/-- The state after a reset: the block's tuple, the host's registers, the consumer (R190, R191, R139). -/
def afterReset (s : State) : State :=
  (((resetBlock s).setHost (restartHost s.host)).setIo (restartConsumer s.io)).setResult .silent

/-- `RESET` has no halt test and no refusal (R190). -/
theorem exec_reset (s : State) : exec .reset s = .next (afterReset s) := rfl

@[simp] theorem afterReset_io (s : State) : (afterReset s).io = restartConsumer s.io := rfl

/-- Settles O1: each element has its value of `resetBlock`. -/
theorem resetSetsEveryElement : Obligations.ResetSetsEveryElement := fun s =>
  ⟨afterReset s, exec_reset s, rfl, rfl, rfl, rfl, rfl, rfl, rfl, rfl, rfl, rfl, rfl, rfl, rfl, rfl, rfl⟩

@[simp] theorem restartConsumer_waiting (io : Inputs) : (restartConsumer io).waiting = false := by
  unfold restartConsumer; split <;> rfl

theorem restartConsumer_of_host {io : Inputs} {ph : HostPhase} (h : io.consumer = .host ph) :
    (restartConsumer io).consumer = .host .apiAsk := by simp [restartConsumer, h]

/-- A held call is dropped, any other list stays (log 17). -/
theorem restartConsumer_of_calls {io : Inputs} {cs : List Instr} (h : io.consumer = .calls cs) :
    (restartConsumer io).consumer = .calls (if io.waiting then cs.tail else cs) := by simp [restartConsumer, h]

/-- Settles O2: the inputs after a reset are those of `restartConsumer`. -/
theorem resetKeepsRxStreamAndReleasesConsumer : Obligations.ResetKeepsRxStreamAndReleasesConsumer := by
  intro s t hx
  obtain rfl : afterReset s = t := Host.Outcome.next.inj hx
  rw [afterReset_io]
  refine ⟨restartConsumer_rx _, restartConsumer_schedule _, restartConsumer_waiting _, ?_, ?_,
    fun ph hc => restartConsumer_of_host hc, rfl⟩
  · intro i rest hc hw
    rw [restartConsumer_of_calls hc, if_pos hw, List.tail_cons]
  · intro cs hc hw
    rw [restartConsumer_of_calls hc, hw, if_neg Bool.false_ne_true]

end Sys2Proof.Machine
end
